-- ==== Sys2Proof/Word.lean ====
section
/-!
DEFINITION. The words of the machine: bytes, nibbles, characters and strings (00_scope.md R8, section 6), and the
carriers of the enumerated and composite result registers with the widths of 10_state.md R14.
-/

namespace Sys2Proof

/-- A payload byte, unsigned 8 bits (00_scope.md section 5). -/
abbrev Byte := BitVec 8

/-- Half a byte: a coordinate digit, a tier, a satellite count (R32). -/
abbrev Nibble := BitVec 4

/-- A character: an 8-bit code point numbered as in ISO 8859-1 (R8). -/
abbrev Char8 := BitVec 8

/-- A string: a finite sequence of characters with an explicit length and no terminator (R8, R15). -/
abbrev Str := List Char8

/-- A key of the result or of the caller's metadata: a character string (R24, R138). -/
abbrev Key := Str

/-- A value of the caller's metadata, which the block does not interpret (R138). DESIGN CHOICE: a string of bytes (log 10). -/
abbrev MetaValue := List Byte

/-- The register `latitude`: sign, whole degrees, thousandths of a minute (R14). -/
structure Latitude where
  neg : Bool
  deg : BitVec 7
  m5  : BitVec 17
  deriving DecidableEq, Repr, Inhabited

/-- The register `longitude`: sign, whole degrees, hundredths of a minute (R14). -/
structure Longitude where
  neg : Bool
  deg : BitVec 10
  m4  : BitVec 14
  deriving DecidableEq, Repr, Inhabited

/-- The register `latitude_hemisphere` (R14, R87). -/
inductive LatHemisphere where
  | north
  | south
  deriving DecidableEq, Repr

/-- The register `longitude_hemisphere` (R14, R87). -/
inductive LonHemisphere where
  | east
  | west
  deriving DecidableEq, Repr

/-- The register `reception` (R14, R106). -/
inductive Reception where
  | good
  | average
  | poor
  deriving DecidableEq, Repr

end Sys2Proof
end

