-- ==== Sys2Proof/Syntax.lean ====
section
/-!
DEFINITION. The field operations as data: one constructor of `Instr` for each row of the operation map
(30_encoding.md R58), with the operand fields of R52 to R54, and the names of the sequenced operations and of the groups.
-/

namespace Sys2Proof

/-- The operand of LAT and LON, format C (R53): seven digit nibbles, three bits no rule reads, the hemisphere bit. -/
structure Coord where
  d0 : Nibble
  d1 : Nibble
  d2 : Nibble
  d3 : Nibble
  d4 : Nibble
  d5 : Nibble
  d6 : Nibble
  ignored : BitVec 3
  h : Bool
  deriving DecidableEq, Repr

/-- The fifteen field operations (R58) with their operands. -/
inductive Instr where
  /-- STATUS, format S: the status byte (R70). -/
  | status (s : Byte)
  /-- TEMP, format T: sign selector and magnitude (R52, R80). -/
  | temp (sg : Bool) (mag : BitVec 7)
  /-- LAT, format C (R90). -/
  | lat (c : Coord)
  /-- LON, format C (R95). -/
  | lon (c : Coord)
  /-- QUAL, format Q: high nibble tier, low nibble satellite count (R54, R105). -/
  | qual (tier sat : Nibble)
  /-- LONLAT: no payload byte (R101). -/
  | lonlat
  /-- UPCNT, format N (R112). -/
  | upcnt (n : Byte)
  /-- DNCNT, format N (R113). -/
  | dncnt (n : Byte)
  /-- BATT, format V (R114). -/
  | batt (v : BitVec 16)
  /-- RSSI, format P (R115). -/
  | rssi (m : Byte)
  /-- SNR, format R (R116). -/
  | snr (n : Byte)
  /-- HEX: the whole buffer (R134). -/
  | hex
  /-- LEN: the input `len` (R135). -/
  | len
  /-- PORT: the input `port` (R136). -/
  | port
  /-- MERGE: the caller's metadata, a finite mapping (R138); asked for by the host, not selected by the status byte. -/
  | merge (md : List (Key × MetaValue))
  deriving DecidableEq, Repr

/-- The fourteen operations the sequencer runs (R122): all of R58 but MERGE. -/
inductive Op where
  | status | temp | lat | lon | qual | lonlat | upcnt | dncnt | batt | rssi | snr | hex | len | port
  deriving DecidableEq, Repr

/-- The groups a fault can name (10_state.md R17, FAULT_GROUP); `noGroup` is NONE, code 7. -/
inductive Group where
  | status | temp | gps | upcnt | dncnt | batt | rssiSnr | noGroup
  deriving DecidableEq, Repr

end Sys2Proof
end

