-- ==== Sys2Proof/Config.lean ====
section
/-!
DEFINITION. What one implementation fixes (PAYLOAD_MAX, PORT_W, DECSTR: 00_scope.md R5 to R7, 10_state.md R23) and the
free values behind the outputs the spec marks `any` (42_coordinate.md R103). All are opaque and without a body: no
proof can see a value of one.
-/

namespace Sys2Proof

/-- How far the buffer's capacity exceeds 17 bytes; an implementation's own number (R5; log 1). -/
opaque Config.payloadExtra : Nat

/-- PAYLOAD_MAX: the capacity of the payload buffer, any natural number from 17 on (R5; log 1). -/
def Config.payloadMax : Nat := Config.payloadExtra + 17

/-- How far the port's width exceeds 1 bit; an implementation's own number (R6; log 2). -/
opaque Config.portExtra : Nat

/-- PORT_W: the width in bits of `port`, any positive number (R6; log 2). -/
def Config.portW : Nat := Config.portExtra + 1

/-- LEN_W: the width of `len`, `cur` and the registers that hold a cursor (10_state.md R11). -/
def Config.lenW : Nat := Nat.clog 2 (Config.payloadMax + 2)

/-- The text an implementation proposes for a rational number; `decstr` keeps it where it meets R7 (log 3). -/
opaque Config.decstrRaw : Rat → Str

/-- The content of `latitude` after LAT with a digit above 9: `any` (R103; log 4). -/
opaque Config.freeLatitude : Nat → Coord → Latitude

/-- The content of `latitude_dm` after LAT with a digit above 9: `any` (R103; log 4). -/
opaque Config.freeLatitudeDm : Nat → Coord → Str

/-- The content of `longitude` after LON with a digit above 9: `any` (R103; log 4). -/
opaque Config.freeLongitude : Nat → Coord → Longitude

/-- The content of `longitude_dm` after LON with a digit above 9: `any` (R103; log 4). -/
opaque Config.freeLongitudeDm : Nat → Coord → Str

/-- The content of `lonlat` when either value is `any` or absent (R101, R103, U13; log 5). -/
opaque Config.freeLonlat : Nat → Option Longitude → Option Latitude → Str

end Sys2Proof
end

