-- ==== Sys2Proof/WellFormed.lean ====
section
/-!
DEFINITION. Which instruction terms are well formed. Every operand of a sequenced operation is well formed by its type
(every byte value has a result, 30_encoding.md R60); MERGE's META must be a mapping: no key twice (45_sequencer_assembler.md R138).
-/

namespace Sys2Proof

/-- No key occurs twice in the list: it stands for a finite mapping (R138). -/
def keysDistinct {α : Type} (m : List (Key × α)) : Bool := decide (m.map Prod.fst).Nodup

/-- The check on one instruction. -/
def Instr.wf : Instr → Bool
  | .merge md => keysDistinct md
  | .status _ | .temp _ _ | .lat _ | .lon _ | .qual _ _ | .lonlat | .upcnt _ | .dncnt _ | .batt _
  | .rssi _ | .snr _ | .hex | .len | .port => true

end Sys2Proof
end

