-- ==== Sys2Proof/Decode.lean ====
section
/-!
DEFINITION. The payload format (30_encoding.md): which operations a status byte selects and in which order (R58, R59,
R122), the read primitive MemRead with its bounds check (20_memory.md R31), the operand formats S, T, C, Q, N, V, P, R
(R51 to R54, R57) in both directions, the layout (R55, R56), and the host's view of one table row.
-/

namespace Sys2Proof

/-! ### Selection and order -/

/-- The fixed order of the sequenced operations (R58's numbering, R122). -/
def Op.order : List Op :=
  [.status, .temp, .lat, .lon, .qual, .lonlat, .upcnt, .dncnt, .batt, .rssi, .snr, .hex, .len, .port]

/-- The operation after this one in the fixed order; after PORT the sequencer stands at STATUS again. -/
def Op.next : Op → Op
  | .status => .temp
  | .temp => .lat
  | .lat => .lon
  | .lon => .qual
  | .qual => .lonlat
  | .lonlat => .upcnt
  | .upcnt => .dncnt
  | .dncnt => .batt
  | .batt => .rssi
  | .rssi => .snr
  | .snr => .hex
  | .hex => .len
  | .len => .port
  | .port => .status

/-- The operations the sequencer still has to consider from a place in the fixed order on. -/
def Op.rest (o : Op) : List Op := Op.order.dropWhile fun p => p != o

/-- The place of an operation in the fixed order (R122). -/
def Op.index : Op → Nat
  | .status => 0
  | .temp => 1
  | .lat => 2
  | .lon => 3
  | .qual => 4
  | .lonlat => 5
  | .upcnt => 6
  | .dncnt => 7
  | .batt => 8
  | .rssi => 9
  | .snr => 10
  | .hex => 11
  | .len => 12
  | .port => 13

/-- The column `mask` of the operation map, which is also the column `match` (R58). -/
def Op.mask : Op → Byte
  | .status | .hex | .len | .port => 0x00
  | .temp => 0x80
  | .lat | .lon | .qual | .lonlat => 0x10
  | .upcnt => 0x08
  | .dncnt => 0x04
  | .batt => 0x02
  | .rssi | .snr => 0x01

/-- An operation runs if and only if `B[0] & m = m` for its mask `m` (R59). -/
def Op.enabled (f : Byte) (o : Op) : Bool := f &&& o.mask == o.mask

/-- The group an operation belongs to (R58); the operations of FINAL belong to none that a fault can name. -/
def Op.group : Op → Group
  | .status => .status
  | .temp => .temp
  | .lat | .lon | .qual | .lonlat => .gps
  | .upcnt => .upcnt
  | .dncnt => .dncnt
  | .batt => .batt
  | .rssi | .snr => .rssiSnr
  | .hex | .len | .port => .noGroup

/-- The bytes the operation's group needs at the cursor: the bounds check covers the whole group (R31, R100, R117).
LONLAT and the operations of FINAL read no operand byte: 0. The check is made at every operation of the group (log 13). -/
def Op.need : Op → Nat
  | .status | .temp | .upcnt | .dncnt => 1
  | .lat | .lon | .qual => 9
  | .batt | .rssi | .snr => 2
  | .lonlat | .hex | .len | .port => 0

/-- The constant offset of the operation's operand from the start of its group (20_memory.md R35, R127). -/
def Op.offset : Op → Nat
  | .lon => 4
  | .qual => 8
  | .snr => 1
  | .status | .temp | .lat | .lonlat | .upcnt | .dncnt | .batt | .rssi | .hex | .len | .port => 0

/-- The column `operand_bytes` of the operation map (R35, R58). HEX reads the buffer itself: 0 here. -/
def Op.size : Op → Nat
  | .status | .temp | .qual | .upcnt | .dncnt | .rssi | .snr => 1
  | .lat | .lon => 4
  | .batt => 2
  | .lonlat | .hex | .len | .port => 0

/-- How far the cursor has moved when the operation is done: a group's width, at its last operation (R11, R100, R117, R122). -/
def Op.advance : Op → Nat
  | .status | .temp | .upcnt | .dncnt => 1
  | .batt | .snr => 2
  | .lonlat => 9
  | .lat | .lon | .qual | .rssi | .hex | .len | .port => 0

/-- Where the operation's group starts: STATUS uses the absolute index 0, every other group the cursor (R127). -/
def Op.base : Op → Nat → Nat
  | .status, _ => 0
  | _, cur => cur

/-! ### Reading bytes -/

/-- `MemRead(addr, n)` on a payload: the `n` bytes from `addr` on, or nothing when `addr + n > len` (R31). -/
def memRead (p : List Byte) (addr n : Nat) : Option (List Byte) :=
  if addr + n ≤ p.length then some ((p.drop addr).take n) else none

/-- Bytes joined big-endian, the byte at the lower index more significant (R31, R32). -/
def bigEndian (bs : List Byte) : Nat := bs.foldl (fun v b => 256 * v + b.toNat) 0

/-- Bits 7:4 of a byte, the nibble that comes first (R32). -/
def hiNibble (b : Byte) : Nibble := b.extractLsb' 4 4

/-- Bits 3:0 of a byte (R32). -/
def loNibble (b : Byte) : Nibble := b.extractLsb' 0 4

/-! ### Operand formats, bytes to fields -/

/-- Format C (R53, R85): the high nibble of each byte first; of the fourth byte bit 0 is `h` and bits 3:1 are ignored. -/
def coordOf (c0 c1 c2 c3 : Byte) : Coord where
  d0 := hiNibble c0
  d1 := loNibble c0
  d2 := hiNibble c1
  d3 := loNibble c1
  d4 := hiNibble c2
  d5 := loNibble c2
  d6 := hiNibble c3
  ignored := c3.extractLsb' 1 3
  h := c3.getLsbD 0

/-- The instruction an operation makes of the bytes of its group, `b k` being the byte at index `k` of the group
(R52 to R54, R57; the offsets are those of R35). -/
def decodeAt (b : Nat → Byte) : Op → Instr
  | .status => .status (b 0)
  | .temp => .temp ((b 0).getLsbD 7) ((b 0).extractLsb' 0 7)
  | .lat => .lat (coordOf (b 0) (b 1) (b 2) (b 3))
  | .lon => .lon (coordOf (b 4) (b 5) (b 6) (b 7))
  | .qual => .qual (hiNibble (b 8)) (loNibble (b 8))
  | .lonlat => .lonlat
  | .upcnt => .upcnt (b 0)
  | .dncnt => .dncnt (b 0)
  | .batt => .batt (BitVec.ofNat 16 (bigEndian [b 0, b 1]))
  | .rssi => .rssi (b 0)
  | .snr => .snr (b 1)
  | .hex => .hex
  | .len => .len
  | .port => .port

/-- Why bytes do not decode: the named group's bytes are not all there; with the index where the group starts (R31, R146). -/
inductive Reject where
  | shortBuffer (g : Group) (start : Nat)
  deriving DecidableEq, Repr

/-- The instruction operation `o` reads from payload `p` with the cursor at `cur`: the group's bounds check, then the
operand's fields (R31, R57, R122). Total on any bytes. -/
def decode (o : Op) (cur : Nat) (p : List Byte) : Except Reject Instr :=
  if o.need = 0 then .ok (decodeAt (fun _ => 0) o)
  else
    match memRead p (o.base cur) o.need with
    | some bs => .ok (decodeAt (fun k => bs.getD k 0) o)
    | none => .error (.shortBuffer o.group (o.base cur))

/-- The instructions of the operations `os` that the flags `f` enable, the cursor moving by each group's width (R122). -/
def decodeOps (p : List Byte) (f : Byte) : Nat → List Op → Except Reject (List Instr)
  | _, [] => .ok []
  | cur, o :: os =>
    if o.enabled f then
      match decode o cur p with
      | .error r => .error r
      | .ok i =>
        match decodeOps p f (cur + o.advance) os with
        | .error r => .error r
        | .ok is => .ok (i :: is)
    else decodeOps p f cur os

/-- A whole payload as the list of the operations it runs, in order, with their operands (R50, R59, R62 listing notation);
or the first group, in step order, whose bytes are missing (R125). -/
def decodePayload (p : List Byte) : Except Reject (List Instr) :=
  decodeOps p (p.getD 0 0) 0 Op.order

/-! ### The layout -/

/-- Bit `i` of a status byte, as a number (00_scope.md section 6). -/
def statusBit (s : Byte) (i : Nat) : Nat := (s.getLsbD i).toNat

/-- The layout length `L(s)` of a status byte (R56). -/
def layoutLength (s : Byte) : Nat :=
  1 + statusBit s 7 + 9 * statusBit s 4 + statusBit s 3 + statusBit s 2 + 2 * statusBit s 1 + 2 * statusBit s 0

/-- Where a group starts when it is present (R55). NONE stands for the end of the layout, `L(s)`. -/
def groupStart (s : Byte) : Group → Nat
  | .status => 0
  | .temp => 1
  | .gps => 1 + statusBit s 7
  | .upcnt => 1 + statusBit s 7 + 9 * statusBit s 4
  | .dncnt => 1 + statusBit s 7 + 9 * statusBit s 4 + statusBit s 3
  | .batt => 1 + statusBit s 7 + 9 * statusBit s 4 + statusBit s 3 + statusBit s 2
  | .rssiSnr => 1 + statusBit s 7 + 9 * statusBit s 4 + statusBit s 3 + statusBit s 2 + 2 * statusBit s 1
  | .noGroup => layoutLength s

/-- A group's width in bytes (R50, R51). -/
def Group.width : Group → Nat
  | .status | .temp | .upcnt | .dncnt => 1
  | .gps => 9
  | .batt | .rssiSnr => 2
  | .noGroup => 0

/-- Whether a status byte announces the group: STATUS always, the others by their flag (R51, R144). -/
def Group.present (s : Byte) : Group → Bool
  | .status => true
  | .temp => s.getLsbD 7
  | .gps => s.getLsbD 4
  | .upcnt => s.getLsbD 3
  | .dncnt => s.getLsbD 2
  | .batt => s.getLsbD 1
  | .rssiSnr => s.getLsbD 0
  | .noGroup => false

/-! ### Fields to bytes -/

/-- The four bytes of a coordinate operand (R53). -/
def Coord.bytes (c : Coord) : List Byte :=
  [c.d0 ++ c.d1, c.d2 ++ c.d3, c.d4 ++ c.d5, c.d6 ++ (c.ignored ++ BitVec.ofBool c.h)]

/-- The operand bytes of an instruction as they stand in a payload (R51 to R54). The operations without a payload operand,
MERGE among them, have none. -/
def encode : Instr → List Byte
  | .status s => [s]
  | .temp sg mag => [BitVec.ofBool sg ++ mag]
  | .lat c => c.bytes
  | .lon c => c.bytes
  | .qual tier sat => [tier ++ sat]
  | .upcnt n => [n]
  | .dncnt n => [n]
  | .batt v => [v.extractLsb' 8 8, v.extractLsb' 0 8]
  | .rssi m => [m]
  | .snr n => [n]
  | .lonlat | .hex | .len | .port | .merge _ => []

/-- The payload of a listing: the operands one after another, with no gap (R50). -/
def encodePayload (l : List Instr) : List Byte := l.flatMap encode

/-- The sequenced operation an instruction belongs to; MERGE is none of them. -/
def Instr.op : Instr → Option Op
  | .status _ => some .status
  | .temp _ _ => some .temp
  | .lat _ => some .lat
  | .lon _ => some .lon
  | .qual _ _ => some .qual
  | .lonlat => some .lonlat
  | .upcnt _ => some .upcnt
  | .dncnt _ => some .dncnt
  | .batt _ => some .batt
  | .rssi _ => some .rssi
  | .snr _ => some .snr
  | .hex => some .hex
  | .len => some .len
  | .port => some .port
  | .merge _ => none

/-- A listing is well formed when it starts with STATUS and goes on with exactly the operations the status byte selects,
in the fixed order (R58, R59, R62). -/
def listingWf : List Instr → Bool
  | .status s :: rest => rest.map Instr.op == (Op.order.tail.filter (Op.enabled s)).map some
  | _ => false

/-! ### One table row, as the host asks for it -/

/-- The first `17` bytes of a word numbered as spec/opcode_table.json numbers bits (bit 0 is the least significant bit of
the first byte); every bit from `nbits` on is 0. -/
def tableBytes (nbits w : Nat) : List Byte :=
  (List.range 17).map fun k => BitVec.ofNat 8 ((w % 2 ^ nbits) >>> (8 * k))

/-- The operation a status byte is read as when it is asked for as ONE instruction: the first one, after STATUS, that one
of its bits selects; STATUS when none is (DESIGN CHOICE, log 12). -/
def tableOp (s : Byte) : Op :=
  (Op.order.find? fun o => o.mask != 0 && o.enabled s).getD .status

/-- The cursor at which the decoder reads the operand of `tableOp`: nothing but STATUS comes before it. -/
def tableCursor (s : Byte) : Nat := if tableOp s = .status then 0 else 1

/-- The instruction the decoder reads from an instruction whose bits are `w` (log 12). -/
def decodeTableWord (nbits w : Nat) : Option Instr :=
  if nbits < 8 then none
  else
    let p := tableBytes nbits w
    match decode (tableOp (p.getD 0 0)) (tableCursor (p.getD 0 0)) p with
    | .ok i => some i
    | .error _ => none

end Sys2Proof
end

