-- ==== Sys2Proof/Machine/State.lean ====
section
/-!
DEFINITION. The state of the decoder (10_state.md) as plain data: the cursor, the flags, the 26 result registers with
their presence bits, the interface registers, the host's inputs, and the model's own bookkeeping fields; the reasons a
step can stop; the state after reset (R20).
-/

namespace Sys2Proof.Machine

/-- The register STATE (R17). -/
inductive Phase where
  | idle
  | busy
  | done
  | fault
  deriving DecidableEq, Repr

/-- The register FAULT (R17, R142). `lookupError` is reserved and never produced (R145). -/
inductive FaultCode where
  | none
  | inputError
  | shortBuffer
  | lookupError
  deriving DecidableEq, Repr

/-- The payload buffer: (index, byte) pairs, indices strictly rising, no pair holding what an unlisted index reads as. -/
abbrev Memory := List Host.Cell

/-- The 26 result registers (R13), each with its presence bit: `none` is presence 0, "no value" (R16; log 14). -/
structure Results where
  rssiSnrReported : Option Bool
  batteryLevelReported : Option Bool
  downlinkCounterReported : Option Bool
  uplinkCounterReported : Option Bool
  gpsReported : Option Bool
  triggeredByPushbutton : Option Bool
  triggeredByAccelerometer : Option Bool
  temperatureReported : Option Bool
  temperature : Option (BitVec 8)
  latitude : Option Latitude
  latitudeDm : Option Str
  latitudeHemisphere : Option LatHemisphere
  longitude : Option Longitude
  longitudeDm : Option Str
  longitudeHemisphere : Option LonHemisphere
  lonlat : Option Str
  satellites : Option Nibble
  reception : Option Reception
  uplinkCounter : Option Byte
  downlinkCounter : Option Byte
  batteryLevel : Option (BitVec 16)
  rssi : Option (BitVec 9)
  snr : Option Byte
  hex : Option Str
  length : Option Nat
  port : Option Nat
  deriving DecidableEq, Repr

/-- Every presence bit cleared (R16, R21, R150). -/
def Results.empty : Results where
  rssiSnrReported := none
  batteryLevelReported := none
  downlinkCounterReported := none
  uplinkCounterReported := none
  gpsReported := none
  triggeredByPushbutton := none
  triggeredByAccelerometer := none
  temperatureReported := none
  temperature := none
  latitude := none
  latitudeDm := none
  latitudeHemisphere := none
  longitude := none
  longitudeDm := none
  longitudeHemisphere := none
  lonlat := none
  satellites := none
  reception := none
  uplinkCounter := none
  downlinkCounter := none
  batteryLevel := none
  rssi := none
  snr := none
  hex := none
  length := none
  port := none

/-- The names of the result registers (R12, R13). -/
inductive Reg where
  | rssiSnrReported | batteryLevelReported | downlinkCounterReported | uplinkCounterReported
  | gpsReported | triggeredByPushbutton | triggeredByAccelerometer | temperatureReported
  | temperature
  | latitude | latitudeDm | latitudeHemisphere | longitude | longitudeDm | longitudeHemisphere
  | lonlat | satellites | reception
  | uplinkCounter | downlinkCounter | batteryLevel | rssi | snr
  | hex | length | port
  deriving DecidableEq, Repr

/-- A result register's value as the mapping view gives it (R24): flags are booleans, enumerations and strings are text,
`latitude` and `longitude` are rational numbers, every other register is a number. -/
inductive Value where
  | flag (b : Bool)
  | num (n : Int)
  | rat (q : Rat)
  | text (s : Str)
  deriving DecidableEq, Repr

/-- A value of the merged mapping: a decoded one, or one of the caller's (R138). -/
inductive Merged where
  | decoded (v : Value)
  | caller (v : MetaValue)
  deriving DecidableEq, Repr

/-- What the host can do to the block (70_reset_and_hazards.md R176). -/
inductive HostRequest where
  /-- Place bytes in the buffer, the first at index 0 (R170). -/
  | place (bytes : List Byte)
  /-- Set the input `len` (R170). -/
  | setLen (n : Nat)
  /-- Set the input `port` (R170); a number wider than PORT_W is refused (R143, U4). -/
  | setPort (p : Nat)
  /-- START (R17, R122 step 0). -/
  | start
  /-- Wait or poll: nothing but the block's own next step happens (R176). -/
  | wait
  /-- Ask for MERGE with the given metadata (R138). -/
  | merge (md : List (Key × MetaValue))
  /-- Assert reset, at any time (R166, R168). -/
  | reset
  deriving DecidableEq, Repr

/-- Why the machine stops. The spec's own faults are no stops: they are next states with STATE = FAULT (R150). -/
inductive Fault where
  /-- Raised by MERGE while no decode has ended (STATE is IDLE or BUSY): R138 defines it only for a decode that reached
  DONE. Safe: the model stops where the spec gives nothing (log 10). -/
  | mergeWithoutDecode
  deriving DecidableEq, Repr

/-- Why the machine refuses: an instruction without a meaning, or an input the block's ports cannot carry. -/
inductive Refusal where
  /-- Raised by `exec` for an instruction that is not modelled; no arm does so. Safe. -/
  | notModelled (mnemonic : String)
  /-- Raised by the step that takes a `setPort` whose number has more than PORT_W bits, an input the port cannot carry: the
  spec refuses it at the model's boundary, with no transition (R143, 93_implementation_defined.md U4; log 2). Safe. -/
  | portTooWide
  deriving DecidableEq, Repr

/-- The whole state. The first group of fields is the block's (10_state.md), the second the host's input side (R17,
R176), the third the model's own. -/
structure State where
  /-- STATE. -/
  phase : Phase
  /-- FAULT. -/
  fault : FaultCode
  /-- FAULT_GROUP. -/
  faultGroup : Group
  /-- FAULT_CUR. -/
  faultCur : Nat
  /-- CUR. -/
  curOut : Nat
  /-- `cur`, the index of the next unread payload byte. -/
  cur : Nat
  /-- F[7:0]. -/
  flags : Byte
  /-- The result registers with their presence bits. -/
  res : Results
  /-- The payload buffer. -/
  payload : Memory
  /-- The input `len`. -/
  len : Nat
  /-- The input `port`. -/
  port : Nat
  /-- The host's pending actions, oldest first. -/
  requests : List HostRequest
  /-- The operation the sequencer considers next (log 8). -/
  seq : Op
  /-- The value last written to `latitude` is one the spec leaves open (log 5). -/
  latOpen : Bool
  /-- The value last written to `longitude` is one the spec leaves open (log 5). -/
  lonOpen : Bool
  /-- How many free values have been drawn (log 4). -/
  draws : Nat
  /-- The mapping the last MERGE yielded (R138 OUT; log 10). -/
  out : Option (List (Key × Merged))
  deriving DecidableEq, Repr

/-- The machine right after reset (R20, R166): IDLE, no fault, every presence bit 0. The values R20 leaves unspecified
are 0, and the host has placed nothing and asked for nothing yet (DESIGN CHOICE, log 7). -/
def State.reset : State where
  phase := .idle
  fault := .none
  faultGroup := .status
  faultCur := 0
  curOut := 0
  cur := 0
  flags := 0
  res := .empty
  payload := []
  len := 0
  port := 0
  requests := []
  seq := .status
  latOpen := false
  lonOpen := false
  draws := 0
  out := none

end Sys2Proof.Machine
end

