-- ==== Sys2Proof/Machine/Ops.lean ====
section
/-!
DEFINITION. The named operations over the state: the payload buffer, the cursor, the free-value counter, taking a fault
(R150), starting a decode (R21, R122 step 0), reset (R166, R168) and the end of a decode (R122 step 8).
-/

namespace Sys2Proof.Machine

/-! ### The payload buffer (20_memory.md) -/

/-- What an index the host has not written reads as. DESIGN CHOICE (log 6). -/
def Memory.blank : Byte := 0

/-- The byte at an index (R30). -/
def Memory.get : Memory → Nat → Byte
  | [], _ => Memory.blank
  | (a', b) :: m, a => if a = a' then b else Memory.get m a

/-- The canonical form: indices strictly rising, no pair that holds `blank`. -/
def Memory.wf (m : Memory) : Bool :=
  decide (m.Pairwise fun x y => x.1 < y.1) && m.all fun c => c.2 != Memory.blank

/-- Put one byte, keeping the canonical form. Only the host writes the buffer (R34). -/
def Memory.set : Memory → Nat → Byte → Memory
  | [], a, b => if b = Memory.blank then [] else [(a, b)]
  | (a', b') :: m, a, b =>
    if a < a' then (if b = Memory.blank then (a', b') :: m else (a, b) :: (a', b') :: m)
    else if a = a' then (if b = Memory.blank then m else (a, b) :: m)
    else (a', b') :: Memory.set m a b

/-- Put bytes at the indices from `i` on. -/
def Memory.setBytes : Memory → Nat → List Byte → Memory
  | m, _, [] => m
  | m, i, b :: bs => Memory.setBytes (Memory.set m i b) (i + 1) bs

/-- `B[i]` (R30). -/
def State.byteAt (s : State) (i : Nat) : Byte := s.payload.get i

/-- The payload as the decoder sees it: `B[0] .. B[len-1]` (R18, R30). -/
def State.bytes (s : State) : List Byte := (List.range s.len).map s.byteAt

/-! ### The host's inputs (R170, R176) -/

/-- The host places bytes from index 0 on. The buffer holds PAYLOAD_MAX of them; what lies beyond does not land (log 24). -/
def State.placeBytes (s : State) (bs : List Byte) : State :=
  { s with payload := s.payload.setBytes 0 (bs.take Config.payloadMax) }

/-- Whether `port`, an input of PORT_W bits, can carry the number (R6, R17). -/
def fitsPort (p : Nat) : Bool := decide (p < 2 ^ Config.portW)

/-! ### Cursor and free values -/

/-- `cur <- cur + n` (R11). -/
def State.moveCursor (s : State) (n : Nat) : State := { s with cur := s.cur + n }

/-- Count one drawn free value, where one was drawn (log 4). -/
def State.countDraw (s : State) (drawn : Bool) : State := { s with draws := s.draws + drawn.toNat }

/-! ### Taking a fault, and leaving it -/

/-- The code numbers of FAULT (R142). -/
def FaultCode.code : FaultCode → BitVec 2
  | .none => 0
  | .inputError => 1
  | .shortBuffer => 2
  | .lookupError => 3

/-- The code numbers of STATE (R17). -/
def Phase.code : Phase → BitVec 2
  | .idle => 0
  | .busy => 1
  | .done => 2
  | .fault => 3

/-- The code numbers of FAULT_GROUP (R17, R146). -/
def groupCode : Group → BitVec 3
  | .status => 0
  | .temp => 1
  | .gps => 2
  | .upcnt => 3
  | .dncnt => 4
  | .batt => 5
  | .rssiSnr => 6
  | .noGroup => 7

/-- `raise E(G, c)` (R150): STATE, FAULT, FAULT_GROUP and FAULT_CUR are written and every presence bit is cleared. Nothing is
saved and nothing is resumed; the block waits in FAULT for the next START or reset (R151). -/
def State.raise (s : State) (e : FaultCode) (g : Group) (c : Nat) : State :=
  { s with phase := .fault, fault := e, faultGroup := g, faultCur := c, res := .empty, seq := .status }

/-- START (R21, R122 step 0, R143): presence bits and FAULT are cleared and the cursor set to 0 before anything else; a
`len` above PAYLOAD_MAX raises InputError before any byte is read; otherwise the block is BUSY. There is no return from a
fault: this is how FAULT is left (R151). -/
def State.startDecode (s : State) : State :=
  let s := { s with phase := .busy, fault := .none, cur := 0, res := .empty, seq := .status,
                    latOpen := false, lonOpen := false, out := none }
  if Config.payloadMax < s.len then s.raise .inputError .noGroup 0 else s

/-- Reset of a running block (R166, R168): the state after it is the state after reset; the host's inputs and pending
actions are not touched, and the count of free values goes on (log 16). -/
def State.resetBlock (s : State) : State :=
  { State.reset with payload := s.payload, len := s.len, port := s.port, requests := s.requests, draws := s.draws }

/-- The end of a decode: `CUR <- cur; STATE <- DONE` (R122 step 8). -/
def State.finish (s : State) : State := { s with phase := .done, curOut := s.cur, seq := .status }

end Sys2Proof.Machine
end

