-- ==== Sys2Proof/Machine/Decstr.lean ====
section
/-!
DEFINITION. The parameter DECSTR (00_scope.md R7): any total function from rational numbers to decimal numerals within
0.0001 of their argument. An implementation's own text is kept where it meets R7; where it does not, four decimals stand
in, so that every function R7 allows is one choice of `Config.decstrRaw`, and no other function is (log 3).
-/

namespace Sys2Proof.Machine

/-- The digit a character stands for, `0` = 0x30 to `9` = 0x39 (R8). -/
def digitOfChar (c : Char8) : Option Nat :=
  if 0x30 ≤ c.toNat ∧ c.toNat ≤ 0x39 then some (c.toNat - 0x30) else none

/-- The longest run of digits a string starts with, and the rest. -/
def takeDigits : Str → List Nat × Str
  | [] => ([], [])
  | c :: cs =>
    match digitOfChar c with
    | some d => (d :: (takeDigits cs).1, (takeDigits cs).2)
    | none => ([], c :: cs)

/-- `dec_k(c1..ck)`: the number whose decimal digits these are, the first most significant (00_scope.md section 6). -/
def natOfDigits (ds : List Nat) : Nat := ds.foldl (fun n d => 10 * n + d) 0

/-- The value of decimal digits, optionally followed by `.` (0x2E) and decimal digits. -/
def unsignedNumeral (s : Str) : Option Rat :=
  match takeDigits s with
  | ([], _) => none
  | (ds, []) => some (natOfDigits ds : Rat)
  | (ds, c :: rest) =>
    if c = 0x2E then
      match takeDigits rest with
      | ([], _) => none
      | (fs, []) => some ((natOfDigits (ds ++ fs) : Rat) / (10 : Rat) ^ fs.length)
      | (_, _ :: _) => none
    else none

/-- The value of a decimal numeral: an optional leading `-` (0x2D), then an unsigned one (R7). No numeral holds a `,`. -/
def numeralValue : Str → Option Rat
  | [] => none
  | c :: cs => if c = 0x2D then (unsignedNumeral cs).map (fun v => -v) else unsignedNumeral (c :: cs)

/-- R7 (b) for one text: it is a decimal numeral whose value differs from `q` by at most 0.0001. -/
def decstrOk (q : Rat) (s : Str) : Bool :=
  match numeralValue s with
  | some v => decide (v - q ≤ 1 / 10000 ∧ q - v ≤ 1 / 10000)
  | none => false

/-- The decimal digits of a number, most significant first, for any `fuel` above the number. -/
def decDigits : Nat → Nat → List Nat
  | 0, n => [n % 10]
  | fuel + 1, n => if n < 10 then [n] else decDigits fuel (n / 10) ++ [n % 10]

/-- The character of a digit, `dig(n)` (00_scope.md section 6). -/
def dig (n : Nat) : Char8 := BitVec.ofNat 8 (0x30 + n)

/-- A rendering that meets R7: the sign, the whole part, `.`, and four decimals, cut off. -/
def fourDecimals (q : Rat) : Str :=
  let n := (|q| * 10000).floor.toNat
  (if q < 0 then [0x2D] else [])
    ++ (decDigits (n / 10000 + 1) (n / 10000)).map dig ++ [0x2E]
    ++ [dig (n / 1000 % 10), dig (n / 100 % 10), dig (n / 10 % 10), dig (n % 10)]

/-- DECSTR (R7). -/
def decstr (q : Rat) : Str :=
  if decstrOk q (Config.decstrRaw q) then Config.decstrRaw q else fourDecimals q

end Sys2Proof.Machine
end

