-- ==== Sys2Proof/Machine/Operands.lean ====
section
/-!
DEFINITION. What each operand's fields mean (30_encoding.md R57): the temperature formula, the coordinate digits with
their values, strings and hemispheres, the reception tiers, the negated RSSI byte, the hex digits. Arithmetic is on
integers and rationals and is narrowed at the end; every result fits its register (44_scalars.md R120).
-/

namespace Sys2Proof.Machine

/-! ### TEMP (41_temperature.md) -/

/-- `mag` if `sg = 0`, `mag - 128` if `sg = 1` (R52, R80). -/
def temperatureValue (sg : Bool) (mag : BitVec 7) : Int :=
  if sg then (mag.toNat : Int) - 128 else (mag.toNat : Int)

/-! ### Coordinates (42_coordinate.md) -/

/-- The seven digits in order (R85). -/
def digits (c : Coord) : List Nat :=
  [c.d0.toNat, c.d1.toNat, c.d2.toNat, c.d3.toNat, c.d4.toNat, c.d5.toNat, c.d6.toNat]

/-- Every digit is at most 9 (R86, R103). -/
def validDigits (c : Coord) : Bool := (digits c).all fun d => decide (d ≤ 9)

/-- The eight-digit string: the seven digits, then `0` (R86). -/
def digitString (c : Coord) : Str := (digits c).map dig ++ [dig 0]

/-- The first `k` characters of the digit string are degrees, the rest minutes (R88). -/
def degreeDigits (k : Nat) (c : Coord) : List Nat := (digits c).take k

/-- The transmitted minute digits, after `k` degree digits (R88). -/
def minuteDigits (k : Nat) (c : Coord) : List Nat := (digits c).drop k

/-- The content of `latitude` for valid digits: 2 degree digits, 5 minute digits (R90, R14). -/
def latitudeOf (c : Coord) : Latitude where
  neg := c.h
  deg := BitVec.ofNat 7 (natOfDigits (degreeDigits 2 c))
  m5 := BitVec.ofNat 17 (natOfDigits (minuteDigits 2 c))

/-- The content of `longitude` for valid digits: 3 degree digits, 4 minute digits (R95, R14). -/
def longitudeOf (c : Coord) : Longitude where
  neg := c.h
  deg := BitVec.ofNat 10 (natOfDigits (degreeDigits 3 c))
  m4 := BitVec.ofNat 14 (natOfDigits (minuteDigits 3 c))

/-- The sign multiplier (R87). -/
def signOf (neg : Bool) : Rat := if neg then -1 else 1

/-- The rational number `latitude` holds: `sgn * (deg + m5 / 60000)` (R14, R90). -/
def latitudeValue (l : Latitude) : Rat := signOf l.neg * ((l.deg.toNat : Rat) + (l.m5.toNat : Rat) / 60000)

/-- The rational number `longitude` holds: `sgn * (deg + m4 / 6000)` (R14, R95). -/
def longitudeValue (l : Longitude) : Rat := signOf l.neg * ((l.deg.toNat : Rat) + (l.m4.toNat : Rat) / 6000)

/-- A degrees-minutes string: the digit string split after `k` degree digits, `°` (0xB0), two minute digits, `,` (0x2C),
the decimals, and the hemisphere's letter (R88, R93, R98). -/
def dmString (k : Nat) (letter : Char8) (c : Coord) : Str :=
  (digitString c).take k ++ [0xB0] ++ ((digitString c).drop k).take 2 ++ [0x2C]
    ++ (digitString c).drop (k + 2) ++ [letter]

/-- South for `h = 1`, North for `h = 0` (R87). -/
def latHemisphere (h : Bool) : LatHemisphere := if h then .south else .north

/-- West for `h = 1`, East for `h = 0` (R87). -/
def lonHemisphere (h : Bool) : LonHemisphere := if h then .west else .east

/-- The characters of a name spelled in ASCII (R8). -/
def ascii (s : String) : Str := s.toList.map fun c => BitVec.ofNat 8 c.toNat

/-- The full hemisphere names (R94). -/
def latHemisphereText : LatHemisphere → Str
  | .north => ascii "North"
  | .south => ascii "South"

/-- The full hemisphere names (R99). -/
def lonHemisphereText : LonHemisphere → Str
  | .east => ascii "East"
  | .west => ascii "West"

/-- The letter that ends `latitude_dm` (R87, R93). -/
def latLetter (h : Bool) : Char8 := if h then 0x53 else 0x4E

/-- The letter that ends `longitude_dm` (R87, R98). -/
def lonLetter (h : Bool) : Char8 := if h then 0x57 else 0x45

/-! ### QUAL (43_quality.md) -/

/-- `RECEPTION(tier)`: Good for 1, Average for 2, Poor for every other tier (R106). -/
def receptionOf (tier : Nibble) : Reception :=
  match tier.toNat with
  | 1 => .good
  | 2 => .average
  | _ => .poor

/-- The three texts (R106). -/
def receptionText : Reception → Str
  | .good => ascii "Good"
  | .average => ascii "Average"
  | .poor => ascii "Poor"

/-- The code numbers of `reception` (R14). -/
def receptionCode : Reception → BitVec 2
  | .good => 0
  | .average => 1
  | .poor => 2

/-- The code numbers of `latitude_hemisphere` (R14). -/
def latHemisphereCode : LatHemisphere → BitVec 1
  | .north => 0
  | .south => 1

/-- The code numbers of `longitude_hemisphere` (R14). -/
def lonHemisphereCode : LonHemisphere → BitVec 1
  | .east => 0
  | .west => 1

/-! ### RSSI (44_scalars.md) -/

/-- `-m` on the unsigned byte (R115). -/
def rssiValue (m : Byte) : Int := -(m.toNat : Int)

/-! ### HEX (45_sequencer_assembler.md) -/

/-- `hexdig(n)`: `0`..`9`, then lower-case `a`..`f` (00_scope.md section 6). -/
def hexdig (n : Nibble) : Char8 := BitVec.ofNat 8 (if n.toNat ≤ 9 then 0x30 + n.toNat else 0x61 + n.toNat - 10)

/-- Two hex digits for each byte, high nibble first, nothing between (R134). -/
def hexString (p : List Byte) : Str := p.flatMap fun b => [hexdig (hiNibble b), hexdig (loNibble b)]

end Sys2Proof.Machine
end

