-- ==== Sys2Proof/Machine/Result.lean ====
section
/-!
DEFINITION. Reading the result registers: one register's value (10_state.md R24), its key (R12, R13), the mapping RES
(R24), the host's reads with their validity (R21, R175), what the host can observe of the block (R126), and the overlay
of MERGE (45_sequencer_assembler.md R138).
-/

namespace Sys2Proof.Machine

/-- Every result register, in the order of R12 and R13. -/
def Reg.all : List Reg :=
  [.rssiSnrReported, .batteryLevelReported, .downlinkCounterReported, .uplinkCounterReported,
   .gpsReported, .triggeredByPushbutton, .triggeredByAccelerometer, .temperatureReported,
   .temperature,
   .latitude, .latitudeDm, .latitudeHemisphere, .longitude, .longitudeDm, .longitudeHemisphere,
   .lonlat, .satellites, .reception,
   .uplinkCounter, .downlinkCounter, .batteryLevel, .rssi, .snr,
   .hex, .length, .port]

/-- The register's result key (R12, R13). -/
def Reg.key : Reg → Key
  | .rssiSnrReported => ascii "rssi_snr_reported"
  | .batteryLevelReported => ascii "battery_level_reported"
  | .downlinkCounterReported => ascii "downlink_counter_reported"
  | .uplinkCounterReported => ascii "uplink_counter_reported"
  | .gpsReported => ascii "gps_reported"
  | .triggeredByPushbutton => ascii "triggered_by_pushbutton"
  | .triggeredByAccelerometer => ascii "triggered_by_accelerometer"
  | .temperatureReported => ascii "temperature_reported"
  | .temperature => ascii "temperature"
  | .latitude => ascii "latitude"
  | .latitudeDm => ascii "latitude_dm"
  | .latitudeHemisphere => ascii "latitude_hemisphere"
  | .longitude => ascii "longitude"
  | .longitudeDm => ascii "longitude_dm"
  | .longitudeHemisphere => ascii "longitude_hemisphere"
  | .lonlat => ascii "lonlat"
  | .satellites => ascii "satellites"
  | .reception => ascii "reception"
  | .uplinkCounter => ascii "uplink_counter"
  | .downlinkCounter => ascii "downlink_counter"
  | .batteryLevel => ascii "battery_level"
  | .rssi => ascii "rssi"
  | .snr => ascii "snr"
  | .hex => ascii "hex"
  | .length => ascii "length"
  | .port => ascii "port"

/-- The one operation that writes the register (R13). -/
def Reg.writer : Reg → Op
  | .rssiSnrReported | .batteryLevelReported | .downlinkCounterReported | .uplinkCounterReported
  | .gpsReported | .triggeredByPushbutton | .triggeredByAccelerometer | .temperatureReported => .status
  | .temperature => .temp
  | .latitude | .latitudeDm | .latitudeHemisphere => .lat
  | .longitude | .longitudeDm | .longitudeHemisphere => .lon
  | .lonlat => .lonlat
  | .satellites | .reception => .qual
  | .uplinkCounter => .upcnt
  | .downlinkCounter => .dncnt
  | .batteryLevel => .batt
  | .rssi => .rssi
  | .snr => .snr
  | .hex => .hex
  | .length => .len
  | .port => .port

/-- The register's value, `none` where its presence bit is 0 (R16, R24). -/
def Results.get (r : Results) : Reg → Option Value
  | .rssiSnrReported => r.rssiSnrReported.map .flag
  | .batteryLevelReported => r.batteryLevelReported.map .flag
  | .downlinkCounterReported => r.downlinkCounterReported.map .flag
  | .uplinkCounterReported => r.uplinkCounterReported.map .flag
  | .gpsReported => r.gpsReported.map .flag
  | .triggeredByPushbutton => r.triggeredByPushbutton.map .flag
  | .triggeredByAccelerometer => r.triggeredByAccelerometer.map .flag
  | .temperatureReported => r.temperatureReported.map .flag
  | .temperature => r.temperature.map fun v => .num v.toInt
  | .latitude => r.latitude.map fun v => .rat (latitudeValue v)
  | .latitudeDm => r.latitudeDm.map .text
  | .latitudeHemisphere => r.latitudeHemisphere.map fun h => .text (latHemisphereText h)
  | .longitude => r.longitude.map fun v => .rat (longitudeValue v)
  | .longitudeDm => r.longitudeDm.map .text
  | .longitudeHemisphere => r.longitudeHemisphere.map fun h => .text (lonHemisphereText h)
  | .lonlat => r.lonlat.map .text
  | .satellites => r.satellites.map fun v => .num v.toNat
  | .reception => r.reception.map fun v => .text (receptionText v)
  | .uplinkCounter => r.uplinkCounter.map fun v => .num v.toNat
  | .downlinkCounter => r.downlinkCounter.map fun v => .num v.toNat
  | .batteryLevel => r.batteryLevel.map fun v => .num v.toNat
  | .rssi => r.rssi.map fun v => .num v.toInt
  | .snr => r.snr.map fun v => .num v.toNat
  | .hex => r.hex.map .text
  | .length => r.length.map fun v => .num v
  | .port => r.port.map fun v => .num v

/-- The presence bit of a register (R16). -/
def Results.pres (r : Results) (g : Reg) : Bool := (r.get g).isSome

/-- RES: the keys with presence 1 and their values (R24). -/
def Results.mapping (r : Results) : List (Key × Value) :=
  Reg.all.filterMap fun g => (r.get g).map fun v => (g.key, v)

/-! ### The host's reads (R175) -/

/-- What the host reads of a result register: a value only in DONE and only with presence 1 (R21, R175; log 15). -/
def State.hostRead (s : State) (g : Reg) : Option Value :=
  if s.phase = .done then s.res.get g else none

/-- The fault registers, valid only in FAULT (R17, R175; log 15). -/
def State.hostReadFault (s : State) : Option (FaultCode × Group × Nat) :=
  if s.phase = .fault then some (s.fault, s.faultGroup, s.faultCur) else none

/-- CUR, valid only in DONE (R17; log 15). -/
def State.hostReadCur (s : State) : Option Nat := if s.phase = .done then some s.curOut else none

/-- All the host can observe of the block: its phase, and the registers that are valid in it (R17, R21, R126). -/
inductive Observation where
  | idle
  | busy
  | done (res : Results) (cur : Nat)
  | fault (code : FaultCode) (group : Group) (cur : Nat)
  deriving DecidableEq, Repr

/-- What the host observes of a state. -/
def State.observe (s : State) : Observation :=
  match s.phase with
  | .idle => .idle
  | .busy => .busy
  | .done => .done s.res s.curOut
  | .fault => .fault s.fault s.faultGroup s.faultCur

/-! ### The overlay (R138) -/

/-- The value a mapping gives a key; keys are equal when they are the same string (R138). -/
def lookupKey {α : Type} (k : Key) : List (Key × α) → Option α
  | [] => none
  | (k', v) :: m => if k = k' then some v else lookupKey k m

/-- MERGE's OUT: `top` on its own keys, `base` elsewhere; shallow, a value is taken whole (R138). -/
def overlay {α : Type} (base top : List (Key × α)) : List (Key × α) :=
  (base.map fun e => (e.1, (lookupKey e.1 top).getD e.2))
    ++ top.filter fun e => (lookupKey e.1 base).isNone

/-- RES as values of the merged mapping. -/
def decodedEntries (m : List (Key × Value)) : List (Key × Merged) := m.map fun e => (e.1, .decoded e.2)

/-- META as values of the merged mapping. -/
def callerEntries (m : List (Key × MetaValue)) : List (Key × Merged) := m.map fun e => (e.1, .caller e.2)

end Sys2Proof.Machine
end

