-- ==== Sys2Proof/Machine/Assembler.lean ====
section
/-!
DEFINITION. HEX, LEN, PORT and MERGE (45_sequencer_assembler.md).
-/

namespace Sys2Proof.Machine

/-- HEX: the whole input as a hex string (R134). -/
def execHex (s : State) : Host.Outcome State Fault Refusal :=
  .next { s with res := { s.res with hex := some (hexString s.bytes) } }

/-- LEN: the number of bytes of the input as supplied (R135). -/
def execLen (s : State) : Host.Outcome State Fault Refusal :=
  .next { s with res := { s.res with length := some s.len } }

/-- PORT: the caller's port, copied (R136). -/
def execPort (s : State) : Host.Outcome State Fault Refusal :=
  .next { s with res := { s.res with port := some s.port } }

/-- MERGE (R138): after DONE it yields the overlay of META on RES and changes no register. After a faulted decode there is
no RES and the fault stays the answer (R140). Before any decode has ended it is not defined (log 10). -/
def execMerge (md : List (Key × MetaValue)) (s : State) : Host.Outcome State Fault Refusal :=
  match s.phase with
  | .done => .next { s with out := some (overlay (decodedEntries s.res.mapping) (callerEntries md)) }
  | .fault => .next { s with out := none }
  | .idle => .fault .mergeWithoutDecode
  | .busy => .fault .mergeWithoutDecode

end Sys2Proof.Machine
end

