-- ==== Sys2Proof/Machine/Coordinate.lean ====
section
/-!
DEFINITION. LAT, LON and LONLAT (42_coordinate.md). A digit above 9 stops nothing: the value and the string of that axis,
and `lonlat`, are then free values (R103; log 4, 5). The cursor moves at the end of the GPS group (R100, `Sequencer`).
-/

namespace Sys2Proof.Machine

/-- What LAT writes to `latitude`, the `n`-th free value standing for `any` (R90, R103). -/
def latitudeResult (n : Nat) (c : Coord) : Latitude :=
  if validDigits c then latitudeOf c else Config.freeLatitude n c

/-- What LAT writes to `latitude_dm` (R90, R93, R103). -/
def latitudeDmResult (n : Nat) (c : Coord) : Str :=
  if validDigits c then dmString 2 (latLetter c.h) c else Config.freeLatitudeDm n c

/-- What LON writes to `longitude` (R95, R103). -/
def longitudeResult (n : Nat) (c : Coord) : Longitude :=
  if validDigits c then longitudeOf c else Config.freeLongitude n c

/-- What LON writes to `longitude_dm` (R95, R98, R103). -/
def longitudeDmResult (n : Nat) (c : Coord) : Str :=
  if validDigits c then dmString 3 (lonLetter c.h) c else Config.freeLongitudeDm n c

/-- Whether `lonlat` is `any`: a value it reads is `any`, or absent (R101, R103, U13). -/
def lonlatOpen (lonOpen latOpen : Bool) (lon : Option Longitude) (lat : Option Latitude) : Bool :=
  lonOpen || latOpen || lon.isNone || lat.isNone

/-- What LONLAT writes: the longitude's numeral, one comma (0x2C), the latitude's (R101). -/
def lonlatResult (n : Nat) (lonOpen latOpen : Bool) (lon : Option Longitude) (lat : Option Latitude) : Str :=
  match lonOpen || latOpen, lon, lat with
  | false, some lo, some la => decstr (longitudeValue lo) ++ [0x2C] ++ decstr (latitudeValue la)
  | _, _, _ => Config.freeLonlat n lon lat

/-- LAT (R90). -/
def execLat (c : Coord) (s : State) : Host.Outcome State Fault Refusal :=
  .next (State.countDraw
    { s with
      res := { s.res with
        latitude := some (latitudeResult s.draws c)
        latitudeDm := some (latitudeDmResult s.draws c)
        latitudeHemisphere := some (latHemisphere c.h) }
      latOpen := !validDigits c } (!validDigits c))

/-- LON (R95). -/
def execLon (c : Coord) (s : State) : Host.Outcome State Fault Refusal :=
  .next (State.countDraw
    { s with
      res := { s.res with
        longitude := some (longitudeResult s.draws c)
        longitudeDm := some (longitudeDmResult s.draws c)
        longitudeHemisphere := some (lonHemisphere c.h) }
      lonOpen := !validDigits c } (!validDigits c))

/-- LONLAT (R101). -/
def execLonlat (s : State) : Host.Outcome State Fault Refusal :=
  .next (State.countDraw
    { s with res := { s.res with
        lonlat := some (lonlatResult s.draws s.lonOpen s.latOpen s.res.longitude s.res.latitude) } }
    (lonlatOpen s.lonOpen s.latOpen s.res.longitude s.res.latitude))

end Sys2Proof.Machine
end

