-- ==== Sys2Proof/Machine/Quality.lean ====
section
/-!
DEFINITION. QUAL (43_quality.md).
-/

namespace Sys2Proof.Machine

/-- QUAL: the satellite count and the reception rating; no LookupError for tier 0 (R105, R106, R107). -/
def execQual (tier sat : Nibble) (s : State) : Host.Outcome State Fault Refusal :=
  .next { s with res := { s.res with satellites := some sat, reception := some (receptionOf tier) } }

end Sys2Proof.Machine
end

