-- ==== Sys2Proof/Machine/Scalars.lean ====
section
/-!
DEFINITION. UPCNT, DNCNT, BATT, RSSI, SNR (44_scalars.md). For RSSI and SNR the cursor moves at the end of their group
(R117, `Sequencer`).
-/

namespace Sys2Proof.Machine

/-- UPCNT: the byte, verbatim; `cur <- cur + 1` (R112). -/
def execUpcnt (n : Byte) (s : State) : Host.Outcome State Fault Refusal :=
  .next (State.moveCursor { s with res := { s.res with uplinkCounter := some n } } 1)

/-- DNCNT: the byte, verbatim; `cur <- cur + 1` (R113). -/
def execDncnt (n : Byte) (s : State) : Host.Outcome State Fault Refusal :=
  .next (State.moveCursor { s with res := { s.res with downlinkCounter := some n } } 1)

/-- BATT: the 16-bit level; `cur <- cur + 2` (R114). -/
def execBatt (v : BitVec 16) (s : State) : Host.Outcome State Fault Refusal :=
  .next (State.moveCursor { s with res := { s.res with batteryLevel := some v } } 2)

/-- RSSI: the unsigned byte negated, 9 bits (R115). -/
def execRssi (m : Byte) (s : State) : Host.Outcome State Fault Refusal :=
  .next { s with res := { s.res with rssi := some (BitVec.ofInt 9 (rssiValue m)) } }

/-- SNR: the byte, unchanged (R116). -/
def execSnr (n : Byte) (s : State) : Host.Outcome State Fault Refusal :=
  .next { s with res := { s.res with snr := some n } }

end Sys2Proof.Machine
end

