-- ==== Sys2Proof/Machine/Flags.lean ====
section
/-!
DEFINITION. The status flags (40_status.md): the one flag computation of the block, `(byte >> bitpos) & 1`. No other
operation writes a flag and there is no carry, overflow, zero or sign flag (R12).
-/

namespace Sys2Proof.Machine

/-- Flag `i` of a status byte: `(s >> i) & 1`, as a boolean (R70, R72). -/
def statusFlag (s : Byte) (i : Nat) : Bool := (s >>> i) &&& 1 == 1

/-- Write the eight flag registers from a status byte, bit 0 to bit 7 in the order of R70. -/
def Results.writeFlags (r : Results) (s : Byte) : Results :=
  { r with
    rssiSnrReported := some (statusFlag s 0)
    batteryLevelReported := some (statusFlag s 1)
    downlinkCounterReported := some (statusFlag s 2)
    uplinkCounterReported := some (statusFlag s 3)
    gpsReported := some (statusFlag s 4)
    triggeredByPushbutton := some (statusFlag s 5)
    triggeredByAccelerometer := some (statusFlag s 6)
    temperatureReported := some (statusFlag s 7) }

end Sys2Proof.Machine
end

