-- ==== Sys2Proof/Machine/Status.lean ====
section
/-!
DEFINITION. STATUS (40_status.md).
-/

namespace Sys2Proof.Machine

/-- STATUS: `F` and the eight flag registers from the status byte, `cur <- 1` (R70). The read of byte 0 with its bounds
check is the fetch (`decode`, R31). -/
def execStatus (b : Byte) (s : State) : Host.Outcome State Fault Refusal :=
  .next { s with flags := b, res := s.res.writeFlags b, cur := 1 }

end Sys2Proof.Machine
end

