-- ==== Sys2Proof/Machine/Temperature.lean ====
section
/-!
DEFINITION. TEMP (41_temperature.md).
-/

namespace Sys2Proof.Machine

/-- TEMP: `temperature` from the sign selector and the magnitude, `cur <- cur + 1` (R80). -/
def execTemp (sg : Bool) (mag : BitVec 7) (s : State) : Host.Outcome State Fault Refusal :=
  .next (State.moveCursor { s with res := { s.res with temperature := some (BitVec.ofInt 8 (temperatureValue sg mag)) } } 1)

end Sys2Proof.Machine
end

