-- ==== Sys2Proof/Machine/Dispatch.lean ====
section
/-!
DEFINITION. One arm for each instruction, each a direct call of its meaning.
-/

namespace Sys2Proof.Machine

def exec (i : Instr) (s : State) : Host.Outcome State Fault Refusal :=
  match i with
  | .status b => Sys2Proof.Machine.execStatus b s
  | .temp sg mag => Sys2Proof.Machine.execTemp sg mag s
  | .lat c => Sys2Proof.Machine.execLat c s
  | .lon c => Sys2Proof.Machine.execLon c s
  | .qual tier sat => Sys2Proof.Machine.execQual tier sat s
  | .lonlat => Sys2Proof.Machine.execLonlat s
  | .upcnt n => Sys2Proof.Machine.execUpcnt n s
  | .dncnt n => Sys2Proof.Machine.execDncnt n s
  | .batt v => Sys2Proof.Machine.execBatt v s
  | .rssi m => Sys2Proof.Machine.execRssi m s
  | .snr n => Sys2Proof.Machine.execSnr n s
  | .hex => Sys2Proof.Machine.execHex s
  | .len => Sys2Proof.Machine.execLen s
  | .port => Sys2Proof.Machine.execPort s
  | .merge md => Sys2Proof.Machine.execMerge md s

end Sys2Proof.Machine
end

