-- ==== Sys2Proof/Machine/Sequencer.lean ====
section
/-!
DEFINITION. The sequencer (45_sequencer_assembler.md R122 to R126): which operation comes next, the fetch of its operand
with the group's bounds check, the cursor's advance at the end of the groups GPS and RSSI_SNR, the end of the decode; and
how the host's pending actions are taken (70_reset_and_hazards.md R176). `Step` only calls it.
-/

namespace Sys2Proof.Machine

/-- The first operation enabled by the flags `f`, from the place `o` in the fixed order on (R59, R122). There always is one:
HEX, LEN and PORT are enabled by every `f`. -/
def nextEnabled (f : Byte) (o : Op) : Op := (o.rest.find? (Op.enabled f)).getD .hex

/-- The next operation that runs. -/
def State.nextOp (s : State) : Op := nextEnabled s.flags s.seq

/-- The next instruction with its operand, or the group whose bytes are missing (R31, R122). -/
def State.fetch (s : State) : Except Reject Instr := decode s.nextOp s.cur s.bytes

/-- What follows an operation: the cursor's advance at the end of the GPS group (R100) and of the RSSI_SNR group (R117),
the end of the decode after PORT (R122 step 8), the sequencer's next place. -/
def State.retire (s : State) (o : Op) : State :=
  match o with
  | .lonlat => { s.moveCursor 9 with seq := o.next }
  | .snr => { s.moveCursor 2 with seq := o.next }
  | .port => s.finish
  | .status | .temp | .lat | .lon | .qual | .upcnt | .dncnt | .batt | .rssi | .hex | .len =>
    { s with seq := o.next }

/-- One step of a decode: fetch, run, retire; a failed bounds check raises ShortBufferError instead (R122, R144, R150). -/
def runOp (s : State) : Host.Outcome State Fault Refusal :=
  match s.fetch with
  | .error (.shortBuffer g c) => .next (s.raise .shortBuffer g c)
  | .ok i =>
    match exec i s with
    | .next t => .next (t.retire s.nextOp)
    | .fault f => .fault f
    | .refused r => .refused r

/-- Take a pending host action while no decode runs (R176). A port wider than PORT_W is refused here, at the boundary (R143,
U4); any `len` is taken and left to START's check (R176). -/
def serve (r : HostRequest) (s : State) : Host.Outcome State Fault Refusal :=
  match r with
  | .place bs => .next (s.placeBytes bs)
  | .setLen n => .next { s with len := n }
  | .setPort p => if fitsPort p then .next { s with port := p } else .refused .portTooWide
  | .start => .next s.startDecode
  | .wait => .next s
  | .merge md => exec (.merge md) s
  | .reset => .next s.resetBlock

/-- One step. While BUSY only a reset (R168) and a wait (R176) at the head of the host's actions are taken; everything else
waits until the decode has ended, which is the host's duty (R174, R176, R177; log 9). Otherwise the next action is taken,
and with none pending the block waits (R162). -/
def stepMachine (s : State) : Host.Outcome State Fault Refusal :=
  match s.phase, s.requests with
  | .busy, .reset :: rs => .next (State.resetBlock { s with requests := rs })
  | .busy, .wait :: rs => runOp { s with requests := rs }
  | .busy, _ => runOp s
  | _, [] => .next s
  | _, r :: rs => serve r { s with requests := rs }

/-- Place a table row's word as the payload and stand the sequencer where its instruction is the next to be fetched: the
word's bytes in the buffer with `len` 17, the status byte latched unless STATUS itself is the row, the cursor after the
status byte, BUSY, no host action pending (log 11, 12). -/
def State.loadTableWord (s : State) (nbits w : Nat) : State :=
  let p := tableBytes nbits w
  let b := p.getD 0 0
  { s with
    phase := .busy
    payload := Memory.setBytes [] 0 p
    len := 17
    requests := []
    flags := if tableOp b = .status then s.flags else b
    cur := tableCursor b
    seq := tableOp b }

end Sys2Proof.Machine
end

