-- ==== Sys2Proof/Machine/Step.lean ====
section
/-!
DEFINITION. The step, and where a single instruction is put for the next step to run it. Both only call `Sequencer`.
-/

namespace Sys2Proof.Machine

/-- One step of the machine: one host action taken, or one field operation of the decode in progress (R122, R126; log 8, 9). -/
def step (s : State) : Host.Outcome State Fault Refusal := stepMachine s

/-- `s` with the instruction of a table row stored where `step` fetches next (log 11). -/
def State.withFetchWord (s : State) (nbits w : Nat) : State := s.loadTableWord nbits w

end Sys2Proof.Machine
end

