-- ==== Sys2Proof/Machine/Transaction.lean ====
section
/-!
DEFINITION. The decode as ONE function of its inputs (45_sequencer_assembler.md R137, 70_reset_and_hazards.md R181): the
layout of the status byte (R55, R56) instead of a moving cursor, one check `len >= L(B[0])` instead of one for each group
(R125), every register computed straight from the payload bytes. It calls no meaning; that the step machine computes the
same is a statement. `draws` is where its free values start (log 4).
-/

namespace Sys2Proof.Machine

/-- The groups after STATUS in step order (R122). -/
def groupsInOrder : List Group := [.temp, .gps, .upcnt, .dncnt, .batt, .rssiSnr]

/-- The first group, in step order and among those present, whose last byte has an index `>= len`, with its start index
(R125). For a payload too short for STATUS itself it is STATUS, at 0 (R144, R146). -/
def shortGroup (p : List Byte) : Option (Group × Nat) :=
  if p.length < 1 then some (.status, 0)
  else
    let s := p.getD 0 0
    (groupsInOrder.find? fun g => g.present s && decide (p.length < groupStart s g + g.width)).map
      fun g => (g, groupStart s g)

/-- The result registers of a payload long enough for its layout: exactly those of R13's table that its flags announce,
each from the bytes at its place in the layout (R55, R137). -/
def resultsOf (p : List Byte) (port draws : Nat) : Results :=
  let b := fun i => p.getD i 0
  let s := b 0
  let bit := s.getLsbD
  let gps := groupStart s .gps
  let lat := coordOf (b gps) (b (gps + 1)) (b (gps + 2)) (b (gps + 3))
  let lon := coordOf (b (gps + 4)) (b (gps + 5)) (b (gps + 6)) (b (gps + 7))
  let drawsLon := draws + (!validDigits lat).toNat
  let drawsLonlat := drawsLon + (!validDigits lon).toNat
  let whenFlag := fun {α : Type} (i : Nat) (v : α) => if bit i then some v else none
  { rssiSnrReported := some (bit 0)
    batteryLevelReported := some (bit 1)
    downlinkCounterReported := some (bit 2)
    uplinkCounterReported := some (bit 3)
    gpsReported := some (bit 4)
    triggeredByPushbutton := some (bit 5)
    triggeredByAccelerometer := some (bit 6)
    temperatureReported := some (bit 7)
    temperature := whenFlag 7 (b 1)
    latitude := whenFlag 4 (latitudeResult draws lat)
    latitudeDm := whenFlag 4 (latitudeDmResult draws lat)
    latitudeHemisphere := whenFlag 4 (latHemisphere lat.h)
    longitude := whenFlag 4 (longitudeResult drawsLon lon)
    longitudeDm := whenFlag 4 (longitudeDmResult drawsLon lon)
    longitudeHemisphere := whenFlag 4 (lonHemisphere lon.h)
    lonlat := whenFlag 4 (lonlatResult drawsLonlat (!validDigits lon) (!validDigits lat)
      (some (longitudeResult drawsLon lon)) (some (latitudeResult draws lat)))
    satellites := whenFlag 4 (loNibble (b (gps + 8)))
    reception := whenFlag 4 (receptionOf (hiNibble (b (gps + 8))))
    uplinkCounter := whenFlag 3 (b (groupStart s .upcnt))
    downlinkCounter := whenFlag 2 (b (groupStart s .dncnt))
    batteryLevel := whenFlag 1 (b (groupStart s .batt) ++ b (groupStart s .batt + 1))
    rssi := whenFlag 0 (-((b (groupStart s .rssiSnr)).setWidth 9))
    snr := whenFlag 0 (b (groupStart s .rssiSnr + 1))
    hex := some (hexString p)
    length := some p.length
    port := some port }

/-- `Decode(payload, len, port)`: InputError if `len > PAYLOAD_MAX`, else ShortBufferError if the layout does not fit, else
the result with `CUR = L(B[0])` (R137). `p` is the `len` payload bytes. -/
def decodeTransaction (p : List Byte) (port draws : Nat) : Observation :=
  if Config.payloadMax < p.length then .fault .inputError .noGroup 0
  else
    match shortGroup p with
    | some (g, c) => .fault .shortBuffer g c
    | none => .done (resultsOf p port draws) (layoutLength (p.getD 0 0))

end Sys2Proof.Machine
end

