-- ==== Sys2Proof/Safety.lean ====
section
/-!
DEFINITION. What the statements rest on: the invariant of the machine, in the terms of the spec's own rules. It says which
values every register can hold (widths: 10_state.md R14, R17), which registers are present in each STATE (R16, R21, R150),
where the cursor stands while a decode runs (R11, R55), and that LookupError never occurs (R145).
-/

namespace Sys2Proof.Machine

/-- A pending host action stays within what the host can send: `len` LEN_W bits (R17), META a mapping (R138). A port that is
too wide need not be ruled out: the step refuses it (R143). -/
def HostRequest.wf : HostRequest → Prop
  | .setLen n => n < 2 ^ Config.lenW
  | .merge md => keysDistinct md = true
  | .place _ | .setPort _ | .start | .wait | .reset => True

/-- Every value lies in the range of its register or port (R14, R17, R30): the buffer is canonical and within its capacity,
lengths and cursors fit LEN_W, the port fits PORT_W. -/
structure Ranges (s : State) : Prop where
  payloadCanonical : s.payload.wf = true
  payloadInCapacity : ∀ c ∈ s.payload, c.1 < Config.payloadMax
  len : s.len < 2 ^ Config.lenW
  port : s.port < 2 ^ Config.portW
  requests : ∀ r ∈ s.requests, r.wf
  faultCur : s.faultCur < 2 ^ Config.lenW
  curOut : s.curOut < 2 ^ Config.lenW
  cur : s.cur < 2 ^ Config.lenW
  resLength : ∀ n, s.res.length = some n → n < 2 ^ Config.lenW
  resPort : ∀ p, s.res.port = some p → p < 2 ^ Config.portW

/-- While a decode runs (STATE = BUSY): no fault shown; the input fits the buffer; before STATUS nothing is read or
written; after it the latched flags are byte 0, the cursor stands at the start of the sequencer's group and not beyond the
input, a group that has begun is wholly there, and exactly the registers of the operations already run are present. -/
structure BusyInv (s : State) : Prop where
  noFault : s.fault = .none
  fits : s.len ≤ Config.payloadMax
  cursorInside : s.cur ≤ s.len
  atStatus : s.seq = .status → s.cur = 0 ∧ s.res = .empty
  latched : s.seq ≠ .status → s.flags = s.byteAt 0 ∧ 1 ≤ s.len
  cursorPlace : s.seq ≠ .status → s.cur = groupStart s.flags s.seq.group
  groupBegun : (s.seq = .lon ∨ s.seq = .qual ∨ s.seq = .lonlat → s.flags.getLsbD 4 = true ∧ s.cur + 9 ≤ s.len) ∧
    (s.seq = .snr → s.flags.getLsbD 0 = true ∧ s.cur + 2 ≤ s.len)
  present : ∀ g : Reg, s.res.pres g = (g.writer.enabled s.flags && decide (g.writer.index < s.seq.index))
  flagRegisters : s.seq ≠ .status → s.res.writeFlags s.flags = s.res

/-- The invariant of the machine, by STATE: no result is offered in IDLE and FAULT (R20, R150); in FAULT the code is one of
the two that occur (R142, R145), InputError with group NONE and cursor 0 (R143), ShortBufferError with a group the latched
flags announce and that group's start (R146); in DONE no fault is shown, `CUR` is the layout length of the latched flags
(R56), the flag registers show them (R12), and a register is present exactly when its operation is enabled (R16). -/
structure Inv (s : State) : Prop where
  ranges : Ranges s
  atRest : s.phase ≠ .busy → s.seq = .status
  idle : s.phase = .idle → s.fault = .none ∧ s.res = .empty
  busy : s.phase = .busy → BusyInv s
  done : s.phase = .done → s.fault = .none ∧ s.curOut = layoutLength s.flags ∧
    s.res.writeFlags s.flags = s.res ∧ ∀ g : Reg, s.res.pres g = g.writer.enabled s.flags
  fault : s.phase = .fault → s.res = .empty ∧
    ((s.fault = .inputError ∧ s.faultGroup = .noGroup ∧ s.faultCur = 0) ∨
      (s.fault = .shortBuffer ∧ s.faultGroup.present s.flags = true ∧ s.faultCur = groupStart s.flags s.faultGroup))
  merged : s.out ≠ none → s.phase = .done

/-! ### Words the statements use -/

/-- The next step is one of the decode in progress: BUSY, and the host asks neither for a reset nor for a wait. -/
def Decoding (s : State) : Prop :=
  s.phase = .busy ∧ s.requests.head? ≠ some .reset ∧ s.requests.head? ≠ some .wait

/-- Everything an operation leaves alone whatever it writes: the interface registers (R17), every byte of the buffer
(R34), the host's inputs and pending actions, the sequencer's place and MERGE's last mapping. -/
structure FrameButFlags (s t : State) : Prop where
  phase : t.phase = s.phase
  fault : t.fault = s.fault
  faultGroup : t.faultGroup = s.faultGroup
  faultCur : t.faultCur = s.faultCur
  curOut : t.curOut = s.curOut
  bytes : ∀ a, t.byteAt a = s.byteAt a
  len : t.len = s.len
  port : t.port = s.port
  requests : t.requests = s.requests
  seq : t.seq = s.seq
  out : t.out = s.out

/-- The same, and `F` is left alone too (every operation but STATUS, R12). -/
structure Frame (s t : State) : Prop extends FrameButFlags s t where
  flags : t.flags = s.flags

/-- The model's own record of open values is left alone: no free value drawn, `latOpen` and `lonOpen` as before (log 4, 5). -/
structure NothingDrawn (s t : State) : Prop where
  latOpen : t.latOpen = s.latOpen
  lonOpen : t.lonOpen = s.lonOpen
  draws : t.draws = s.draws

/-- Every result register outside `written` holds what it held, presence bit and value (R13, R22). -/
def OtherRegistersKept (written : List Reg) (s t : State) : Prop := ∀ g, g ∉ written → t.res.get g = s.res.get g

/-- Nothing is offered: every presence bit is 0 (R150). -/
def NothingPresent (t : State) : Prop := ∀ g : Reg, t.res.pres g = false

/-- The number whose decimal digits are given, written as a polynomial (00_scope.md section 6, `dec_k`). -/
def decimal : List Nat → Nat
  | [] => 0
  | d :: ds => d * 10 ^ ds.length + decimal ds

end Sys2Proof.Machine
end

