-- ==== Sys2Proof/Certificates/Slice0/Obligations.lean ====
section
/-!
DEFINITION. The statements about the model, from the numbered rules of spec/; OBLIGATIONS.json names the rule of each.
-/

open Sys2Proof Sys2Proof.Machine

/-! ### The payload format -/

/-- Payloads written out in 95_test_vectors.md decode to the listings given there (S7, P1, P3, P6), and too short ones to
the group that section 2.12 names. A sanity check on fixed words. -/
def Obligations.VectorPayloadsDecode : Prop :=
  decodePayload [0x80, 0x19] = .ok [.status 0x80, .temp false 0x19, .hex, .len, .port] ∧
  decodePayload [0x81, 0xFF, 0x0A, 0x03] =
    .ok [.status 0x81, .temp true 0x7F, .rssi 0x0A, .snr 0x03, .hex, .len, .port] ∧
  decodePayload [0xFF, 0xE7, 0x48, 0x51, 0x47, 0x40, 0x00, 0x21, 0x76, 0x70, 0x17, 0x2A, 0x05, 0x0E, 0x74, 0x5C, 0x09] =
    .ok [.status 0xFF, .temp true 0x67, .lat ⟨4, 8, 5, 1, 4, 7, 4, 0, false⟩, .lon ⟨0, 0, 2, 1, 7, 6, 7, 0, false⟩,
      .qual 1 7, .lonlat, .upcnt 0x2A, .dncnt 0x05, .batt 0x0E74, .rssi 0x5C, .snr 0x09, .hex, .len, .port] ∧
  decodePayload [0x0C, 0x01, 0x02, 0xAA, 0xBB] = .ok [.status 0x0C, .upcnt 1, .dncnt 2, .hex, .len, .port] ∧
  decodePayload [] = .error (.shortBuffer .status 0) ∧
  decodePayload [0x01, 0x19] = .error (.shortBuffer .rssiSnr 1) ∧
  decodePayload [0x90, 0x14, 0x48, 0x51, 0x47, 0x40, 0x00, 0x21] = .error (.shortBuffer .gps 2)

/-- Decoding what was encoded gives the instruction back, for every sequenced operation, every operand, every cursor and
every payload that holds the operand's bytes at their place. -/
def Obligations.DecodeInvertsEncode : Prop :=
  ∀ (i : Instr) (o : Op) (cur : Nat) (p : List Byte),
    i.wf = true → i.op = some o → (o.need = 0 ∨ o.base cur + o.need ≤ p.length) →
    (p.drop (o.base cur + o.offset)).take o.size = encode i → decode o cur p = .ok i

/-- Encoding what was decoded gives back exactly the operand's bytes: the decoder drops no bit. -/
def Obligations.EncodeInvertsDecode : Prop :=
  ∀ (i : Instr) (o : Op) (cur : Nat) (p : List Byte), decode o cur p = .ok i →
    i.op = some o ∧ i.wf = true ∧ encode i = (p.drop (o.base cur + o.offset)).take o.size

/-- Whole payloads: a well-formed listing survives being encoded, with any trailing bytes behind it, and decoded; and a
payload that decodes is, up to its layout length, the encoding of its listing, which is well formed. -/
def Obligations.ListingsAndPayloadsAgree : Prop :=
  (∀ (l : List Instr) (trailing : List Byte), listingWf l = true → decodePayload (encodePayload l ++ trailing) = .ok l) ∧
  (∀ (p : List Byte) (l : List Instr), decodePayload p = .ok l →
    listingWf l = true ∧ encodePayload l = p.take (layoutLength (p.getD 0 0)))

/-- R125: all bounds checks pass if and only if `len >= L(B[0])` (and byte 0 exists); when they do not, the group named is the
first, in step order and among those present, whose last byte is missing, with its start. -/
def Obligations.AllChecksAreOneCheck : Prop :=
  ∀ p : List Byte,
    ((∃ l, decodePayload p = .ok l) ↔ 1 ≤ p.length ∧ layoutLength (p.getD 0 0) ≤ p.length) ∧
    (∀ g c, decodePayload p = .error (.shortBuffer g c) ↔ shortGroup p = some (g, c))

/-- R59: an operation runs if and only if `B[0] & m = m`, and the operations that run do so in the fixed order. -/
def Obligations.MaskSelectsInFixedOrder : Prop :=
  ∀ (p : List Byte) (l : List Instr), decodePayload p = .ok l →
    l.map Instr.op = (Op.order.filter fun o => p.getD 0 0 &&& o.mask == o.mask).map some

/-- R31: the read primitive answers if and only if all bytes are there, and then with exactly those bytes; two of them,
joined, have the byte at the lower index as the more significant; a group one of whose bytes is missing is not read at all, but
answered by ShortBufferError with the group and where it starts. -/
def Obligations.MemReadChecksAndJoins : Prop :=
  (∀ (p : List Byte) (addr n : Nat),
    (addr + n ≤ p.length → ∃ bs, memRead p addr n = some bs ∧ bs.length = n ∧
      ∀ k, k < n → bs.getD k 0 = p.getD (addr + k) 0) ∧
    (p.length < addr + n → memRead p addr n = none)) ∧
  (∀ b0 b1 : Byte, bigEndian [b0, b1] = (b0.toNat <<< 8) ||| b1.toNat) ∧
  (∀ (o : Op) (cur : Nat) (p : List Byte), o.need ≠ 0 → p.length < o.base cur + o.need →
    decode o cur p = .error (.shortBuffer o.group (o.base cur)))

/-- R85: digit `d` is `(c[d div 2] >> sh) & 0xF` with `sh` 4 for even `d` and 0 for odd `d`. -/
def Obligations.DigitsComeHighNibbleFirst : Prop :=
  ∀ c0 c1 c2 c3 : Byte, digits (coordOf c0 c1 c2 c3) =
    (List.range 7).map fun d =>
      (([c0, c1, c2, c3].getD (d / 2) 0 >>> (if d % 2 = 0 then 4 else 0)) &&& 0x0F).toNat

/-! ### The operations, one by one: they complete, with these results and this frame -/

/-- STATUS writes `F`, the eight flag registers and the cursor, and nothing else. -/
def Obligations.StatusCompletes : Prop :=
  ∀ (b : Byte) (s : State), ∃ t, exec (.status b) s = .next t ∧ t.flags = b ∧ t.cur = 1 ∧
    t.res.get .rssiSnrReported = some (.flag (b.getLsbD 0)) ∧
    t.res.get .batteryLevelReported = some (.flag (b.getLsbD 1)) ∧
    t.res.get .downlinkCounterReported = some (.flag (b.getLsbD 2)) ∧
    t.res.get .uplinkCounterReported = some (.flag (b.getLsbD 3)) ∧
    t.res.get .gpsReported = some (.flag (b.getLsbD 4)) ∧
    t.res.get .triggeredByPushbutton = some (.flag (b.getLsbD 5)) ∧
    t.res.get .triggeredByAccelerometer = some (.flag (b.getLsbD 6)) ∧
    t.res.get .temperatureReported = some (.flag (b.getLsbD 7)) ∧
    OtherRegistersKept [.rssiSnrReported, .batteryLevelReported, .downlinkCounterReported, .uplinkCounterReported,
      .gpsReported, .triggeredByPushbutton, .triggeredByAccelerometer, .temperatureReported] s t ∧
    FrameButFlags s t ∧ NothingDrawn s t

/-- R71: flag `n` equals bit `n`, and the map from status bytes to the eight flags is a bijection. -/
def Obligations.FlagsAreTheBits : Prop :=
  (∀ (b : Byte) (n : Fin 8), statusFlag b n = b.getLsbD n) ∧
  Function.Bijective fun (b : Byte) (n : Fin 8) => statusFlag b n

/-- R81: TEMP's value is the operand byte read as 8-bit two's complement; and TEMP writes `temperature`, moves the cursor by
1, and does nothing else. -/
def Obligations.TempIsTwosComplement : Prop :=
  ∀ (sg : Bool) (mag : BitVec 7) (s : State), ∃ t, exec (.temp sg mag) s = .next t ∧
    t.res.get .temperature = some (.num ((mag.toNat : Int) - 128 * (sg.toNat : Int))) ∧
    t.res.get .temperature = some (.num (((BitVec.ofBool sg ++ mag : Byte)).toInt)) ∧
    t.cur = s.cur + 1 ∧ OtherRegistersKept [.temperature] s t ∧ Frame s t ∧ NothingDrawn s t

/-- R82: for bytes 0..127 the temperature is the byte, for 128..255 it is `(byte & 0x7F) - 128`, in [-128, -1]; the map is a
bijection onto -128..127. -/
def Obligations.TemperatureRoundTrip : Prop :=
  (∀ b : Byte, b.toNat < 128 → temperatureValue (b.getLsbD 7) (b.extractLsb' 0 7) = b.toNat) ∧
  (∀ b : Byte, 128 ≤ b.toNat →
    temperatureValue (b.getLsbD 7) (b.extractLsb' 0 7) = ((b &&& 0x7F).toNat : Int) - 128 ∧
    -128 ≤ temperatureValue (b.getLsbD 7) (b.extractLsb' 0 7) ∧
    temperatureValue (b.getLsbD 7) (b.extractLsb' 0 7) ≤ -1) ∧
  (∀ v : Int, -128 ≤ v → v ≤ 127 → ∃! b : Byte, temperatureValue (b.getLsbD 7) (b.extractLsb' 0 7) = v)

/-- LAT on valid digits: the exact value, the 11-character string, the hemisphere's full name, and nothing else. -/
def Obligations.LatCompletes : Prop :=
  ∀ (c : Coord) (s : State), (∀ d ∈ [c.d0, c.d1, c.d2, c.d3, c.d4, c.d5, c.d6], d.toNat ≤ 9) →
    ∃ t, exec (.lat c) s = .next t ∧
      t.res.get .latitude = some (.rat ((if c.h then -1 else 1) *
        (((10 * c.d0.toNat + c.d1.toNat : Nat) : Rat) +
          ((10000 * c.d2.toNat + 1000 * c.d3.toNat + 100 * c.d4.toNat + 10 * c.d5.toNat + c.d6.toNat : Nat) : Rat) / 60000))) ∧
      t.res.get .latitudeDm = some (.text
        [dig c.d0.toNat, dig c.d1.toNat, 0xB0, dig c.d2.toNat, dig c.d3.toNat, 0x2C, dig c.d4.toNat, dig c.d5.toNat,
         dig c.d6.toNat, 0x30, if c.h then 0x53 else 0x4E]) ∧
      t.res.get .latitudeHemisphere = some (.text (if c.h then ascii "South" else ascii "North")) ∧
      t.cur = s.cur ∧ OtherRegistersKept [.latitude, .latitudeDm, .latitudeHemisphere] s t ∧ Frame s t ∧
      t.latOpen = false ∧ t.lonOpen = s.lonOpen ∧ t.draws = s.draws

/-- LON on valid digits: the exact value, the 11-character string, the hemisphere's full name, and nothing else. -/
def Obligations.LonCompletes : Prop :=
  ∀ (c : Coord) (s : State), (∀ d ∈ [c.d0, c.d1, c.d2, c.d3, c.d4, c.d5, c.d6], d.toNat ≤ 9) →
    ∃ t, exec (.lon c) s = .next t ∧
      t.res.get .longitude = some (.rat ((if c.h then -1 else 1) *
        (((100 * c.d0.toNat + 10 * c.d1.toNat + c.d2.toNat : Nat) : Rat) +
          ((1000 * c.d3.toNat + 100 * c.d4.toNat + 10 * c.d5.toNat + c.d6.toNat : Nat) : Rat) / 6000))) ∧
      t.res.get .longitudeDm = some (.text
        [dig c.d0.toNat, dig c.d1.toNat, dig c.d2.toNat, 0xB0, dig c.d3.toNat, dig c.d4.toNat, 0x2C, dig c.d5.toNat,
         dig c.d6.toNat, 0x30, if c.h then 0x57 else 0x45]) ∧
      t.res.get .longitudeHemisphere = some (.text (if c.h then ascii "West" else ascii "East")) ∧
      t.cur = s.cur ∧ OtherRegistersKept [.longitude, .longitudeDm, .longitudeHemisphere] s t ∧ Frame s t ∧
      t.lonOpen = false ∧ t.latOpen = s.latOpen ∧ t.draws = s.draws

/-- R103: a digit of 10 to 15 stops nothing. LAT and LON still answer a next state, write some value and some string (free:
nothing is said of them), the defined hemisphere, and nothing else. -/
def Obligations.OutOfSpecDigitsDoNotStop : Prop :=
  ∀ (c : Coord) (s : State), (∃ d ∈ [c.d0, c.d1, c.d2, c.d3, c.d4, c.d5, c.d6], 9 < d.toNat) →
    (∃ t, exec (.lat c) s = .next t ∧ t.res.pres .latitude = true ∧ t.res.pres .latitudeDm = true ∧
      t.res.get .latitudeHemisphere = some (.text (if c.h then ascii "South" else ascii "North")) ∧
      t.cur = s.cur ∧ OtherRegistersKept [.latitude, .latitudeDm, .latitudeHemisphere] s t ∧ Frame s t ∧
      t.latOpen = true ∧ t.lonOpen = s.lonOpen) ∧
    (∃ t, exec (.lon c) s = .next t ∧ t.res.pres .longitude = true ∧ t.res.pres .longitudeDm = true ∧
      t.res.get .longitudeHemisphere = some (.text (if c.h then ascii "West" else ascii "East")) ∧
      t.cur = s.cur ∧ OtherRegistersKept [.longitude, .longitudeDm, .longitudeHemisphere] s t ∧ Frame s t ∧
      t.lonOpen = true ∧ t.latOpen = s.latOpen)

/-- QUAL: the satellite count is the low nibble, the rating is Good for tier 1, Average for tier 2 and Poor for every other
tier, 0 among them; nothing else is written. -/
def Obligations.QualCompletes : Prop :=
  ∀ (tier sat : Nibble) (s : State), ∃ t, exec (.qual tier sat) s = .next t ∧
    t.res.get .satellites = some (.num sat.toNat) ∧
    t.res.get .reception = some (.text
      (if tier = 1 then ascii "Good" else if tier = 2 then ascii "Average" else ascii "Poor")) ∧
    t.res.reception.map receptionCode = some (if tier = 1 then 0 else if tier = 2 then 1 else 2) ∧
    t.cur = s.cur ∧ OtherRegistersKept [.satellites, .reception] s t ∧ Frame s t ∧ NothingDrawn s t

/-- LONLAT completes in every state and writes `lonlat` alone; where both coordinates are there and neither is `any`, the text
is the longitude's numeral, one comma, the latitude's numeral. -/
def Obligations.LonlatCompletes : Prop :=
  (∀ s : State, ∃ t, exec .lonlat s = .next t ∧ t.res.pres .lonlat = true ∧
    t.cur = s.cur ∧ OtherRegistersKept [.lonlat] s t ∧ Frame s t ∧ t.latOpen = s.latOpen ∧ t.lonOpen = s.lonOpen) ∧
  (∀ (s : State) (lo : Longitude) (la : Latitude),
    s.res.longitude = some lo → s.res.latitude = some la → s.lonOpen = false → s.latOpen = false →
    ∃ t, exec .lonlat s = .next t ∧
      t.res.get .lonlat = some (.text (decstr (longitudeValue lo) ++ [0x2C] ++ decstr (latitudeValue la))))

/-- UPCNT, DNCNT and BATT: the operand as an unsigned number, the cursor moved by the operand's width, nothing else. -/
def Obligations.CountersAndBatteryComplete : Prop :=
  (∀ (n : Byte) (s : State), ∃ t, exec (.upcnt n) s = .next t ∧ t.res.get .uplinkCounter = some (.num n.toNat) ∧
    t.cur = s.cur + 1 ∧ OtherRegistersKept [.uplinkCounter] s t ∧ Frame s t ∧ NothingDrawn s t) ∧
  (∀ (n : Byte) (s : State), ∃ t, exec (.dncnt n) s = .next t ∧ t.res.get .downlinkCounter = some (.num n.toNat) ∧
    t.cur = s.cur + 1 ∧ OtherRegistersKept [.downlinkCounter] s t ∧ Frame s t ∧ NothingDrawn s t) ∧
  (∀ (v : BitVec 16) (s : State), ∃ t, exec (.batt v) s = .next t ∧ t.res.get .batteryLevel = some (.num v.toNat) ∧
    t.cur = s.cur + 2 ∧ OtherRegistersKept [.batteryLevel] s t ∧ Frame s t ∧ NothingDrawn s t)

/-- R115, R116: RSSI is minus the unsigned byte, -255 to 0; SNR is the byte unchanged, 0 to 255; nothing else is written. -/
def Obligations.RssiAndSnrComplete : Prop :=
  (∀ (m : Byte) (s : State), ∃ t, exec (.rssi m) s = .next t ∧ t.res.get .rssi = some (.num (-(m.toNat : Int))) ∧
    t.cur = s.cur ∧ OtherRegistersKept [.rssi] s t ∧ Frame s t ∧ NothingDrawn s t) ∧
  (∀ (n : Byte) (s : State), ∃ t, exec (.snr n) s = .next t ∧ t.res.get .snr = some (.num n.toNat) ∧
    t.cur = s.cur ∧ OtherRegistersKept [.snr] s t ∧ Frame s t ∧ NothingDrawn s t)

/-- R134: HEX writes two lower-case hex digits for every byte of the whole input, high nibble first, nothing between, and
nothing else; the string has `2*len` characters. -/
def Obligations.HexCompletes : Prop :=
  ∀ s : State, ∃ t h, exec .hex s = .next t ∧ t.res.get .hex = some (.text h) ∧ h.length = 2 * s.len ∧
    (∀ i, i < s.len →
      h.getD (2 * i) 0 = hexdig (hiNibble (s.byteAt i)) ∧ h.getD (2 * i + 1) 0 = hexdig (loNibble (s.byteAt i))) ∧
    t.cur = s.cur ∧ OtherRegistersKept [.hex] s t ∧ Frame s t ∧ NothingDrawn s t

/-- LEN writes the number of bytes supplied, PORT the caller's port, and each nothing else. -/
def Obligations.LenAndPortComplete : Prop :=
  ∀ s : State,
    (∃ t, exec .len s = .next t ∧ t.res.get .length = some (.num s.len) ∧
      t.cur = s.cur ∧ OtherRegistersKept [.length] s t ∧ Frame s t ∧ NothingDrawn s t) ∧
    (∃ t, exec .port s = .next t ∧ t.res.get .port = some (.num s.port) ∧
      t.cur = s.cur ∧ OtherRegistersKept [.port] s t ∧ Frame s t ∧ NothingDrawn s t)

/-- MERGE after DONE: a mapping whose value at every key is META's where META has the key and RES's elsewhere; its keys are
distinct, and nothing but that mapping changes. -/
def Obligations.MergeCompletesAfterDone : Prop :=
  ∀ (md : List (Key × MetaValue)) (s : State), (Instr.merge md).wf = true → s.phase = .done →
    ∃ m, exec (.merge md) s = .next { s with out := some m } ∧ keysDistinct m = true ∧
      ∀ k, lookupKey k m = match lookupKey k md with
        | some v => some (.caller v)
        | none => (lookupKey k s.res.mapping).map .decoded

/-- Where MERGE has no result to overlay: after a fault the fault stays the answer and no mapping is offered (R140); before
any decode has ended the model stops by name (R138: defined only for a decode that reached DONE; log 10). -/
def Obligations.MergeWithoutResult : Prop :=
  ∀ (md : List (Key × MetaValue)) (s : State),
    (s.phase = .fault → exec (.merge md) s = .next { s with out := none }) ∧
    (s.phase = .idle ∨ s.phase = .busy → exec (.merge md) s = .fault .mergeWithoutDecode)

/-! ### Coordinates and text -/

/-- R91, R96: D00's wording gives the same values. The minutes are the digit string's last six characters over 10^4 for
latitude, its last five over 10^3 for longitude; value = degrees + minutes/60, sign applied. -/
def Obligations.DegreesPlusMinutesOverSixty : Prop :=
  ∀ c : Coord, (∀ d ∈ digits c, d ≤ 9) →
    latitudeValue (latitudeOf c) = (if c.h then -1 else 1) *
      ((decimal ((digits c).take 2) : Rat) + ((decimal ((digits c).drop 2 ++ [0]) : Rat) / 10 ^ 4) / 60) ∧
    longitudeValue (longitudeOf c) = (if c.h then -1 else 1) *
      ((decimal ((digits c).take 3) : Rat) + ((decimal ((digits c).drop 3 ++ [0]) : Rat) / 10 ^ 3) / 60)

/-- R104: ranges and granularity of the two values for valid digits. The sub-fields are the digits' own numbers, whatever they
are: 0 to 99 or 999 degrees, minutes of 60 and more among them, with no clamp; digits 9999999 attain both upper ends. `neg` is
always the hemisphere bit, and there is one value 0 whichever `neg` is. -/
def Obligations.CoordinateRanges : Prop :=
  (∀ c : Coord, (∀ d ∈ digits c, d ≤ 9) →
    (latitudeOf c).deg.toNat = decimal ((digits c).take 2) ∧ (latitudeOf c).m5.toNat = decimal ((digits c).drop 2) ∧
    (longitudeOf c).deg.toNat = decimal ((digits c).take 3) ∧ (longitudeOf c).m4.toNat = decimal ((digits c).drop 3) ∧
    |latitudeValue (latitudeOf c)| = ((latitudeOf c).deg.toNat : Rat) + ((latitudeOf c).m5.toNat : Rat) / 60000 ∧
    (latitudeOf c).deg.toNat ≤ 99 ∧ (latitudeOf c).m5.toNat ≤ 99999 ∧
    |latitudeValue (latitudeOf c)| ≤ 10066665 / 100000 ∧
    (∃ k : Nat, |latitudeValue (latitudeOf c)| = (k : Rat) / 60000) ∧
    |longitudeValue (longitudeOf c)| = ((longitudeOf c).deg.toNat : Rat) + ((longitudeOf c).m4.toNat : Rat) / 6000 ∧
    (longitudeOf c).deg.toNat ≤ 999 ∧ (longitudeOf c).m4.toNat ≤ 9999 ∧
    |longitudeValue (longitudeOf c)| ≤ 10006665 / 10000 ∧
    (∃ k : Nat, |longitudeValue (longitudeOf c)| = (k : Rat) / 6000) ∧
    (latitudeOf c).neg = c.h ∧ (longitudeOf c).neg = c.h) ∧
  (∀ (x : BitVec 3) (h : Bool), |latitudeValue (latitudeOf ⟨9, 9, 9, 9, 9, 9, 9, x, h⟩)| = 10066665 / 100000 ∧
    |longitudeValue (longitudeOf ⟨9, 9, 9, 9, 9, 9, 9, x, h⟩)| = 10006665 / 10000) ∧
  (∀ neg : Bool, latitudeValue ⟨neg, 0, 0⟩ = 0 ∧ longitudeValue ⟨neg, 0, 0⟩ = 0)

/-- R102: for valid digits the three results of an axis depend on the digits and the hemisphere bit only (not on the ignored
bits, not on the state); the strings tell any two such operands apart; the decimal value does not (45°60,0000 and 46°00,0000), nor
does it show `h` at 0. -/
def Obligations.StringsTellCoordinatesApart : Prop :=
  (∀ (c : Coord) (x : BitVec 3) (s s' : State), (∀ d ∈ digits c, d ≤ 9) →
    ∃ t t' u u', exec (.lat c) s = .next t ∧ exec (.lat { c with ignored := x }) s' = .next t' ∧
      (∀ g ∈ [Reg.latitude, .latitudeDm, .latitudeHemisphere], t.res.get g = t'.res.get g) ∧
      exec (.lon c) s = .next u ∧ exec (.lon { c with ignored := x }) s' = .next u' ∧
      (∀ g ∈ [Reg.longitude, .longitudeDm, .longitudeHemisphere], u.res.get g = u'.res.get g)) ∧
  (∀ c c' : Coord, (∀ d ∈ digits c, d ≤ 9) → (∀ d ∈ digits c', d ≤ 9) →
    (dmString 2 (latLetter c.h) c = dmString 2 (latLetter c'.h) c' → c' = { c with ignored := c'.ignored }) ∧
    (dmString 3 (lonLetter c.h) c = dmString 3 (lonLetter c'.h) c' → c' = { c with ignored := c'.ignored })) ∧
  latitudeValue (latitudeOf ⟨4, 5, 6, 0, 0, 0, 0, 0, false⟩) = latitudeValue (latitudeOf ⟨4, 6, 0, 0, 0, 0, 0, 0, false⟩) ∧
  latitudeValue (latitudeOf ⟨0, 0, 0, 0, 0, 0, 0, 0, true⟩) = latitudeValue (latitudeOf ⟨0, 0, 0, 0, 0, 0, 0, 0, false⟩)

/-- DECSTR answers a decimal numeral whose value differs from its argument by at most 0.0001, without a comma (00_scope.md
section 5). The model's own choices, log 3 (DESIGN CHOICE and DEDUCED): which texts `numeralValue` reads as numerals (a digit on
both sides of a point, no bare point), and the check by which `decstr` keeps an implementation's own text, which passes exactly
the texts that meet the contract so read. -/
def Obligations.DecstrKeepsItsContract : Prop :=
  (∀ q : Rat, ∃ v, numeralValue (decstr q) = some v ∧ |v - q| ≤ 1 / 10000 ∧ (0x2C : Char8) ∉ decstr q) ∧
  (∀ (q : Rat) (txt : Str), decstrOk q txt = true ↔ ∃ v, numeralValue txt = some v ∧ |v - q| ≤ 1 / 10000)

/-- The corner case of R101: whatever DECSTR is, `lonlat` splits at its one comma into the longitude's and the latitude's
numeral, each within 0.0001 of its register's value, and in no other way. -/
def Obligations.LonlatSplitsAtItsComma : Prop :=
  ∀ (n : Nat) (lo : Longitude) (la : Latitude), ∃ a b va vb,
    lonlatResult n false false (some lo) (some la) = a ++ (0x2C : Char8) :: b ∧
    numeralValue a = some va ∧ |va - longitudeValue lo| ≤ 1 / 10000 ∧
    numeralValue b = some vb ∧ |vb - latitudeValue la| ≤ 1 / 10000 ∧
    ∀ a' b', lonlatResult n false false (some lo) (some la) = a' ++ (0x2C : Char8) :: b' → a' = a ∧ b' = b

/-- R139: the laws of the overlay, for values of any type, MERGE's `Merged` among them: its keys are those of both mappings, it agrees with the second on the
second's keys and with the first elsewhere, the empty mapping changes nothing, doing it twice changes nothing more, and, where
there are two different values, it is not commutative. -/
def Obligations.OverlayLaws : Prop :=
  ∀ α : Type,
    (∀ (r m : List (Key × α)) (k : Key), lookupKey k (overlay r m) = (lookupKey k m).or (lookupKey k r)) ∧
    (∀ (r m : List (Key × α)) (k : Key),
      (lookupKey k (overlay r m)).isSome = ((lookupKey k r).isSome || (lookupKey k m).isSome)) ∧
    (∀ r : List (Key × α), overlay r [] = r) ∧
    (∀ r m : List (Key × α), keysDistinct m = true → overlay (overlay r m) m = overlay r m) ∧
    (∀ a b : α, a ≠ b → ∃ (r m : List (Key × α)) (k : Key), lookupKey k (overlay r m) ≠ lookupKey k (overlay m r))

/-- R24: RES has exactly the names of the present registers as keys, no key twice, and each register's value at its name. -/
def Obligations.MappingIsTheRegisters : Prop :=
  ∀ r : Results, keysDistinct r.mapping = true ∧ (∀ g : Reg, lookupKey g.key r.mapping = r.get g) ∧
    ∀ k, lookupKey k r.mapping ≠ none → ∃ g : Reg, g.key = k ∧ r.pres g = true

/-! ### The sequencer -/

/-- When the bytes at the cursor decode to an instruction, the step is that instruction's meaning followed by what the
sequencer adds (`retire`, whose effect the second half spells out): the cursor's advance at the end of the groups GPS and
RSSI_SNR, the sequencer's next place, and `CUR` and DONE after PORT. -/
def Obligations.StepRunsDecodedInstruction : Prop :=
  (∀ (s : State) (i : Instr), Decoding s → decode s.nextOp s.cur s.bytes = .ok i →
    ∃ t, exec i s = .next t ∧ step s = .next (t.retire s.nextOp)) ∧
  (∀ (t : State) (o : Op), t.retire o =
    { t with
      seq := o.next
      cur := t.cur + (if o = .lonlat then 9 else if o = .snr then 2 else 0)
      phase := if o = .port then .done else t.phase
      curOut := if o = .port then t.cur else t.curOut })

/-- The operation the sequencer runs next is enabled by the latched flags, stands at the sequencer's place or after it in the
fixed order, and no enabled operation in between is left out. -/
def Obligations.NextOperationIsTheFirstEnabled : Prop :=
  ∀ s : State, s.nextOp.enabled s.flags = true ∧ s.seq.index ≤ s.nextOp.index ∧
    ∀ o : Op, s.seq.index ≤ o.index → o.index < s.nextOp.index → o.enabled s.flags = false

/-- R70: STATUS runs on byte 0 whatever the flags are, and writes `F`, the eight flag registers and the cursor; or raises
ShortBufferError(STATUS, 0) when `len = 0`. -/
def Obligations.StatusStep : Prop :=
  ∀ s : State, Decoding s → s.nextOp = .status →
    (s.len = 0 → step s = .next (s.raise .shortBuffer .status 0)) ∧
    (1 ≤ s.len → ∃ t, step s = .next t ∧ t.phase = .busy ∧ t.flags = s.byteAt 0 ∧ t.cur = 1 ∧ t.seq = .temp ∧
      t.res.get .rssiSnrReported = some (.flag ((s.byteAt 0).getLsbD 0)) ∧
      t.res.get .batteryLevelReported = some (.flag ((s.byteAt 0).getLsbD 1)) ∧
      t.res.get .downlinkCounterReported = some (.flag ((s.byteAt 0).getLsbD 2)) ∧
      t.res.get .uplinkCounterReported = some (.flag ((s.byteAt 0).getLsbD 3)) ∧
      t.res.get .gpsReported = some (.flag ((s.byteAt 0).getLsbD 4)) ∧
      t.res.get .triggeredByPushbutton = some (.flag ((s.byteAt 0).getLsbD 5)) ∧
      t.res.get .triggeredByAccelerometer = some (.flag ((s.byteAt 0).getLsbD 6)) ∧
      t.res.get .temperatureReported = some (.flag ((s.byteAt 0).getLsbD 7)))

/-- R80: TEMP reads one byte at the cursor, or raises ShortBufferError(TEMP, cur); it is enabled by bit 7 and starts at
index 1 in every state that meets the invariant. -/
def Obligations.TempStep : Prop :=
  ∀ s : State, Decoding s → s.nextOp = .temp →
    s.flags.getLsbD 7 = true ∧ (Inv s → s.cur = 1) ∧
    (s.len < s.cur + 1 → step s = .next (s.raise .shortBuffer .temp s.cur)) ∧
    (s.cur + 1 ≤ s.len → ∃ t, step s = .next t ∧ t.phase = .busy ∧ t.cur = s.cur + 1 ∧ t.flags = s.flags ∧
      t.res.get .temperature = some (.num
        (if (s.byteAt s.cur).getLsbD 7 then ((s.byteAt s.cur &&& 0x7F).toNat : Int) - 128 else (s.byteAt s.cur).toNat)) ∧
      OtherRegistersKept [.temperature] s t)

/-- R112, R113: each counter reads one byte at the cursor, or raises ShortBufferError with its own group. -/
def Obligations.CounterSteps : Prop :=
  ∀ s : State, Decoding s →
    (s.nextOp = .upcnt → s.flags.getLsbD 3 = true ∧
      (s.len < s.cur + 1 → step s = .next (s.raise .shortBuffer .upcnt s.cur)) ∧
      (s.cur + 1 ≤ s.len → ∃ t, step s = .next t ∧ t.phase = .busy ∧ t.cur = s.cur + 1 ∧ t.flags = s.flags ∧
        t.res.get .uplinkCounter = some (.num (s.byteAt s.cur).toNat) ∧ OtherRegistersKept [.uplinkCounter] s t)) ∧
    (s.nextOp = .dncnt → s.flags.getLsbD 2 = true ∧
      (s.len < s.cur + 1 → step s = .next (s.raise .shortBuffer .dncnt s.cur)) ∧
      (s.cur + 1 ≤ s.len → ∃ t, step s = .next t ∧ t.phase = .busy ∧ t.cur = s.cur + 1 ∧ t.flags = s.flags ∧
        t.res.get .downlinkCounter = some (.num (s.byteAt s.cur).toNat) ∧ OtherRegistersKept [.downlinkCounter] s t))

/-- R114: BATT reads two bytes, big-endian, both or none: with one of them missing it raises ShortBufferError(BATT, cur). -/
def Obligations.BattStep : Prop :=
  ∀ s : State, Decoding s → s.nextOp = .batt → s.flags.getLsbD 1 = true ∧
    (s.len < s.cur + 2 → step s = .next (s.raise .shortBuffer .batt s.cur)) ∧
    (s.cur + 2 ≤ s.len → ∃ t, step s = .next t ∧ t.phase = .busy ∧ t.cur = s.cur + 2 ∧ t.flags = s.flags ∧
      t.res.get .batteryLevel = some (.num (256 * (s.byteAt s.cur).toNat + (s.byteAt (s.cur + 1)).toNat : Nat)) ∧
      OtherRegistersKept [.batteryLevel] s t)

/-- R100: the GPS group checks nine bytes, then runs LAT, LON, QUAL and LONLAT on its bytes 0..3, 4..7, 8 and none, then moves
the cursor by 9; with a byte missing nothing of it is written and the decode faults. -/
def Obligations.GpsGroupRuns : Prop :=
  ∀ s : State, Decoding s → s.nextOp = .lat → s.flags.getLsbD 4 = true ∧
    (s.len < s.cur + 9 → step s = .next (s.raise .shortBuffer .gps s.cur)) ∧
    (s.cur + 9 ≤ s.len →
      ∃ t u v w,
        exec (.lat (coordOf (s.byteAt s.cur) (s.byteAt (s.cur + 1)) (s.byteAt (s.cur + 2)) (s.byteAt (s.cur + 3)))) s
          = .next t ∧
        exec (.lon (coordOf (s.byteAt (s.cur + 4)) (s.byteAt (s.cur + 5)) (s.byteAt (s.cur + 6)) (s.byteAt (s.cur + 7))))
          { t with seq := .lon } = .next u ∧
        exec (.qual (hiNibble (s.byteAt (s.cur + 8))) (loNibble (s.byteAt (s.cur + 8)))) { u with seq := .qual } = .next v ∧
        exec .lonlat { v with seq := .lonlat } = .next w ∧
        Host.Core.run core 4 s = .next { w with seq := .upcnt, cur := s.cur + 9 } ∧
        OtherRegistersKept [.latitude, .latitudeDm, .latitudeHemisphere, .longitude, .longitudeDm, .longitudeHemisphere,
          .lonlat, .satellites, .reception] s w)

/-- R115, R116, R117: the RSSI_SNR group checks two bytes, runs RSSI on the first and SNR on the second, and moves the cursor by 2; with
one byte left neither is written and the decode faults. -/
def Obligations.RssiSnrGroupRuns : Prop :=
  ∀ s : State, Decoding s → s.nextOp = .rssi → s.flags.getLsbD 0 = true ∧
    (s.len < s.cur + 2 → step s = .next (s.raise .shortBuffer .rssiSnr s.cur)) ∧
    (s.cur + 2 ≤ s.len → ∃ t, Host.Core.run core 2 s = .next t ∧ t.phase = .busy ∧ t.seq = .hex ∧ t.cur = s.cur + 2 ∧
      t.res.get .rssi = some (.num (-((s.byteAt s.cur).toNat : Int))) ∧
      t.res.get .snr = some (.num (s.byteAt (s.cur + 1)).toNat) ∧ t.flags = s.flags ∧
      OtherRegistersKept [.rssi, .snr] s t)

/-- R133 and R122 step 8: HEX, LEN and PORT are enabled by every status byte and run after step 7; they write their three
registers and move no cursor; then `CUR <- cur` and DONE. In a decode that faults they have not run and are not valid. -/
def Obligations.FinalGroupRuns : Prop :=
  (∀ s : State, Decoding s → s.nextOp = .hex →
    ∃ t, Host.Core.run core 3 s = .next t ∧ t.phase = .done ∧ t.curOut = s.cur ∧ t.cur = s.cur ∧
      t.res.get .hex = some (.text (hexString s.bytes)) ∧ t.res.get .length = some (.num s.len) ∧
      t.res.get .port = some (.num s.port) ∧ OtherRegistersKept [.hex, .length, .port] s t) ∧
  (∀ f : Byte, Op.hex.enabled f = true ∧ Op.len.enabled f = true ∧ Op.port.enabled f = true) ∧
  (∀ s t : State, Decoding s → step s = .next t → t.phase = .fault →
    s.nextOp.index < Op.hex.index ∧ ∀ g ∈ [Reg.hex, .length, .port], t.res.pres g = false)

/-! ### Faults -/

/-- R150: whenever a decode in progress ends in FAULT, it is by ShortBufferError; STATE, FAULT, FAULT_GROUP and FAULT_CUR show
it, nothing is present, and the buffer and the inputs are as before. (InputError is START's; `StartClearsAndChecks`.) -/
def Obligations.FaultEntry : Prop :=
  (∀ (s : State) (e : FaultCode) (g : Group) (c : Nat),
    (s.raise e g c).phase = .fault ∧ (s.raise e g c).fault = e ∧ (s.raise e g c).faultGroup = g ∧
    (s.raise e g c).faultCur = c ∧ NothingPresent (s.raise e g c)) ∧
  (∀ s t : State, Decoding s → step s = .next t → t.phase = .fault →
    ∃ g c, t = s.raise .shortBuffer g c ∧ ∀ a, t.byteAt a = s.byteAt a)

/-- R146: what a ShortBufferError records, in every state that meets the invariant: the group whose check failed, which the
flags announce, and its start index by the layout; the groups before it fit, and some byte of the group is at
or beyond `len`. -/
def Obligations.ShortBufferRecordsGroupAndStart : Prop :=
  [Group.status, .temp, .gps, .upcnt, .dncnt, .batt, .rssiSnr].map groupCode = [0, 1, 2, 3, 4, 5, 6] ∧
  ∀ s t : State, Inv s → Decoding s → step s = .next t → t.phase = .fault →
    t.fault.code = 2 ∧ t.faultGroup = s.nextOp.group ∧ t.faultGroup.present s.flags = true ∧
    t.faultCur = groupStart s.flags t.faultGroup ∧ t.faultCur ≤ s.len ∧
    s.len < groupStart s.flags t.faultGroup + t.faultGroup.width

/-- R143, R21: a port wider than PORT_W is refused at the boundary, whatever the block's state at rest; START clears every presence bit and FAULT and sets the cursor to 0; a `len` above PAYLOAD_MAX gives InputError
with group NONE and cursor 0, any other `len` a decode that begins at STATUS. -/
def Obligations.StartClearsAndChecks : Prop :=
  (∀ (s : State) (p : Nat) (rs : List HostRequest), s.phase ≠ .busy → s.requests = .setPort p :: rs →
    2 ^ Config.portW ≤ p → step s = .refused .portTooWide) ∧
  ∀ (s : State) (rs : List HostRequest), s.phase ≠ .busy → s.requests = .start :: rs →
    ∃ t, step s = .next t ∧ t.cur = 0 ∧ NothingPresent t ∧ t.requests = rs ∧
      (∀ a, t.byteAt a = s.byteAt a) ∧ t.len = s.len ∧ t.port = s.port ∧
      (Config.payloadMax < s.len → t.phase = .fault ∧ t.fault.code = 1 ∧ groupCode t.faultGroup = 7 ∧ t.faultCur = 0) ∧
      (s.len ≤ Config.payloadMax → t.phase = .busy ∧ t.fault.code = 0 ∧ t.seq = .status)

/-- R145: LookupError is code 3, and no step makes FAULT show it. -/
def Obligations.LookupErrorNeverRaised : Prop :=
  FaultCode.lookupError.code = 3 ∧
  ∀ s t : State, s.fault.code ≠ 3 → step s = .next t → t.fault.code ≠ 3

/-- Every step answers a next state, but for two, both of a host action taken while no decode runs: MERGE in IDLE, where there is
no decode to merge with (log 10), and a port wider than PORT_W, which is refused (R143, U4). -/
def Obligations.StepAlwaysAnswers : Prop :=
  ∀ s : State, (∃ t, step s = .next t) ∨
    (s.phase = .idle ∧ (∃ md rs, s.requests = .merge md :: rs) ∧ step s = .fault .mergeWithoutDecode) ∨
    (s.phase ≠ .busy ∧ (∃ p rs, s.requests = .setPort p :: rs ∧ 2 ^ Config.portW ≤ p) ∧ step s = .refused .portTooWide)

/-! ### The whole machine -/

/-- R166, R168: reset, at any time, leaves IDLE, FAULT 0 and nothing present, and does not touch the host's inputs. -/
def Obligations.ResetAtAnyTime : Prop :=
  ∀ (s : State) (rs : List HostRequest), s.requests = .reset :: rs →
    ∃ t, step s = .next t ∧ t.phase.code = 0 ∧ t.fault.code = 0 ∧ NothingPresent t ∧
      (∀ a, t.byteAt a = s.byteAt a) ∧ t.len = s.len ∧ t.port = s.port ∧ t.requests = rs

/-- R21: results are read only in DONE, and there only where present; what the host observes in IDLE, DONE or FAULT does not
change until START or reset, whatever else the host does; START clears every presence bit, FAULT and the cursor. -/
def Obligations.ResultsHoldUntilStartOrReset : Prop :=
  (∀ (s : State) (g : Reg), s.phase ≠ .done → s.hostRead g = none) ∧
  (∀ s t : State, s.phase ≠ .busy → s.requests.head? ≠ some .start → s.requests.head? ≠ some .reset →
    step s = .next t → t.observe = s.observe ∧ ∀ g, t.hostRead g = s.hostRead g) ∧
  (∀ s t : State, s.phase ≠ .busy → s.requests.head? = some .start → step s = .next t →
    (∀ g, t.hostRead g = none) ∧ NothingPresent t ∧ t.cur = 0 ∧ (t.phase = .busy → t.fault = .none))

/-- R170's three preparations, each at rest and in any order. What the host places in a canonical buffer is what the block
reads, up to the buffer's capacity, and the other indices keep their bytes (the capacity's clause: log 24); `len` becomes the
number it sets, any number; `port` the number it sets, if that has PORT_W bits (a wider one: `StartClearsAndChecks`).
Each changes nothing else. -/
def Obligations.HostPlacesTheBytes : Prop :=
  (∀ (s : State) (bs : List Byte) (rs : List HostRequest), s.phase ≠ .busy → s.requests = .place bs :: rs →
    s.payload.wf = true →
    ∃ t, step s = .next t ∧
      (∀ i, i < bs.length → i < Config.payloadMax → t.byteAt i = bs.getD i 0) ∧
      (∀ i, bs.length ≤ i ∨ Config.payloadMax ≤ i → t.byteAt i = s.byteAt i) ∧
      t = { s with payload := t.payload, requests := rs }) ∧
  (∀ (s : State) (n : Nat) (rs : List HostRequest), s.phase ≠ .busy → s.requests = .setLen n :: rs →
    step s = .next { s with len := n, requests := rs }) ∧
  (∀ (s : State) (p : Nat) (rs : List HostRequest), s.phase ≠ .busy → s.requests = .setPort p :: rs →
    p < 2 ^ Config.portW → step s = .next { s with port := p, requests := rs })

/-- While BUSY the host's pending actions, a reset and a wait apart, are neither taken nor seen; a wait is dropped. The
inputs cannot change under a decode (R174, R176; the model's choice of how the host waits is log 9). -/
def Obligations.HostWaitsWhileBusy : Prop :=
  (∀ (s t : State) (rs : List HostRequest), s.phase = .busy → rs.head? ≠ some .reset → rs.head? ≠ some .wait →
    step { s with requests := [] } = .next t → step { s with requests := rs } = .next { t with requests := rs }) ∧
  (∀ (s : State) (rs : List HostRequest), s.phase = .busy → rs.head? ≠ some .reset → rs.head? ≠ some .wait →
    step { s with requests := .wait :: rs } = step { s with requests := rs })

/-- R34: no operation writes the payload, and no step of a decode does. -/
def Obligations.PayloadIsNeverWritten : Prop :=
  (∀ (i : Instr) (s t : State), exec i s = .next t →
    (∀ a, t.byteAt a = s.byteAt a) ∧ t.len = s.len ∧ t.port = s.port) ∧
  (∀ s t : State, s.phase = .busy → step s = .next t →
    (∀ a, t.byteAt a = s.byteAt a) ∧ t.len = s.len ∧ t.port = s.port)

/-- R13, R22: each result register is written by the one operation R13 names: any other leaves it as it was. -/
def Obligations.OneWriterForEachRegister : Prop :=
  ∀ (i : Instr) (s t : State) (g : Reg), exec i s = .next t → i.op ≠ some g.writer → t.res.get g = s.res.get g

/-- R12: `F` is written by STATUS alone, with the status byte, and shown bit for bit by the flag registers. -/
def Obligations.OnlyStatusWritesFlags : Prop :=
  (∀ (i : Instr) (s t : State), exec i s = .next t → i.op ≠ some .status → t.flags = s.flags) ∧
  (∀ s t : State, Inv s → Decoding s → step s = .next t → t.phase ≠ .fault → t.flags = s.byteAt 0) ∧
  (∀ s : State, Inv s → s.phase = .done → s.res.get .temperatureReported = some (.flag (s.flags.getLsbD 7)) ∧
    s.res.get .triggeredByAccelerometer = some (.flag (s.flags.getLsbD 6)) ∧
    s.res.get .triggeredByPushbutton = some (.flag (s.flags.getLsbD 5)) ∧
    s.res.get .gpsReported = some (.flag (s.flags.getLsbD 4)) ∧
    s.res.get .uplinkCounterReported = some (.flag (s.flags.getLsbD 3)) ∧
    s.res.get .downlinkCounterReported = some (.flag (s.flags.getLsbD 2)) ∧
    s.res.get .batteryLevelReported = some (.flag (s.flags.getLsbD 1)) ∧
    s.res.get .rssiSnrReported = some (.flag (s.flags.getLsbD 0)))

/-- R11: in every state that meets the invariant the cursor moves by the width of what ran, never back, never beyond the
input, and the input never beyond PAYLOAD_MAX; at the end it is the layout length, at most 17. -/
def Obligations.CursorOnlyMovesForward : Prop :=
  ∀ s t : State, Inv s → Decoding s → step s = .next t → t.phase ≠ .fault →
    t.cur = s.cur + s.nextOp.advance ∧ t.cur ≤ t.len ∧ t.len ≤ Config.payloadMax ∧
    (t.phase = .done → t.cur = layoutLength t.flags ∧ t.curOut = t.cur ∧ t.cur ≤ 17)

/-- R20: after reset the block is IDLE, shows no fault and offers nothing; and that state meets the invariant. -/
def Obligations.ResetMeetsInvariant : Prop :=
  State.reset.phase.code = 0 ∧ State.reset.fault.code = 0 ∧ NothingPresent State.reset ∧ Inv State.reset

/-- The invariant is kept by every step from every state that meets it: canonical buffer within its capacity, every register
in its range, the cursor at its place in the layout, presence bits exactly as STATE and the flags say. -/
def Obligations.StepKeepsInvariant : Prop :=
  ∀ s t : State, Inv s → step s = .next t → Inv t

/-- R137: a decode started from any state that is not BUSY ends within fifteen steps, START among them, and what the host then
observes is `Decode(payload, len, port)` computed in one go from the layout (R181), whatever the state held before. -/
def Obligations.DecodeIsOneFunction : Prop :=
  ∀ s : State, s.phase ≠ .busy → s.requests = [.start] →
    ∃ t, Host.Core.run core 15 s = .next t ∧ t.observe = decodeTransaction s.bytes s.port s.draws

/-- R56: the layout length, its bounds, its independence of bits 6 and 5, and that a decode reaches DONE if and only if no
InputError is raised and `len >= L(B[0])`, the final cursor then being `L(B[0])`. -/
def Obligations.DoneExactlyWhenLayoutFits : Prop :=
  (∀ b : Byte, layoutLength b = 1 + (b.getLsbD 7).toNat + 9 * (b.getLsbD 4).toNat + (b.getLsbD 3).toNat +
      (b.getLsbD 2).toNat + 2 * (b.getLsbD 1).toNat + 2 * (b.getLsbD 0).toNat ∧
    layoutLength (b &&& 0x9F) = layoutLength b ∧ 1 ≤ layoutLength b ∧ layoutLength b ≤ 17 ∧
    (layoutLength b = 1 ↔ b &&& 0x9F = 0) ∧ (layoutLength b = 17 ↔ b &&& 0x9F = 0x9F)) ∧
  (∀ s : State, s.phase ≠ .busy → s.requests = [.start] →
    ∃ t, Host.Core.run core 15 s = .next t ∧
      (t.phase = .done ↔ s.len ≤ Config.payloadMax ∧ 1 ≤ s.len ∧ layoutLength (s.byteAt 0) ≤ s.len) ∧
      (t.phase = .done → t.curOut = layoutLength (s.byteAt 0) ∧ t.cur = layoutLength (s.byteAt 0)))

/-- R136: the port is copied to the result, and two decodes that differ only in it differ only in `res[port]`. -/
def Obligations.PortIsOnlyCopied : Prop :=
  ∀ (s : State) (p : Nat), s.phase ≠ .busy → s.requests = [.start] →
    ∃ t, Host.Core.run core 15 s = .next t ∧ (t.phase = .done → t.res.port = some s.port) ∧
      Host.Core.run core 15 { s with port := p } =
        .next { t with port := p, res := { t.res with port := t.res.port.map fun _ => p } }

/-- R131: bytes at and beyond `L(B[0])` cause no fault and change no register but `hex` and `length`; `CUR` stays `L(B[0])`. -/
def Obligations.TrailingBytesChangeNothing : Prop :=
  ∀ s s' : State, s.phase ≠ .busy → s'.phase ≠ .busy → s.requests = [.start] → s'.requests = [.start] →
    layoutLength (s.byteAt 0) ≤ s.len → layoutLength (s.byteAt 0) ≤ s'.len →
    s.len ≤ Config.payloadMax → s'.len ≤ Config.payloadMax → s'.port = s.port → s'.draws = s.draws →
    (∀ i, i < layoutLength (s.byteAt 0) → s'.byteAt i = s.byteAt i) →
    ∃ t t', Host.Core.run core 15 s = .next t ∧ Host.Core.run core 15 s' = .next t' ∧ t.phase = .done ∧ t'.phase = .done ∧
      t.curOut = layoutLength (s.byteAt 0) ∧ t'.curOut = layoutLength (s.byteAt 0) ∧
      (∀ g, g ∉ [Reg.hex, Reg.length] → t'.res.get g = t.res.get g) ∧
      t'.res.get .hex = some (.text (hexString s'.bytes)) ∧ t'.res.get .length = some (.num s'.len)

/-- R4: what a decode shows depends on its inputs alone. Two states with nothing in common but the payload, `len` and `port`
(not the registers, not a fault shown, not the free values drawn so far) end in the same observation, unless the payload is
long enough for its layout and a coordinate digit in it is out of specification (R103's `any`). -/
def Obligations.HistoryDoesNotMatter : Prop :=
  ∀ s s' : State, s.phase ≠ .busy → s'.phase ≠ .busy → s.requests = [.start] → s'.requests = [.start] →
    s'.len = s.len → s'.port = s.port → (∀ i, i < s.len → s'.byteAt i = s.byteAt i) →
    ((s.byteAt 0).getLsbD 4 = true → layoutLength (s.byteAt 0) ≤ s.len →
      ∀ d ∈ digits (coordOf (s.byteAt (groupStart (s.byteAt 0) .gps)) (s.byteAt (groupStart (s.byteAt 0) .gps + 1))
            (s.byteAt (groupStart (s.byteAt 0) .gps + 2)) (s.byteAt (groupStart (s.byteAt 0) .gps + 3))) ++
          digits (coordOf (s.byteAt (groupStart (s.byteAt 0) .gps + 4)) (s.byteAt (groupStart (s.byteAt 0) .gps + 5))
            (s.byteAt (groupStart (s.byteAt 0) .gps + 6)) (s.byteAt (groupStart (s.byteAt 0) .gps + 7))), d ≤ 9) →
    ∃ t t', Host.Core.run core 15 s = .next t ∧ Host.Core.run core 15 s' = .next t' ∧ t'.observe = t.observe

/-- R140: a decode followed by MERGE is the fault if the decode faults, and else the overlay of META on the result. -/
def Obligations.DecodeThenMerge : Prop :=
  ∀ (s : State) (md : List (Key × MetaValue)), s.phase ≠ .busy → s.requests = [.start, .merge md] →
    ∃ t, Host.Core.run core 16 s = .next t ∧ t.observe = decodeTransaction s.bytes s.port s.draws ∧
      (∀ r c, decodeTransaction s.bytes s.port s.draws = .done r c →
        t.out = some (overlay (decodedEntries r.mapping) (callerEntries md))) ∧
      (∀ e g c, decodeTransaction s.bytes s.port s.draws = .fault e g c → t.out = none)
end

