-- ==== Sys2Proof/Laws/Decode.lean ====
section
/-!
SUPPORT. The decoder: what MemRead and `decode` answer, the flags as single bits, nibbles put together and taken apart, the
operations still to consider.
-/

namespace Sys2Proof

/-! ### Flags as bits -/

/-- An operation is enabled by the one bit its group stands for (R51, R59). -/
theorem Op.enabled_eq_present (f : Byte) (o : Op) :
    o.enabled f = match o.group with
      | .noGroup => true
      | g => g.present f := by
  cases o <;> simp only [Op.enabled, Op.mask, Op.group, Group.present] <;> revert f <;> decide

/-- A single status bit decides what its operation does; the bit numbers of R51. -/
theorem Op.enabled_bit (f : Byte) :
    Op.enabled f .status = true ∧ Op.enabled f .temp = f.getLsbD 7 ∧ Op.enabled f .lat = f.getLsbD 4 ∧
    Op.enabled f .lon = f.getLsbD 4 ∧ Op.enabled f .qual = f.getLsbD 4 ∧ Op.enabled f .lonlat = f.getLsbD 4 ∧
    Op.enabled f .upcnt = f.getLsbD 3 ∧ Op.enabled f .dncnt = f.getLsbD 2 ∧ Op.enabled f .batt = f.getLsbD 1 ∧
    Op.enabled f .rssi = f.getLsbD 0 ∧ Op.enabled f .snr = f.getLsbD 0 ∧ Op.enabled f .hex = true ∧
    Op.enabled f .len = true ∧ Op.enabled f .port = true := by
  revert f; decide

/-! ### MemRead and decode -/

/-- MemRead answers exactly when the bytes are all there (R31). -/
theorem memRead_isSome (p : List Byte) (addr n : Nat) : (memRead p addr n).isSome = true ↔ addr + n ≤ p.length := by
  simp only [memRead]; split <;> simp_all

/-- The bytes MemRead answers are those from `addr` on (R31). -/
theorem getD_of_memRead {p bs : List Byte} {addr n : Nat} (h : memRead p addr n = some bs) {k : Nat} (hk : k < n) :
    bs.getD k 0 = p.getD (addr + k) 0 := by
  simp only [memRead] at h
  split at h
  · obtain rfl := Option.some.inj h
    simp [List.getD_eq_getElem?_getD, hk]
  · cases h

/-- `decode` in one piece: with the group's bytes there, it reads the operand's fields from the group's start on; without
them it names the group and where it starts (R31, R146). -/
theorem decode_eq (o : Op) (cur : Nat) (p : List Byte) :
    decode o cur p =
      if o.need = 0 ∨ o.base cur + o.need ≤ p.length then .ok (decodeAt (fun k => p.getD (o.base cur + k) 0) o)
      else .error (.shortBuffer o.group (o.base cur)) := by
  unfold decode
  by_cases h0 : o.need = 0
  · simp only [h0, if_true, true_or]
    cases o <;> first | rfl | simp [Op.need] at h0
  · simp only [h0, if_false, false_or]
    by_cases hl : o.base cur + o.need ≤ p.length
    · obtain ⟨bs, hbs⟩ := Option.isSome_iff_exists.mp ((memRead_isSome p (o.base cur) o.need).mpr hl)
      have hg : ∀ k, k < o.need → bs.getD k 0 = p.getD (o.base cur + k) 0 := fun k hk => getD_of_memRead hbs hk
      simp only [hbs, hl, if_true]
      cases o <;> simp_all [Op.need, decodeAt]
    · have hn : memRead p (o.base cur) o.need = none := by
        simp only [memRead, hl, if_false]
      simp only [hn, hl, if_false]

/-- The decoder's instruction is one of the operation it was asked for. -/
theorem decodeAt_op (b : Nat → Byte) (o : Op) : (decodeAt b o).op = some o := by
  cases o <;> rfl

/-! ### Nibbles and bytes -/

@[simp] theorem hiNibble_append (a b : Nibble) : hiNibble (a ++ b) = a := by
  revert a b; decide

@[simp] theorem loNibble_append (a b : Nibble) : loNibble (a ++ b) = b := by
  revert a b; decide

@[simp] theorem append_nibbles (b : Byte) : hiNibble b ++ loNibble b = b := by
  revert b; decide

/-- The fourth coordinate byte put together and taken apart (R53). -/
theorem fourthByte_fields (d : Nibble) (x : BitVec 3) (h : Bool) :
    hiNibble (d ++ (x ++ BitVec.ofBool h) : Byte) = d ∧
    (d ++ (x ++ BitVec.ofBool h) : Byte).extractLsb' 1 3 = x ∧
    (d ++ (x ++ BitVec.ofBool h) : Byte).getLsbD 0 = h := by
  revert d x h; decide

/-- A coordinate's bytes read back as the coordinate (R53). -/
theorem coordOf_bytes (c : Coord) :
    coordOf (c.d0 ++ c.d1) (c.d2 ++ c.d3) (c.d4 ++ c.d5) (c.d6 ++ (c.ignored ++ BitVec.ofBool c.h)) = c := by
  obtain ⟨h1, h2, h3⟩ := fourthByte_fields c.d6 c.ignored c.h
  simp only [coordOf, hiNibble_append, loNibble_append, h1, h2, h3]

/-- Four bytes read as a coordinate are that coordinate's bytes (R53). -/
theorem bytes_coordOf (c0 c1 c2 c3 : Byte) : (coordOf c0 c1 c2 c3).bytes = [c0, c1, c2, c3] := by
  have h3 : hiNibble c3 ++ (c3.extractLsb' 1 3 ++ BitVec.ofBool (c3.getLsbD 0)) = c3 := by
    revert c3; decide
  simp only [Coord.bytes, coordOf, append_nibbles, h3]

/-- Two bytes joined big-endian are the 16-bit word with the first byte on top (R31, R32). -/
theorem bigEndian_pair (b0 b1 : Byte) : BitVec.ofNat 16 (bigEndian [b0, b1]) = b0 ++ b1 := by
  apply BitVec.eq_of_toNat_eq
  simp only [bigEndian, List.foldl, BitVec.toNat_ofNat, BitVec.toNat_append]
  have h0 := b0.isLt
  have h1 := b1.isLt
  rw [← Nat.shiftLeft_add_eq_or_of_lt h1, Nat.shiftLeft_eq]
  omega

/-- A 16-bit word is its two bytes joined, the high one first (R54 format V). -/
theorem append_bytes (v : BitVec 16) : v.extractLsb' 8 8 ++ v.extractLsb' 0 8 = v := by
  ext i hi
  simp only [BitVec.getElem_append, BitVec.getElem_extractLsb', Nat.zero_add]
  split
  · rw [BitVec.getLsbD_eq_getElem]
  · rw [show 8 + (i - 8) = i by omega, BitVec.getLsbD_eq_getElem]

/-- The two bytes of a joined word (R54 format V). -/
theorem bytes_append (x y : Byte) :
    (x ++ y : BitVec 16).extractLsb' 8 8 = x ∧ (x ++ y : BitVec 16).extractLsb' 0 8 = y := by
  constructor
  · ext i hi
    simp only [BitVec.getElem_extractLsb']
    rw [show (x ++ y : BitVec 16).getLsbD (8 + i) = _ from BitVec.getLsbD_append]
    simp [hi]
  · ext i hi
    simp only [BitVec.getElem_extractLsb']
    rw [show (x ++ y : BitVec 16).getLsbD (0 + i) = _ from BitVec.getLsbD_append]
    simp [hi]

/-- A byte is its sign selector and its magnitude (R52). -/
theorem append_signBit (b : Byte) : BitVec.ofBool (b.getLsbD 7) ++ b.extractLsb' 0 7 = b := by
  revert b; decide

/-! ### The operations still to consider -/

/-- From a place on, the first operation to consider is the place itself; after it come those of the next place (R122). -/
theorem Op.rest_eq (o : Op) (h : o ≠ .port) : o.rest = o :: o.next.rest := by
  cases o <;> first | rfl | exact absurd rfl h

theorem Op.rest_port : Op.rest .port = [.port] := rfl

end Sys2Proof
end

