-- ==== Sys2Proof/Laws/Memory.lean ====
section
/-!
SUPPORT. The payload buffer: a read after a write (20_memory.md R30), the canonical form kept by every operation, and which
indices are listed.
-/

namespace Sys2Proof.Machine

theorem Memory.get_cons (a' : Nat) (b : Byte) (m : Memory) (a : Nat) :
    Memory.get ((a', b) :: m) a = if a = a' then b else Memory.get m a := rfl

/-- An index below every listed one reads as an unlisted one. -/
theorem Memory.get_of_lt {m : Memory} {a : Nat} (h : ∀ c ∈ m, a < c.1) : Memory.get m a = Memory.blank := by
  induction m with
  | nil => rfl
  | cons c m ih =>
    have hc : a < c.1 := h c (by simp)
    rw [show c = (c.1, c.2) from rfl, Memory.get_cons, if_neg (by omega)]
    exact ih fun d hd => h d (by simp [hd])

theorem Memory.wf_nil : Memory.wf [] = true := by decide

theorem Memory.wf_cons {c : Host.Cell} {m : Memory} :
    Memory.wf (c :: m) = true ↔ (∀ d ∈ m, c.1 < d.1) ∧ c.2 ≠ Memory.blank ∧ Memory.wf m = true := by
  simp only [Memory.wf, Bool.and_eq_true, decide_eq_true_eq, List.pairwise_cons, List.all_cons, bne_iff_ne, ne_eq]
  tauto

/-- A write leaves in the list only what was there and the pair written. -/
theorem Memory.mem_set {m : Memory} {a : Nat} {b : Byte} {c : Host.Cell} (h : c ∈ m.set a b) : c ∈ m ∨ c = (a, b) := by
  induction m with
  | nil => simp only [Memory.set] at h; split at h <;> simp_all
  | cons d m ih =>
    simp only [Memory.set] at h
    split at h
    · split at h <;> (simp_all; try tauto)
    · split at h
      · split at h <;> (simp_all; try tauto)
      · rcases List.mem_cons.mp h with rfl | h
        · simp
        · rcases ih h with h | h <;> simp [h]

/-- A write keeps the canonical form. -/
theorem Memory.wf_set {m : Memory} (h : m.wf = true) (a : Nat) (b : Byte) : (m.set a b).wf = true := by
  induction m with
  | nil =>
    simp only [Memory.set]
    split
    · exact Memory.wf_nil
    · rename_i hb
      exact Memory.wf_cons.mpr ⟨by simp, hb, Memory.wf_nil⟩
  | cons d m ih =>
    obtain ⟨hlt, hne, hm⟩ := Memory.wf_cons.mp h
    simp only [Memory.set]
    split
    · rename_i had
      split
      · exact h
      · rename_i hb
        refine Memory.wf_cons.mpr ⟨?_, hb, h⟩
        intro c hc
        rcases List.mem_cons.mp hc with rfl | hc
        · exact had
        · exact Nat.lt_trans had (hlt c hc)
    · rename_i had
      split
      · rename_i heq
        split
        · exact hm
        · rename_i hb
          exact Memory.wf_cons.mpr ⟨fun c hc => by simpa [heq] using hlt c hc, hb, hm⟩
      · rename_i hne'
        refine Memory.wf_cons.mpr ⟨?_, hne, ih hm⟩
        intro c hc
        rcases Memory.mem_set hc with hc | rfl
        · exact hlt c hc
        · show d.1 < a
          omega

/-- Reading the index just written gives the byte written. -/
theorem Memory.get_set_same {m : Memory} (h : m.wf = true) (a : Nat) (b : Byte) : (m.set a b).get a = b := by
  induction m with
  | nil =>
    simp only [Memory.set]
    split <;> simp_all [Memory.get]
  | cons d m ih =>
    obtain ⟨hlt, -, hm⟩ := Memory.wf_cons.mp h
    simp only [Memory.set]
    split
    · rename_i had
      split
      · rename_i hb
        rw [Memory.get_cons, if_neg (by omega), Memory.get_of_lt fun c hc => Nat.lt_trans had (hlt c hc), hb]
      · rw [Memory.get_cons, if_pos rfl]
    · split
      · rename_i heq
        split
        · rename_i hb
          rw [Memory.get_of_lt fun c hc => by simpa [heq] using hlt c hc, hb]
        · rw [Memory.get_cons, if_pos rfl]
      · rename_i hne'
        rw [Memory.get_cons, if_neg hne', ih hm]

/-- Reading another index gives what was there. -/
theorem Memory.get_set_other (m : Memory) {a x : Nat} (b : Byte) (hx : x ≠ a) : (m.set a b).get x = m.get x := by
  induction m with
  | nil =>
    simp only [Memory.set]
    split <;> simp [Memory.get, hx]
  | cons d m ih =>
    simp only [Memory.set]
    split
    · split
      · rfl
      · rw [Memory.get_cons, if_neg hx]
    · split
      · rename_i heq
        have hd : x ≠ d.1 := heq ▸ hx
        split <;> simp [Memory.get, hx, hd]
      · rw [Memory.get_cons, Memory.get_cons, ih]

theorem Memory.wf_setBytes {m : Memory} (h : m.wf = true) (i : Nat) (bs : List Byte) : (m.setBytes i bs).wf = true := by
  induction bs generalizing m i with
  | nil => exact h
  | cons b bs ih => exact ih (Memory.wf_set h i b) (i + 1)

/-- Which pairs are listed after writing several bytes: old ones, and ones at the indices written. -/
theorem Memory.mem_setBytes {m : Memory} {i : Nat} {bs : List Byte} {c : Host.Cell} (h : c ∈ m.setBytes i bs) :
    c ∈ m ∨ (i ≤ c.1 ∧ c.1 < i + bs.length) := by
  induction bs generalizing m i with
  | nil => exact .inl h
  | cons b bs ih =>
    simp only [List.length_cons]
    rcases ih h with h | h
    · rcases Memory.mem_set h with h | rfl
      · exact .inl h
      · exact .inr ⟨Nat.le_refl _, by omega⟩
    · exact .inr ⟨by omega, by omega⟩

/-- The byte at an index after writing several from `i` on. -/
theorem Memory.get_setBytes {m : Memory} (h : m.wf = true) (i : Nat) (bs : List Byte) (x : Nat) :
    (m.setBytes i bs).get x = if i ≤ x ∧ x < i + bs.length then bs.getD (x - i) 0 else m.get x := by
  induction bs generalizing m i with
  | nil => simp [Memory.setBytes, show ¬ (i ≤ x ∧ x < i) by omega]
  | cons b bs ih =>
    simp only [Memory.setBytes, List.length_cons]
    rw [ih (Memory.wf_set h i b)]
    by_cases hx : x = i
    · subst hx
      rw [if_neg (by omega), if_pos (by omega), Memory.get_set_same h]
      simp
    · by_cases hin : i + 1 ≤ x ∧ x < i + 1 + bs.length
      · rw [if_pos hin, if_pos (by omega), show x - i = (x - (i + 1)) + 1 by omega]
        simp
      · rw [if_neg hin, if_neg (by omega), Memory.get_set_other m b hx]

end Sys2Proof.Machine
end

