-- ==== Sys2Proof/Laws/State.lean ====
section
/-!
SUPPORT. One lemma for each field and each named update of the state, so that no later proof unfolds a record update; and
the registers after `Results.writeFlags`.
-/

namespace Sys2Proof.Machine

/-! ### placeBytes -/

@[simp] theorem State.placeBytes_phase (s : State) (bs : List Byte) : (s.placeBytes bs).phase = s.phase := rfl
@[simp] theorem State.placeBytes_fault (s : State) (bs : List Byte) : (s.placeBytes bs).fault = s.fault := rfl
@[simp] theorem State.placeBytes_faultGroup (s : State) (bs : List Byte) : (s.placeBytes bs).faultGroup = s.faultGroup := rfl
@[simp] theorem State.placeBytes_faultCur (s : State) (bs : List Byte) : (s.placeBytes bs).faultCur = s.faultCur := rfl
@[simp] theorem State.placeBytes_curOut (s : State) (bs : List Byte) : (s.placeBytes bs).curOut = s.curOut := rfl
@[simp] theorem State.placeBytes_cur (s : State) (bs : List Byte) : (s.placeBytes bs).cur = s.cur := rfl
@[simp] theorem State.placeBytes_flags (s : State) (bs : List Byte) : (s.placeBytes bs).flags = s.flags := rfl
@[simp] theorem State.placeBytes_res (s : State) (bs : List Byte) : (s.placeBytes bs).res = s.res := rfl
@[simp] theorem State.placeBytes_payload (s : State) (bs : List Byte) : (s.placeBytes bs).payload = s.payload.setBytes 0 (bs.take Config.payloadMax) := rfl
@[simp] theorem State.placeBytes_len (s : State) (bs : List Byte) : (s.placeBytes bs).len = s.len := rfl
@[simp] theorem State.placeBytes_port (s : State) (bs : List Byte) : (s.placeBytes bs).port = s.port := rfl
@[simp] theorem State.placeBytes_requests (s : State) (bs : List Byte) : (s.placeBytes bs).requests = s.requests := rfl
@[simp] theorem State.placeBytes_seq (s : State) (bs : List Byte) : (s.placeBytes bs).seq = s.seq := rfl
@[simp] theorem State.placeBytes_latOpen (s : State) (bs : List Byte) : (s.placeBytes bs).latOpen = s.latOpen := rfl
@[simp] theorem State.placeBytes_lonOpen (s : State) (bs : List Byte) : (s.placeBytes bs).lonOpen = s.lonOpen := rfl
@[simp] theorem State.placeBytes_draws (s : State) (bs : List Byte) : (s.placeBytes bs).draws = s.draws := rfl
@[simp] theorem State.placeBytes_out (s : State) (bs : List Byte) : (s.placeBytes bs).out = s.out := rfl

/-! ### moveCursor -/

@[simp] theorem State.moveCursor_phase (s : State) (n : Nat) : (s.moveCursor n).phase = s.phase := rfl
@[simp] theorem State.moveCursor_fault (s : State) (n : Nat) : (s.moveCursor n).fault = s.fault := rfl
@[simp] theorem State.moveCursor_faultGroup (s : State) (n : Nat) : (s.moveCursor n).faultGroup = s.faultGroup := rfl
@[simp] theorem State.moveCursor_faultCur (s : State) (n : Nat) : (s.moveCursor n).faultCur = s.faultCur := rfl
@[simp] theorem State.moveCursor_curOut (s : State) (n : Nat) : (s.moveCursor n).curOut = s.curOut := rfl
@[simp] theorem State.moveCursor_cur (s : State) (n : Nat) : (s.moveCursor n).cur = s.cur + n := rfl
@[simp] theorem State.moveCursor_flags (s : State) (n : Nat) : (s.moveCursor n).flags = s.flags := rfl
@[simp] theorem State.moveCursor_res (s : State) (n : Nat) : (s.moveCursor n).res = s.res := rfl
@[simp] theorem State.moveCursor_payload (s : State) (n : Nat) : (s.moveCursor n).payload = s.payload := rfl
@[simp] theorem State.moveCursor_len (s : State) (n : Nat) : (s.moveCursor n).len = s.len := rfl
@[simp] theorem State.moveCursor_port (s : State) (n : Nat) : (s.moveCursor n).port = s.port := rfl
@[simp] theorem State.moveCursor_requests (s : State) (n : Nat) : (s.moveCursor n).requests = s.requests := rfl
@[simp] theorem State.moveCursor_seq (s : State) (n : Nat) : (s.moveCursor n).seq = s.seq := rfl
@[simp] theorem State.moveCursor_latOpen (s : State) (n : Nat) : (s.moveCursor n).latOpen = s.latOpen := rfl
@[simp] theorem State.moveCursor_lonOpen (s : State) (n : Nat) : (s.moveCursor n).lonOpen = s.lonOpen := rfl
@[simp] theorem State.moveCursor_draws (s : State) (n : Nat) : (s.moveCursor n).draws = s.draws := rfl
@[simp] theorem State.moveCursor_out (s : State) (n : Nat) : (s.moveCursor n).out = s.out := rfl

/-! ### countDraw -/

@[simp] theorem State.countDraw_phase (s : State) (b : Bool) : (s.countDraw b).phase = s.phase := rfl
@[simp] theorem State.countDraw_fault (s : State) (b : Bool) : (s.countDraw b).fault = s.fault := rfl
@[simp] theorem State.countDraw_faultGroup (s : State) (b : Bool) : (s.countDraw b).faultGroup = s.faultGroup := rfl
@[simp] theorem State.countDraw_faultCur (s : State) (b : Bool) : (s.countDraw b).faultCur = s.faultCur := rfl
@[simp] theorem State.countDraw_curOut (s : State) (b : Bool) : (s.countDraw b).curOut = s.curOut := rfl
@[simp] theorem State.countDraw_cur (s : State) (b : Bool) : (s.countDraw b).cur = s.cur := rfl
@[simp] theorem State.countDraw_flags (s : State) (b : Bool) : (s.countDraw b).flags = s.flags := rfl
@[simp] theorem State.countDraw_res (s : State) (b : Bool) : (s.countDraw b).res = s.res := rfl
@[simp] theorem State.countDraw_payload (s : State) (b : Bool) : (s.countDraw b).payload = s.payload := rfl
@[simp] theorem State.countDraw_len (s : State) (b : Bool) : (s.countDraw b).len = s.len := rfl
@[simp] theorem State.countDraw_port (s : State) (b : Bool) : (s.countDraw b).port = s.port := rfl
@[simp] theorem State.countDraw_requests (s : State) (b : Bool) : (s.countDraw b).requests = s.requests := rfl
@[simp] theorem State.countDraw_seq (s : State) (b : Bool) : (s.countDraw b).seq = s.seq := rfl
@[simp] theorem State.countDraw_latOpen (s : State) (b : Bool) : (s.countDraw b).latOpen = s.latOpen := rfl
@[simp] theorem State.countDraw_lonOpen (s : State) (b : Bool) : (s.countDraw b).lonOpen = s.lonOpen := rfl
@[simp] theorem State.countDraw_draws (s : State) (b : Bool) : (s.countDraw b).draws = s.draws + b.toNat := rfl
@[simp] theorem State.countDraw_out (s : State) (b : Bool) : (s.countDraw b).out = s.out := rfl

/-! ### raise -/

@[simp] theorem State.raise_phase (s : State) (e : FaultCode) (g : Group) (c : Nat) : (s.raise e g c).phase = .fault := rfl
@[simp] theorem State.raise_fault (s : State) (e : FaultCode) (g : Group) (c : Nat) : (s.raise e g c).fault = e := rfl
@[simp] theorem State.raise_faultGroup (s : State) (e : FaultCode) (g : Group) (c : Nat) : (s.raise e g c).faultGroup = g := rfl
@[simp] theorem State.raise_faultCur (s : State) (e : FaultCode) (g : Group) (c : Nat) : (s.raise e g c).faultCur = c := rfl
@[simp] theorem State.raise_curOut (s : State) (e : FaultCode) (g : Group) (c : Nat) : (s.raise e g c).curOut = s.curOut := rfl
@[simp] theorem State.raise_cur (s : State) (e : FaultCode) (g : Group) (c : Nat) : (s.raise e g c).cur = s.cur := rfl
@[simp] theorem State.raise_flags (s : State) (e : FaultCode) (g : Group) (c : Nat) : (s.raise e g c).flags = s.flags := rfl
@[simp] theorem State.raise_res (s : State) (e : FaultCode) (g : Group) (c : Nat) : (s.raise e g c).res = .empty := rfl
@[simp] theorem State.raise_payload (s : State) (e : FaultCode) (g : Group) (c : Nat) : (s.raise e g c).payload = s.payload := rfl
@[simp] theorem State.raise_len (s : State) (e : FaultCode) (g : Group) (c : Nat) : (s.raise e g c).len = s.len := rfl
@[simp] theorem State.raise_port (s : State) (e : FaultCode) (g : Group) (c : Nat) : (s.raise e g c).port = s.port := rfl
@[simp] theorem State.raise_requests (s : State) (e : FaultCode) (g : Group) (c : Nat) : (s.raise e g c).requests = s.requests := rfl
@[simp] theorem State.raise_seq (s : State) (e : FaultCode) (g : Group) (c : Nat) : (s.raise e g c).seq = .status := rfl
@[simp] theorem State.raise_latOpen (s : State) (e : FaultCode) (g : Group) (c : Nat) : (s.raise e g c).latOpen = s.latOpen := rfl
@[simp] theorem State.raise_lonOpen (s : State) (e : FaultCode) (g : Group) (c : Nat) : (s.raise e g c).lonOpen = s.lonOpen := rfl
@[simp] theorem State.raise_draws (s : State) (e : FaultCode) (g : Group) (c : Nat) : (s.raise e g c).draws = s.draws := rfl
@[simp] theorem State.raise_out (s : State) (e : FaultCode) (g : Group) (c : Nat) : (s.raise e g c).out = s.out := rfl

/-! ### resetBlock -/

@[simp] theorem State.resetBlock_phase (s : State) : (s.resetBlock).phase = .idle := rfl
@[simp] theorem State.resetBlock_fault (s : State) : (s.resetBlock).fault = .none := rfl
@[simp] theorem State.resetBlock_faultGroup (s : State) : (s.resetBlock).faultGroup = .status := rfl
@[simp] theorem State.resetBlock_faultCur (s : State) : (s.resetBlock).faultCur = 0 := rfl
@[simp] theorem State.resetBlock_curOut (s : State) : (s.resetBlock).curOut = 0 := rfl
@[simp] theorem State.resetBlock_cur (s : State) : (s.resetBlock).cur = 0 := rfl
@[simp] theorem State.resetBlock_flags (s : State) : (s.resetBlock).flags = 0 := rfl
@[simp] theorem State.resetBlock_res (s : State) : (s.resetBlock).res = .empty := rfl
@[simp] theorem State.resetBlock_payload (s : State) : (s.resetBlock).payload = s.payload := rfl
@[simp] theorem State.resetBlock_len (s : State) : (s.resetBlock).len = s.len := rfl
@[simp] theorem State.resetBlock_port (s : State) : (s.resetBlock).port = s.port := rfl
@[simp] theorem State.resetBlock_requests (s : State) : (s.resetBlock).requests = s.requests := rfl
@[simp] theorem State.resetBlock_seq (s : State) : (s.resetBlock).seq = .status := rfl
@[simp] theorem State.resetBlock_latOpen (s : State) : (s.resetBlock).latOpen = false := rfl
@[simp] theorem State.resetBlock_lonOpen (s : State) : (s.resetBlock).lonOpen = false := rfl
@[simp] theorem State.resetBlock_draws (s : State) : (s.resetBlock).draws = s.draws := rfl
@[simp] theorem State.resetBlock_out (s : State) : (s.resetBlock).out = none := rfl

/-! ### finish -/

@[simp] theorem State.finish_phase (s : State) : (s.finish).phase = .done := rfl
@[simp] theorem State.finish_fault (s : State) : (s.finish).fault = s.fault := rfl
@[simp] theorem State.finish_faultGroup (s : State) : (s.finish).faultGroup = s.faultGroup := rfl
@[simp] theorem State.finish_faultCur (s : State) : (s.finish).faultCur = s.faultCur := rfl
@[simp] theorem State.finish_curOut (s : State) : (s.finish).curOut = s.cur := rfl
@[simp] theorem State.finish_cur (s : State) : (s.finish).cur = s.cur := rfl
@[simp] theorem State.finish_flags (s : State) : (s.finish).flags = s.flags := rfl
@[simp] theorem State.finish_res (s : State) : (s.finish).res = s.res := rfl
@[simp] theorem State.finish_payload (s : State) : (s.finish).payload = s.payload := rfl
@[simp] theorem State.finish_len (s : State) : (s.finish).len = s.len := rfl
@[simp] theorem State.finish_port (s : State) : (s.finish).port = s.port := rfl
@[simp] theorem State.finish_requests (s : State) : (s.finish).requests = s.requests := rfl
@[simp] theorem State.finish_seq (s : State) : (s.finish).seq = .status := rfl
@[simp] theorem State.finish_latOpen (s : State) : (s.finish).latOpen = s.latOpen := rfl
@[simp] theorem State.finish_lonOpen (s : State) : (s.finish).lonOpen = s.lonOpen := rfl
@[simp] theorem State.finish_draws (s : State) : (s.finish).draws = s.draws := rfl
@[simp] theorem State.finish_out (s : State) : (s.finish).out = s.out := rfl

/-! ### startDecode -/

/-- START when the input does not fit: InputError (R143). -/
theorem State.startDecode_tooLong (s : State) (h : Config.payloadMax < s.len) :
    s.startDecode = State.raise { s with cur := 0, latOpen := false, lonOpen := false, out := none }
      .inputError .noGroup 0 := by
  simp only [State.startDecode, h, if_true]
  rfl

/-- START when the input fits: the block is BUSY at STATUS, with nothing shown (R21). -/
theorem State.startDecode_fits (s : State) (h : s.len ≤ Config.payloadMax) :
    s.startDecode = { s with phase := .busy, fault := .none, cur := 0, res := .empty, seq := .status,
                             latOpen := false, lonOpen := false, out := none } := by
  simp only [State.startDecode, Nat.not_lt.mpr h, if_false]

@[simp] theorem State.startDecode_payload (s : State) : s.startDecode.payload = s.payload := by
  simp only [State.startDecode]; split <;> rfl
@[simp] theorem State.startDecode_len (s : State) : s.startDecode.len = s.len := by
  simp only [State.startDecode]; split <;> rfl
@[simp] theorem State.startDecode_port (s : State) : s.startDecode.port = s.port := by
  simp only [State.startDecode]; split <;> rfl
@[simp] theorem State.startDecode_requests (s : State) : s.startDecode.requests = s.requests := by
  simp only [State.startDecode]; split <;> rfl
@[simp] theorem State.startDecode_draws (s : State) : s.startDecode.draws = s.draws := by
  simp only [State.startDecode]; split <;> rfl
@[simp] theorem State.startDecode_flags (s : State) : s.startDecode.flags = s.flags := by
  simp only [State.startDecode]; split <;> rfl
@[simp] theorem State.startDecode_curOut (s : State) : s.startDecode.curOut = s.curOut := by
  simp only [State.startDecode]; split <;> rfl
@[simp] theorem State.startDecode_cur (s : State) : s.startDecode.cur = 0 := by
  simp only [State.startDecode]; split <;> rfl
@[simp] theorem State.startDecode_res (s : State) : s.startDecode.res = .empty := by
  simp only [State.startDecode]; split <;> rfl
@[simp] theorem State.startDecode_seq (s : State) : s.startDecode.seq = .status := by
  simp only [State.startDecode]; split <;> rfl
@[simp] theorem State.startDecode_out (s : State) : s.startDecode.out = none := by
  simp only [State.startDecode]; split <;> rfl
@[simp] theorem State.startDecode_latOpen (s : State) : s.startDecode.latOpen = false := by
  simp only [State.startDecode]; split <;> rfl
@[simp] theorem State.startDecode_lonOpen (s : State) : s.startDecode.lonOpen = false := by
  simp only [State.startDecode]; split <;> rfl

/-! ### retire -/

@[simp] theorem State.retire_fault (s : State) (o : Op) : (s.retire o).fault = s.fault := by
  cases o <;> rfl
@[simp] theorem State.retire_faultGroup (s : State) (o : Op) : (s.retire o).faultGroup = s.faultGroup := by
  cases o <;> rfl
@[simp] theorem State.retire_faultCur (s : State) (o : Op) : (s.retire o).faultCur = s.faultCur := by
  cases o <;> rfl
@[simp] theorem State.retire_flags (s : State) (o : Op) : (s.retire o).flags = s.flags := by
  cases o <;> rfl
@[simp] theorem State.retire_res (s : State) (o : Op) : (s.retire o).res = s.res := by
  cases o <;> rfl
@[simp] theorem State.retire_payload (s : State) (o : Op) : (s.retire o).payload = s.payload := by
  cases o <;> rfl
@[simp] theorem State.retire_len (s : State) (o : Op) : (s.retire o).len = s.len := by
  cases o <;> rfl
@[simp] theorem State.retire_port (s : State) (o : Op) : (s.retire o).port = s.port := by
  cases o <;> rfl
@[simp] theorem State.retire_requests (s : State) (o : Op) : (s.retire o).requests = s.requests := by
  cases o <;> rfl
@[simp] theorem State.retire_latOpen (s : State) (o : Op) : (s.retire o).latOpen = s.latOpen := by
  cases o <;> rfl
@[simp] theorem State.retire_lonOpen (s : State) (o : Op) : (s.retire o).lonOpen = s.lonOpen := by
  cases o <;> rfl
@[simp] theorem State.retire_draws (s : State) (o : Op) : (s.retire o).draws = s.draws := by
  cases o <;> rfl
@[simp] theorem State.retire_out (s : State) (o : Op) : (s.retire o).out = s.out := by
  cases o <;> rfl

/-- The sequencer's next place (R122). -/
@[simp] theorem State.retire_seq (s : State) (o : Op) : (s.retire o).seq = o.next := by
  cases o <;> rfl

/-- STATE after an operation: DONE after PORT, otherwise as before (R122 step 8). -/
theorem State.retire_phase (s : State) (o : Op) : (s.retire o).phase = if o = .port then .done else s.phase := by
  cases o <;> rfl

/-- The cursor moves at the end of the groups GPS and RSSI_SNR (R100, R117). -/
theorem State.retire_cur (s : State) (o : Op) :
    (s.retire o).cur = s.cur + (if o = .lonlat then 9 else if o = .snr then 2 else 0) := by
  cases o <;> rfl

/-- CUR is written at the end of the decode (R122 step 8). -/
theorem State.retire_curOut (s : State) (o : Op) : (s.retire o).curOut = if o = .port then s.cur else s.curOut := by
  cases o <;> rfl

/-! ### writeFlags -/

@[simp] theorem Results.writeFlags_rssiSnrReported (r : Results) (b : Byte) : (r.writeFlags b).rssiSnrReported = some (statusFlag b 0) := rfl
@[simp] theorem Results.writeFlags_batteryLevelReported (r : Results) (b : Byte) : (r.writeFlags b).batteryLevelReported = some (statusFlag b 1) := rfl
@[simp] theorem Results.writeFlags_downlinkCounterReported (r : Results) (b : Byte) : (r.writeFlags b).downlinkCounterReported = some (statusFlag b 2) := rfl
@[simp] theorem Results.writeFlags_uplinkCounterReported (r : Results) (b : Byte) : (r.writeFlags b).uplinkCounterReported = some (statusFlag b 3) := rfl
@[simp] theorem Results.writeFlags_gpsReported (r : Results) (b : Byte) : (r.writeFlags b).gpsReported = some (statusFlag b 4) := rfl
@[simp] theorem Results.writeFlags_triggeredByPushbutton (r : Results) (b : Byte) : (r.writeFlags b).triggeredByPushbutton = some (statusFlag b 5) := rfl
@[simp] theorem Results.writeFlags_triggeredByAccelerometer (r : Results) (b : Byte) : (r.writeFlags b).triggeredByAccelerometer = some (statusFlag b 6) := rfl
@[simp] theorem Results.writeFlags_temperatureReported (r : Results) (b : Byte) : (r.writeFlags b).temperatureReported = some (statusFlag b 7) := rfl
@[simp] theorem Results.writeFlags_temperature (r : Results) (b : Byte) : (r.writeFlags b).temperature = r.temperature := rfl
@[simp] theorem Results.writeFlags_latitude (r : Results) (b : Byte) : (r.writeFlags b).latitude = r.latitude := rfl
@[simp] theorem Results.writeFlags_latitudeDm (r : Results) (b : Byte) : (r.writeFlags b).latitudeDm = r.latitudeDm := rfl
@[simp] theorem Results.writeFlags_latitudeHemisphere (r : Results) (b : Byte) : (r.writeFlags b).latitudeHemisphere = r.latitudeHemisphere := rfl
@[simp] theorem Results.writeFlags_longitude (r : Results) (b : Byte) : (r.writeFlags b).longitude = r.longitude := rfl
@[simp] theorem Results.writeFlags_longitudeDm (r : Results) (b : Byte) : (r.writeFlags b).longitudeDm = r.longitudeDm := rfl
@[simp] theorem Results.writeFlags_longitudeHemisphere (r : Results) (b : Byte) : (r.writeFlags b).longitudeHemisphere = r.longitudeHemisphere := rfl
@[simp] theorem Results.writeFlags_lonlat (r : Results) (b : Byte) : (r.writeFlags b).lonlat = r.lonlat := rfl
@[simp] theorem Results.writeFlags_satellites (r : Results) (b : Byte) : (r.writeFlags b).satellites = r.satellites := rfl
@[simp] theorem Results.writeFlags_reception (r : Results) (b : Byte) : (r.writeFlags b).reception = r.reception := rfl
@[simp] theorem Results.writeFlags_uplinkCounter (r : Results) (b : Byte) : (r.writeFlags b).uplinkCounter = r.uplinkCounter := rfl
@[simp] theorem Results.writeFlags_downlinkCounter (r : Results) (b : Byte) : (r.writeFlags b).downlinkCounter = r.downlinkCounter := rfl
@[simp] theorem Results.writeFlags_batteryLevel (r : Results) (b : Byte) : (r.writeFlags b).batteryLevel = r.batteryLevel := rfl
@[simp] theorem Results.writeFlags_rssi (r : Results) (b : Byte) : (r.writeFlags b).rssi = r.rssi := rfl
@[simp] theorem Results.writeFlags_snr (r : Results) (b : Byte) : (r.writeFlags b).snr = r.snr := rfl
@[simp] theorem Results.writeFlags_hex (r : Results) (b : Byte) : (r.writeFlags b).hex = r.hex := rfl
@[simp] theorem Results.writeFlags_length (r : Results) (b : Byte) : (r.writeFlags b).length = r.length := rfl
@[simp] theorem Results.writeFlags_port (r : Results) (b : Byte) : (r.writeFlags b).port = r.port := rfl

end Sys2Proof.Machine
end

