-- ==== Sys2Proof/Laws/Sequencer.lean ====
section
/-!
SUPPORT. What the sequencer can do: which operation comes next, what one step of a decode answers, and what one step of the
machine answers. Later proofs cite these and do not unfold `runOp`, `serve` or `stepMachine`.
-/

namespace Sys2Proof.Machine

/-! ### The next operation -/

theorem nextEnabled_eq (f : Byte) {o : Op} (h : o ≠ .port) :
    nextEnabled f o = if o.enabled f then o else nextEnabled f o.next := by
  unfold nextEnabled
  rw [Op.rest_eq o h, List.find?_cons]
  cases o.enabled f <;> rfl

theorem nextEnabled_port (f : Byte) : nextEnabled f .port = .port := by
  simp [nextEnabled, Op.rest_port, (Op.enabled_bit f).2.2.2.2.2.2.2.2.2.2.2.2.2]

/-- An enabled operation at the sequencer's place is the next one. -/
theorem nextEnabled_here {f : Byte} {o : Op} (h : o.enabled f = true) : nextEnabled f o = o := by
  by_cases hp : o = .port
  · rw [hp, nextEnabled_port]
  · rw [nextEnabled_eq f hp, if_pos h]

/-- A disabled operation at the sequencer's place is passed over. -/
theorem nextEnabled_skip {f : Byte} {o : Op} (h : o.enabled f = false) : nextEnabled f o = nextEnabled f o.next := by
  have hp : o ≠ .port := by
    rintro rfl
    rw [(Op.enabled_bit f).2.2.2.2.2.2.2.2.2.2.2.2.2] at h
    cases h
  rw [nextEnabled_eq f hp, h]
  rfl

/-- The next operation is always an enabled one. -/
theorem nextEnabled_enabled (f : Byte) (o : Op) : (nextEnabled f o).enabled f = true := by
  unfold nextEnabled
  cases h : o.rest.find? (Op.enabled f) with
  | none => exact (Op.enabled_bit f).2.2.2.2.2.2.2.2.2.2.2.1
  | some o => exact List.find?_some h

theorem State.nextOp_enabled (s : State) : s.nextOp.enabled s.flags = true := nextEnabled_enabled _ _

/-- The sequencer runs STATUS exactly when it stands there (R122). -/
theorem State.nextOp_eq_status (s : State) : s.nextOp = .status ↔ s.seq = .status := by
  constructor
  · intro h
    have hm : nextEnabled s.flags s.seq ∈ s.seq.rest ∨ nextEnabled s.flags s.seq = .hex := by
      unfold nextEnabled
      cases hf : s.seq.rest.find? (Op.enabled s.flags) with
      | none => exact .inr rfl
      | some o => exact .inl (List.mem_of_find?_eq_some hf)
    rw [show nextEnabled s.flags s.seq = .status from h] at hm
    revert hm
    generalize s.seq = q
    cases q <;> decide
  · intro h
    rw [State.nextOp, h]
    exact nextEnabled_here (Op.enabled_bit s.flags).1

/-- Past STATUS, the group of the next operation starts where the group at the sequencer's place does: what lies between is
absent and takes no byte (R50, R55). -/
theorem groupStart_nextEnabled (f : Byte) {o : Op} (h : o ≠ .status) :
    groupStart f (nextEnabled f o).group = groupStart f o.group := by
  obtain ⟨-, e1, e2, e3, e4, e5, e6, e7, e8, e9, e10, e11, e12, e13⟩ := Op.enabled_bit f
  have stage : ∀ q : Op, q ≠ .status → groupStart f (nextEnabled f q.next).group = groupStart f q.next.group →
      groupStart f (nextEnabled f q).group = groupStart f q.group := by
    intro q hs hn
    cases he : q.enabled f
    · rw [nextEnabled_skip he, hn]
      cases q <;>
        first
        | exact absurd rfl hs
        | exact Bool.noConfusion (e11.symm.trans he)
        | exact Bool.noConfusion (e12.symm.trans he)
        | exact Bool.noConfusion (e13.symm.trans he)
        | (simp only [e1, e2, e3, e4, e5, e6, e7, e8, e9, e10] at he
           simp only [Op.next, Op.group, groupStart, layoutLength, statusBit, he, Bool.toNat_false, Nat.mul_zero,
             Nat.add_zero])
    · rw [nextEnabled_here he]
  have hhex : groupStart f (nextEnabled f .hex).group = groupStart f Op.hex.group := by rw [nextEnabled_here e11]
  have hsnr := stage .snr (by simp) hhex
  have hrssi := stage .rssi (by simp) hsnr
  have hbatt := stage .batt (by simp) hrssi
  have hdn := stage .dncnt (by simp) hbatt
  have hup := stage .upcnt (by simp) hdn
  have hlonlat := stage .lonlat (by simp) hup
  have hqual := stage .qual (by simp) hlonlat
  have hlon := stage .lon (by simp) hqual
  have hlat := stage .lat (by simp) hlon
  have htemp := stage .temp (by simp) hlat
  have hlen : groupStart f (nextEnabled f .len).group = groupStart f Op.len.group := by rw [nextEnabled_here e12]
  have hport : groupStart f (nextEnabled f .port).group = groupStart f Op.port.group := by rw [nextEnabled_here e13]
  cases o <;> first | exact absurd rfl h | assumption

/-! ### The bytes -/

@[simp] theorem State.bytes_length (s : State) : s.bytes.length = s.len := by
  simp [State.bytes]

theorem State.getD_bytes (s : State) {i : Nat} (h : i < s.len) : s.bytes.getD i 0 = s.byteAt i := by
  simp [State.bytes, List.getD_eq_getElem?_getD, h]

/-- The payload depends on the buffer and `len` alone. -/
theorem State.bytes_congr {s t : State} (hp : t.payload = s.payload) (hl : t.len = s.len) : t.bytes = s.bytes := by
  simp only [State.bytes, hl]
  congr 1
  funext i
  simp only [State.byteAt, hp]

/-! ### What the meanings have in common -/

/-- Every sequenced operation answers a next state, from every state (R126, R147). -/
theorem exec_answers {i : Instr} (h : i.op ≠ none) (s : State) : ∃ t, exec i s = .next t := by
  cases i <;> first | exact ⟨_, rfl⟩ | exact absurd rfl h

/-- MERGE's four cases (R138, R140). -/
theorem execMerge_cases (md : List (Key × MetaValue)) (s : State) :
    (s.phase = .done ∧ execMerge md s =
      .next { s with out := some (overlay (decodedEntries s.res.mapping) (callerEntries md)) }) ∨
    (s.phase = .fault ∧ execMerge md s = .next { s with out := none }) ∨
    ((s.phase = .idle ∨ s.phase = .busy) ∧ execMerge md s = .fault .mergeWithoutDecode) := by
  unfold execMerge
  cases s.phase <;> simp

/-! ### The host's actions -/

/-- The port the host sets is taken when it fits PORT_W bits and refused otherwise (R143, U4). -/
theorem serve_setPort (p : Nat) (s : State) :
    (p < 2 ^ Config.portW ∧ serve (.setPort p) s = .next { s with port := p }) ∨
    (2 ^ Config.portW ≤ p ∧ serve (.setPort p) s = .refused .portTooWide) := by
  by_cases h : p < 2 ^ Config.portW
  · exact .inl ⟨h, if_pos (decide_eq_true h)⟩
  · exact .inr ⟨Nat.not_lt.mp h, if_neg (by simpa [fitsPort] using h)⟩

/-- All the host's actions can do: a next state, or one of the two stops. -/
theorem serve_answers (r : HostRequest) (s : State) :
    (∃ t, serve r s = .next t) ∨ (∃ p, r = .setPort p ∧ 2 ^ Config.portW ≤ p ∧ serve r s = .refused .portTooWide) ∨
    (∃ md, r = .merge md ∧ (s.phase = .idle ∨ s.phase = .busy) ∧ serve r s = .fault .mergeWithoutDecode) := by
  cases r
  case setPort p =>
    rcases serve_setPort p s with ⟨_, h⟩ | ⟨hp, h⟩
    · exact .inl ⟨_, h⟩
    · exact .inr (.inl ⟨p, rfl, hp, h⟩)
  case merge md =>
    rcases execMerge_cases md s with ⟨_, h⟩ | ⟨_, h⟩ | ⟨hp, h⟩
    · exact .inl ⟨_, h⟩
    · exact .inl ⟨_, h⟩
    · exact .inr (.inr ⟨md, rfl, hp, h⟩)
  all_goals exact .inl ⟨_, rfl⟩

/-! ### One step of a decode -/

/-- The two answers of a step of a decode: the group's bytes are missing and ShortBufferError is raised, or the operation
runs and retires. There is no third. -/
theorem runOp_cases (s : State) :
    (∃ g c, s.fetch = .error (.shortBuffer g c) ∧ runOp s = .next (s.raise .shortBuffer g c)) ∨
    (∃ i t, s.fetch = .ok i ∧ i.op = some s.nextOp ∧ exec i s = .next t ∧ runOp s = .next (t.retire s.nextOp)) := by
  unfold runOp
  cases hf : s.fetch with
  | error r =>
    cases r with
    | shortBuffer g c => exact .inl ⟨g, c, rfl, rfl⟩
  | ok i =>
    right
    have hop : i.op = some s.nextOp := by
      unfold State.fetch at hf
      rw [decode_eq] at hf
      split at hf
      · obtain rfl := Except.ok.inj hf
        exact decodeAt_op _ _
      · cases hf
    obtain ⟨t, ht⟩ := exec_answers (i := i) (by simp [hop]) s
    exact ⟨i, t, rfl, hop, ht, by simp only [ht]⟩

/-- A fetch that succeeds, spelled out (R31, R122). -/
theorem State.fetch_ok {s : State} (h : s.nextOp.need = 0 ∨ s.nextOp.base s.cur + s.nextOp.need ≤ s.len) :
    s.fetch = .ok (decodeAt (fun k => s.bytes.getD (s.nextOp.base s.cur + k) 0) s.nextOp) := by
  simp only [State.fetch, decode_eq, State.bytes_length, h, if_true]

/-- A fetch that fails, spelled out (R31, R146). -/
theorem State.fetch_short {s : State} (h0 : s.nextOp.need ≠ 0) (h : s.len < s.nextOp.base s.cur + s.nextOp.need) :
    s.fetch = .error (.shortBuffer s.nextOp.group (s.nextOp.base s.cur)) := by
  simp only [State.fetch, decode_eq, State.bytes_length]
  rw [if_neg (by omega)]

/-! ### One step of the machine -/

/-- A state in which the next step is one of the decode in progress (R122). -/
theorem step_busy {s : State} (hb : s.phase = .busy) (hr : s.requests.head? ≠ some .reset)
    (hw : s.requests.head? ≠ some .wait) : step s = runOp s := by
  unfold step stepMachine
  rw [hb]
  match h : s.requests with
  | [] => rfl
  | r :: rs =>
    rw [h] at hr hw
    cases r <;> first | rfl | (simp at hr hw)

/-- All a step can be. -/
theorem step_cases (s : State) :
    (s.phase = .busy ∧ ∃ rs, s.requests = .reset :: rs ∧ step s = .next (State.resetBlock { s with requests := rs })) ∨
    (s.phase = .busy ∧ ∃ rs, s.requests = .wait :: rs ∧ step s = runOp { s with requests := rs }) ∨
    (s.phase = .busy ∧ s.requests.head? ≠ some .reset ∧ s.requests.head? ≠ some .wait ∧ step s = runOp s) ∨
    (s.phase ≠ .busy ∧ s.requests = [] ∧ step s = .next s) ∨
    (s.phase ≠ .busy ∧ ∃ r rs, s.requests = r :: rs ∧ step s = serve r { s with requests := rs }) := by
  by_cases hb : s.phase = .busy
  · by_cases hr : s.requests.head? = some .reset
    · left
      match h : s.requests with
      | [] => simp [h] at hr
      | r :: rs =>
        obtain rfl : r = .reset := by simpa [h] using hr
        exact ⟨hb, rs, rfl, by simp only [step, stepMachine, hb, h]⟩
    · by_cases hw : s.requests.head? = some .wait
      · right; left
        match h : s.requests with
        | [] => simp [h] at hw
        | r :: rs =>
          obtain rfl : r = .wait := by simpa [h] using hw
          exact ⟨hb, rs, rfl, by simp only [step, stepMachine, hb, h]⟩
      · exact .inr (.inr (.inl ⟨hb, hr, hw, step_busy hb hr hw⟩))
  · right; right; right
    match h : s.requests with
    | [] => exact .inl ⟨hb, rfl, by unfold step stepMachine; cases hp : s.phase <;> simp_all⟩
    | r :: rs =>
      exact .inr ⟨hb, r, rs, rfl, by unfold step stepMachine; cases hp : s.phase <;> simp_all⟩

/-! ### Runs -/

theorem run_succ_next {s t : State} (h : step s = .next t) (k : Nat) :
    Host.Core.run core (k + 1) s = Host.Core.run core k t := by
  have hs : core.step s = .next t := h
  simp only [Host.Core.run, hs]

/-- With nothing pending and no decode running, the block waits (R162). -/
theorem run_atRest {s : State} (hp : s.phase ≠ .busy) (hr : s.requests = []) (k : Nat) :
    Host.Core.run core k s = .next s := by
  induction k with
  | zero => rfl
  | succ k ih =>
    rw [run_succ_next (t := s) _ k]
    · exact ih
    · unfold step stepMachine
      cases h : s.phase <;> simp_all

end Sys2Proof.Machine
end

