-- ==== Sys2Proof/Laws/Exec.lean ====
section
/-!
SUPPORT. What a sequenced operation can do, said once for all fourteen: which fields it leaves alone, how far the cursor has
moved when it retires, which presence bits it sets; that every step keeps the buffer's canonical form; the widths; and
the one check behind all bounds checks.
-/

namespace Sys2Proof.Machine

/-! ### What the meanings leave alone -/

/-- No sequenced operation touches the interface registers, the buffer, the host's side, the sequencer's place or `out`. -/
theorem exec_frameButFlags {i : Instr} {s t : State} (hop : i.op ≠ none) (h : exec i s = .next t) : FrameButFlags s t := by
  cases i <;> (try exact absurd rfl hop) <;> obtain rfl := Host.Outcome.next.inj h <;>
    exact ⟨rfl, rfl, rfl, rfl, rfl, fun _ => rfl, rfl, rfl, rfl, rfl, rfl⟩

/-- No instruction at all touches the buffer (R34). -/
theorem exec_payload {i : Instr} {s t : State} (h : exec i s = .next t) : t.payload = s.payload := by
  cases i
  case merge md =>
    rcases execMerge_cases md s with ⟨_, hm⟩ | ⟨_, hm⟩ | ⟨_, hm⟩ <;> rw [exec, hm] at h <;>
      first | (obtain rfl := Host.Outcome.next.inj h; rfl) | cases h
  all_goals (obtain rfl := Host.Outcome.next.inj h; rfl)

/-- `F` is written by STATUS alone (R12). -/
theorem exec_flags {i : Instr} {s t : State} {o : Op} (hop : i.op = some o) (ho : o ≠ .status) (h : exec i s = .next t) :
    t.flags = s.flags := by
  cases i <;> simp only [Instr.op, Option.some.injEq, reduceCtorEq] at hop <;> subst hop <;> (try exact absurd rfl ho) <;>
    obtain rfl := Host.Outcome.next.inj h <;> rfl

/-- When an operation other than STATUS retires the cursor has moved by its advance (R11, R100, R117). -/
theorem exec_retire_cur {i : Instr} {s t : State} {o : Op} (hop : i.op = some o) (ho : o ≠ .status)
    (h : exec i s = .next t) : (t.retire o).cur = s.cur + o.advance := by
  cases i <;> simp only [Instr.op, Option.some.injEq, reduceCtorEq] at hop <;> subst hop <;> (try exact absurd rfl ho) <;>
    obtain rfl := Host.Outcome.next.inj h <;> rfl

/-- An operation sets the presence bits of the registers it writes and keeps the others (R13, R16). -/
theorem exec_pres {i : Instr} {s t : State} {o : Op} (hop : i.op = some o) (h : exec i s = .next t) (g : Reg) :
    t.res.pres g = (s.res.pres g || decide (g.writer = o)) := by
  cases i <;> simp only [Instr.op, Option.some.injEq, reduceCtorEq] at hop <;> subst hop <;>
    obtain rfl := Host.Outcome.next.inj h <;> cases g <;> simp [Results.pres, Results.get, Reg.writer]

/-- Flag registers that show `F` still do after any operation but STATUS (R12). -/
theorem exec_writeFlags {i : Instr} {s t : State} {o : Op} (hop : i.op = some o) (ho : o ≠ .status)
    (h : exec i s = .next t) (hf : s.res.writeFlags s.flags = s.res) : t.res.writeFlags s.flags = t.res := by
  cases i <;> simp only [Instr.op, Option.some.injEq, reduceCtorEq] at hop <;> subst hop <;> (try exact absurd rfl ho) <;>
    obtain rfl := Host.Outcome.next.inj h <;>
    (simp only [State.moveCursor_res, State.countDraw_res]; conv => rhs; rw [← hf]) <;> rfl

/-- Flag `i` of a status byte is its bit `i` (R71). -/
theorem statusFlag_bits : ∀ b : Byte,
    statusFlag b 0 = b.getLsbD 0 ∧ statusFlag b 1 = b.getLsbD 1 ∧ statusFlag b 2 = b.getLsbD 2 ∧
    statusFlag b 3 = b.getLsbD 3 ∧ statusFlag b 4 = b.getLsbD 4 ∧ statusFlag b 5 = b.getLsbD 5 ∧
    statusFlag b 6 = b.getLsbD 6 ∧ statusFlag b 7 = b.getLsbD 7 := by decide

/-! ### The buffer's canonical form -/

/-- Every step keeps the canonical form of the payload buffer. -/
theorem step_payload_wf {s t : State} (hw : s.payload.wf = true) (h : step s = .next t) : t.payload.wf = true := by
  have hrun : ∀ u : State, u.payload.wf = true → runOp u = .next t → t.payload.wf = true := by
    intro u hu hr
    rcases runOp_cases u with ⟨g, c, _, h1⟩ | ⟨i, v, _, _, he, h1⟩ <;> rw [h1] at hr <;>
      obtain rfl := Host.Outcome.next.inj hr
    · exact hu
    · simpa [exec_payload he] using hu
  rcases step_cases s with ⟨_, rs, _, h1⟩ | ⟨_, rs, _, h1⟩ | ⟨_, _, _, h1⟩ | ⟨_, _, h1⟩ | ⟨_, r, rs, _, h1⟩ <;> rw [h1] at h
  · obtain rfl := Host.Outcome.next.inj h; exact hw
  · exact hrun { s with requests := rs } hw h
  · exact hrun s hw h
  · obtain rfl := Host.Outcome.next.inj h; exact hw
  · cases r
    case merge =>
      have hp := exec_payload (i := .merge _) (s := { s with requests := rs }) h
      rw [hp]; exact hw
    case start => obtain rfl := Host.Outcome.next.inj h; simpa using hw
    case setPort p _ =>
      rcases serve_setPort p { s with requests := rs } with ⟨_, hn⟩ | ⟨_, hn⟩ <;> rw [hn] at h
      · obtain rfl := Host.Outcome.next.inj h; exact hw
      · cases h
    case place => obtain rfl := Host.Outcome.next.inj h; exact Memory.wf_setBytes hw _ _
    all_goals (obtain rfl := Host.Outcome.next.inj h; exact hw)

/-- The buffer after reset is canonical. -/
theorem reset_payload_wf : State.reset.payload.wf = true := Memory.wf_nil

/-! ### Widths -/

/-- LEN_W bits hold every length up to PAYLOAD_MAX (R11). -/
theorem payloadMax_lt_lenW : Config.payloadMax < 2 ^ Config.lenW := by
  have := Nat.le_pow_clog (b := 2) (by norm_num) (Config.payloadMax + 2)
  unfold Config.lenW
  omega

/-- A buffer holds every layout (R5, R56). -/
theorem layoutLength_le_payloadMax (b : Byte) : layoutLength b ≤ Config.payloadMax := by
  have : ∀ b : Byte, layoutLength b ≤ 17 := by decide
  have := this b
  unfold Config.payloadMax
  omega

/-! ### One check for all groups -/

/-- All present groups fit exactly when the layout does, as a fact about numbers (R125). -/
theorem groups_fit_iff_layout_fits (n : Nat) (hn : 1 ≤ n) (t g u d b r : Bool) :
    ((t = true → 1 + 1 ≤ n) ∧ (g = true → 1 + t.toNat + 9 ≤ n) ∧ (u = true → 1 + t.toNat + 9 * g.toNat + 1 ≤ n) ∧
      (d = true → 1 + t.toNat + 9 * g.toNat + u.toNat + 1 ≤ n) ∧
      (b = true → 1 + t.toNat + 9 * g.toNat + u.toNat + d.toNat + 2 ≤ n) ∧
      (r = true → 1 + t.toNat + 9 * g.toNat + u.toNat + d.toNat + 2 * b.toNat + 2 ≤ n)) ↔
    1 + t.toNat + 9 * g.toNat + u.toNat + d.toNat + 2 * b.toNat + 2 * r.toNat ≤ n := by
  cases r <;> cases b <;> cases d <;> cases u <;> cases g <;> cases t <;> simp <;> omega

/-- No group is short exactly when the layout fits (R125). -/
theorem shortGroup_eq_none (p : List Byte) :
    shortGroup p = none ↔ 1 ≤ p.length ∧ layoutLength (p.getD 0 0) ≤ p.length := by
  unfold shortGroup
  by_cases hn : p.length < 1
  · simp [hn]
  · have hfit := groups_fit_iff_layout_fits p.length (by omega) ((p.getD 0 0).getLsbD 7) ((p.getD 0 0).getLsbD 4)
      ((p.getD 0 0).getLsbD 3) ((p.getD 0 0).getLsbD 2) ((p.getD 0 0).getLsbD 1) ((p.getD 0 0).getLsbD 0)
    simp only [hn, if_false, Option.map_eq_none_iff, groupsInOrder, List.find?_eq_none]
    rw [show (1 ≤ p.length ∧ layoutLength (p.getD 0 0) ≤ p.length) ↔ layoutLength (p.getD 0 0) ≤ p.length by omega]
    refine Iff.trans ?_ hfit
    simp only [List.mem_cons, List.not_mem_nil, or_false, forall_eq_or_imp, forall_eq, Bool.and_eq_true, decide_eq_true_eq,
      not_and, Nat.not_lt]
    rfl

end Sys2Proof.Machine
end

