-- ==== Sys2Proof/Laws/Mapping.lean ====
section
/-!
SUPPORT. Finite mappings as lists of pairs: looking a key up in a mapped, joined or duplicate-free list; the result keys are
distinct and every register is listed.
-/

namespace Sys2Proof.Machine

theorem lookupKey_map {α β : Type} (k : Key) (f : α → β) (m : List (Key × α)) :
    lookupKey k (m.map fun e => (e.1, f e.2)) = (lookupKey k m).map f := by
  induction m with
  | nil => rfl
  | cons e m ih => simp only [List.map, lookupKey, ih]; split <;> rfl

theorem lookupKey_append {α : Type} (k : Key) (a b : List (Key × α)) :
    lookupKey k (a ++ b) = (lookupKey k a).or (lookupKey k b) := by
  induction a with
  | nil => simp [lookupKey]
  | cons e m ih => simp only [List.cons_append, lookupKey, ih]; split <;> simp

/-- Keeping the pairs whose keys satisfy `q`. -/
theorem lookupKey_filter {α : Type} (k : Key) (q : Key → Bool) (m : List (Key × α)) :
    lookupKey k (m.filter fun e => q e.1) = if q k then lookupKey k m else none := by
  induction m with
  | nil => simp [lookupKey]
  | cons e m ih =>
    simp only [List.filter, lookupKey]
    by_cases hk : k = e.1
    · subst hk
      by_cases hq : q e.1
      · simp [hq, lookupKey]
      · simpa [hq] using ih
    · by_cases hq : q e.1 <;> simp [hq, lookupKey, ih, hk]

theorem lookupKey_eq_none {α : Type} (k : Key) (m : List (Key × α)) : lookupKey k m = none ↔ k ∉ m.map Prod.fst := by
  induction m with
  | nil => simp [lookupKey]
  | cons e m ih =>
    simp only [lookupKey, List.map, List.mem_cons, not_or]
    split <;> simp_all

/-- In a mapping (no key twice) a listed pair is what its key looks up. -/
theorem lookupKey_of_mem {α : Type} {k : Key} {v : α} {m : List (Key × α)} (h : keysDistinct m = true)
    (hm : (k, v) ∈ m) : lookupKey k m = some v := by
  induction m with
  | nil => simp at hm
  | cons e m ih =>
    simp only [keysDistinct, List.map, List.nodup_cons, decide_eq_true_eq] at h ih
    rcases List.mem_cons.mp hm with rfl | hm
    · simp [lookupKey]
    · have hk : k ≠ e.1 := by rintro rfl; exact h.1 (List.mem_map.mpr ⟨_, hm, rfl⟩)
      simp [lookupKey, hk, ih h.2 hm]

theorem Reg.mem_all (g : Reg) : g ∈ Reg.all := by
  cases g <;> decide

theorem Reg.keys_nodup : (Reg.all.map Reg.key).Nodup := by decide

/-- No two registers share a result key (R12, R13). -/
theorem Reg.key_injective {a b : Reg} (h : a.key = b.key) : a = b :=
  List.inj_on_of_nodup_map Reg.keys_nodup (Reg.mem_all a) (Reg.mem_all b) h

end Sys2Proof.Machine
end

