-- ==== Sys2Proof/Laws/PerInstr.lean ====
section
/-!
SUPPORT. For every instruction: the encoder writes as many bytes as the operation map gives its operand (20_memory.md R35,
30_encoding.md R58), and the decoder's bounds check covers them.
-/

namespace Sys2Proof.Laws.EncodeLength

/-- The operand's bytes are `operand_bytes` many, and they lie inside the bytes the group's check covers; MERGE has none. -/
def Statement (i : Instr) : Prop :=
  match i.op with
  | some o => (encode i).length = o.size ∧ o.offset + o.size ≤ o.need
  | none => encode i = []

theorem status (s : Byte) : Statement (.status s) := ⟨rfl, by decide⟩
theorem temp (sg : Bool) (mag : BitVec 7) : Statement (.temp sg mag) := ⟨rfl, by decide⟩
theorem lat (c : Coord) : Statement (.lat c) := ⟨rfl, by decide⟩
theorem lon (c : Coord) : Statement (.lon c) := ⟨rfl, by decide⟩
theorem qual (tier sat : Nibble) : Statement (.qual tier sat) := ⟨rfl, by decide⟩
theorem lonlat : Statement .lonlat := ⟨rfl, by decide⟩
theorem upcnt (n : Byte) : Statement (.upcnt n) := ⟨rfl, by decide⟩
theorem dncnt (n : Byte) : Statement (.dncnt n) := ⟨rfl, by decide⟩
theorem batt (v : BitVec 16) : Statement (.batt v) := ⟨rfl, by decide⟩
theorem rssi (m : Byte) : Statement (.rssi m) := ⟨rfl, by decide⟩
theorem snr (n : Byte) : Statement (.snr n) := ⟨rfl, by decide⟩
theorem hex : Statement .hex := ⟨rfl, by decide⟩
theorem len : Statement .len := ⟨rfl, by decide⟩
theorem port : Statement .port := ⟨rfl, by decide⟩
theorem merge (md : List (Key × MetaValue)) : Statement (.merge md) := rfl

end Sys2Proof.Laws.EncodeLength
end

