-- ==== Sys2Proof/Laws/Run.lean ====
section
/-!
SUPPORT. Runs of a decode: a step whose bytes are there, a step whose bytes are missing, an operation passed over, and the one
lemma that takes a run from one operation to the next. A statement about a whole decode applies it at each operation in
the fixed order (R122) and ends at rest.
-/

namespace Sys2Proof.Machine

/-! ### One step -/

theorem State.nextOp_here {s : State} {o : Op} (hq : s.seq = o) (he : o.enabled s.flags = true) : s.nextOp = o := by
  rw [State.nextOp, hq, nextEnabled_here he]

/-- The group's bytes are there: the operation runs on them and retires. -/
theorem step_fits {s t : State} {o : Op} (hb : s.phase = .busy) (hr : s.requests.head? ≠ some .reset)
    (hw : s.requests.head? ≠ some .wait) (hn : s.nextOp = o) (hf : o.need = 0 ∨ o.base s.cur + o.need ≤ s.len)
    (he : exec (decodeAt (fun k => s.bytes.getD (o.base s.cur + k) 0) o) s = .next t) :
    step s = .next (t.retire o) := by
  subst hn
  rw [step_busy hb hr hw, runOp, State.fetch_ok hf]
  simp only [he]

/-- A byte of the group is missing: ShortBufferError with the group and its start (R146). -/
theorem step_short {s : State} {o : Op} (hb : s.phase = .busy) (hr : s.requests.head? ≠ some .reset)
    (hw : s.requests.head? ≠ some .wait) (hn : s.nextOp = o) (h0 : o.need ≠ 0) (hf : s.len < o.base s.cur + o.need) :
    step s = .next (s.raise .shortBuffer o.group (o.base s.cur)) := by
  subst hn
  rw [step_busy hb hr hw, runOp, State.fetch_short h0 hf]

/-- A disabled operation at the sequencer's place takes no step: the machine does what it does one place further (R59). -/
theorem runOp_skip (s : State) (h : s.seq.enabled s.flags = false) : runOp { s with seq := s.seq.next } = runOp s := by
  have hn : State.nextOp { s with seq := s.seq.next } = s.nextOp := (nextEnabled_skip h).symm
  have hf : State.fetch { s with seq := s.seq.next } = s.fetch := by
    show decode (State.nextOp { s with seq := s.seq.next }) s.cur s.bytes = _
    rw [hn]
    rfl
  rcases runOp_cases s with ⟨g, c, h1, h2⟩ | ⟨i, t, h1, hop, _, _⟩
  · unfold runOp
    rw [hf, h1]
    rfl
  · unfold runOp
    rw [hf, hn, h1]
    revert hop
    generalize s.nextOp = o
    intro hop
    cases i <;> simp only [Instr.op, Option.some.injEq, reduceCtorEq] at hop <;> subst hop <;> rfl

/-! ### Runs that end -/

/-- The first step of a run that ends in a next state. -/
theorem run_succ_inv {n : Nat} {s u : State} (h : Host.Core.run core (n + 1) s = .next u) :
    ∃ t, step s = .next t ∧ Host.Core.run core n t = .next u := by
  have hc : core.step s = step s := rfl
  simp only [Host.Core.run, hc] at h
  cases hs : step s with
  | next t => exact ⟨t, rfl, by simpa only [hs] using h⟩
  | fault r => rw [hs] at h; cases h
  | refused r => rw [hs] at h; cases h

/-- Within `n` steps from `s` the block is at rest, with nothing pending, in a state that satisfies `P`. -/
def Ends (n : Nat) (s : State) (P : State → Prop) : Prop :=
  ∃ t, Host.Core.run core n s = .next t ∧ P t ∧ t.phase ≠ .busy ∧ t.requests = []

variable {n : Nat} {s t : State} {P : State → Prop}

theorem ends_rest (hp : s.phase ≠ .busy) (hr : s.requests = []) (h : P s) (n : Nat) : Ends n s P :=
  ⟨s, run_atRest hp hr n, h, hp, hr⟩

theorem ends_step (hs : step s = .next t) (h : Ends n t P) : Ends (n + 1) s P := by
  obtain ⟨u, hu, r⟩ := h
  exact ⟨u, by rw [run_succ_next hs, hu], r⟩

/-- Waiting longer changes nothing. -/
theorem ends_succ (h : Ends n s P) : Ends (n + 1) s P := by
  induction n generalizing s with
  | zero =>
    obtain ⟨u, hu, ho, hp, hr⟩ := h
    obtain rfl := Host.Outcome.next.inj hu
    exact ends_rest hp hr ho 1
  | succ n ih =>
    obtain ⟨u, hu, r⟩ := h
    obtain ⟨v, hv, hu⟩ := run_succ_inv hu
    exact ends_step hv (ih ⟨u, hu, r⟩)

/-- An operation passed over. -/
theorem ends_skip (hb : s.phase = .busy) (hr : s.requests = []) (he : s.seq.enabled s.flags = false)
    (h : Ends n { s with seq := s.seq.next } P) : Ends n s P := by
  obtain ⟨u, hu, r⟩ := h
  cases n with
  | zero =>
    obtain rfl := Host.Outcome.next.inj hu
    exact absurd hb r.2.1
  | succ n =>
    have e : step { s with seq := s.seq.next } = step s := by
      rw [step_busy hb (by simp [hr]) (by simp [hr]),
        step_busy (s := { s with seq := s.seq.next }) hb (by simp [hr]) (by simp [hr]), runOp_skip s he]
    obtain ⟨v, hv, hu⟩ := run_succ_inv hu
    exact ⟨u, by rw [run_succ_next (e ▸ hv), hu], r⟩

/-- A decode in progress at operation `o`, in its three cases: `o` is disabled and passed over; its group is short and the
decode ends in that fault; or it runs and the decode goes on. -/
theorem ends_op {o : Op} (hb : s.phase = .busy) (hr : s.requests = []) (hq : s.seq = o)
    (skip : o.enabled s.flags = false → Ends n { s with seq := o.next } P)
    (short : o.enabled s.flags = true → o.need ≠ 0 → s.len < o.base s.cur + o.need →
      P (s.raise .shortBuffer o.group (o.base s.cur)))
    (run : o.enabled s.flags = true → (o.need = 0 ∨ o.base s.cur + o.need ≤ s.len) →
      ∀ t, exec (decodeAt (fun k => s.bytes.getD (o.base s.cur + k) 0) o) s = .next t → Ends n (t.retire o) P) :
    Ends (n + 1) s P := by
  subst hq
  cases he : s.seq.enabled s.flags
  · exact ends_succ (ends_skip hb hr he (skip he))
  · have hn := State.nextOp_here rfl he
    by_cases hf : s.seq.need = 0 ∨ s.seq.base s.cur + s.seq.need ≤ s.len
    · obtain ⟨t, ht⟩ := exec_answers (i := decodeAt (fun k => s.bytes.getD (s.seq.base s.cur + k) 0) s.seq)
        (by rw [decodeAt_op]; simp) s
      exact ends_step (step_fits hb (by simp [hr]) (by simp [hr]) hn hf ht) (run he hf t ht)
    · have h0 : s.seq.need ≠ 0 := fun h => hf (.inl h)
      have hl : s.len < s.seq.base s.cur + s.seq.need := by omega
      exact ends_step (step_short hb (by simp [hr]) (by simp [hr]) hn h0 hl)
        (ends_rest (by simp) (by simp [hr]) (short he h0 hl) n)

/-! ### Operand bytes as register contents -/

/-- TEMP's formula, narrowed to its 8-bit register, is the operand byte itself (R81). -/
theorem temperature_byte : ∀ b : Byte, BitVec.ofInt 8 (temperatureValue (b.getLsbD 7) (b.extractLsb' 0 7)) = b := by decide

/-- RSSI in its 9-bit register (R115). -/
theorem rssi_byte : ∀ m : Byte, BitVec.ofInt 9 (rssiValue m) = -(m.setWidth 9) := by decide

/-- BATT's two bytes joined (R31, R114). -/
theorem battery_bytes (a b : Byte) : BitVec.ofNat 16 (bigEndian [a, b]) = a ++ b := by
  apply BitVec.eq_of_toNat_eq
  have ha := a.isLt
  have hb := b.isLt
  have h := BitVec.toNat_append a b
  rw [← Nat.shiftLeft_add_eq_or_of_lt b.isLt, Nat.shiftLeft_eq] at h
  simp [bigEndian, -BitVec.toNat_append]
  omega

end Sys2Proof.Machine
end

