-- ==== Sys2Proof/Laws/Text.lean ====
section
/-!
SUPPORT. Strings and numerals: reading back the digits that were written, the length of the hex string, the arithmetic of the
coordinate fields for valid digits, and that the stand-in rendering `fourDecimals` is a numeral.
-/

namespace Sys2Proof.Machine

/-! ### Digits -/

theorem digitOfChar_dig {n : Nat} (h : n ≤ 9) : digitOfChar (dig n) = some n := by
  have hn : n = 0 ∨ n = 1 ∨ n = 2 ∨ n = 3 ∨ n = 4 ∨ n = 5 ∨ n = 6 ∨ n = 7 ∨ n = 8 ∨ n = 9 := by omega
  rcases hn with rfl | rfl | rfl | rfl | rfl | rfl | rfl | rfl | rfl | rfl <;> decide

theorem takeDigits_dig_append (ds : List Nat) (rest : Str) (h : ∀ d ∈ ds, d ≤ 9) :
    takeDigits (ds.map dig ++ rest) = (ds ++ (takeDigits rest).1, (takeDigits rest).2) := by
  induction ds with
  | nil => rfl
  | cons d ds ih =>
    simp only [List.map, List.cons_append, takeDigits, digitOfChar_dig (h d (by simp)), ih fun x hx => h x (by simp [hx])]

theorem natOfDigits_foldl (ds : List Nat) (n : Nat) :
    ds.foldl (fun n d => 10 * n + d) n = n * 10 ^ ds.length + natOfDigits ds := by
  induction ds generalizing n with
  | nil => simp [natOfDigits]
  | cons d ds ih =>
    rw [natOfDigits, List.foldl_cons, List.foldl_cons, ih, ih (10 * 0 + d), List.length_cons, pow_succ]
    ring

theorem natOfDigits_append (a b : List Nat) : natOfDigits (a ++ b) = natOfDigits a * 10 ^ b.length + natOfDigits b := by
  rw [natOfDigits, List.foldl_append, natOfDigits_foldl]
  rfl

theorem decDigits_le (fuel n : Nat) : ∀ d ∈ decDigits fuel n, d ≤ 9 := by
  induction fuel generalizing n with
  | zero => simp [decDigits]; omega
  | succ f ih =>
    simp only [decDigits]
    split
    · simp; omega
    · intro d hd
      rcases List.mem_append.mp hd with hd | hd
      · exact ih _ d hd
      · simp at hd; omega

/-- The digits of a number stand for that number. -/
theorem natOfDigits_decDigits {fuel n : Nat} (h : n < fuel) : natOfDigits (decDigits fuel n) = n := by
  induction fuel generalizing n with
  | zero => omega
  | succ f ih =>
    simp only [decDigits]
    split
    · simp [natOfDigits]
    · rw [natOfDigits_append, ih (by omega)]
      simp [natOfDigits]
      omega

theorem decDigits_ne_nil (fuel n : Nat) : decDigits fuel n ≠ [] := by
  cases fuel with
  | zero => simp [decDigits]
  | succ f => simp only [decDigits]; split <;> simp

/-- Different digits print differently. -/
theorem dig_toNat_injective : ∀ a b : Nibble, dig a.toNat = dig b.toNat → a = b := by decide

/-! ### Coordinates -/

/-- The fields of the two coordinate registers as the pseudocode of R90 and R95 writes them, for valid digits. -/
theorem coordinate_fields {c : Coord} (h : ∀ d ∈ digits c, d ≤ 9) :
    (latitudeOf c).deg.toNat = 10 * c.d0.toNat + c.d1.toNat ∧
    (latitudeOf c).m5.toNat =
      10000 * c.d2.toNat + 1000 * c.d3.toNat + 100 * c.d4.toNat + 10 * c.d5.toNat + c.d6.toNat ∧
    (longitudeOf c).deg.toNat = 100 * c.d0.toNat + 10 * c.d1.toNat + c.d2.toNat ∧
    (longitudeOf c).m4.toNat = 1000 * c.d3.toNat + 100 * c.d4.toNat + 10 * c.d5.toNat + c.d6.toNat := by
  simp [digits] at h
  simp [latitudeOf, longitudeOf, degreeDigits, minuteDigits, digits, natOfDigits]
  omega

/-! ### HEX -/

@[simp] theorem hexString_length (p : List Byte) : (hexString p).length = 2 * p.length := by
  induction p with
  | nil => rfl
  | cons b p ih => simp [hexString] at ih ⊢; omega

/-- The two digits of a byte stand at twice its index (R134). -/
theorem hexString_at {p : List Byte} {i : Nat} (h : i < p.length) :
    (hexString p).getD (2 * i) 0 = hexdig (hiNibble (p.getD i 0)) ∧
    (hexString p).getD (2 * i + 1) 0 = hexdig (loNibble (p.getD i 0)) := by
  induction p generalizing i with
  | nil => simp at h
  | cons b p ih =>
    cases i with
    | zero => simp [hexString]
    | succ i =>
      have := ih (i := i) (by simpa using h)
      simpa [hexString, show 2 * (i + 1) = 2 * i + 1 + 1 by omega] using this

/-! ### Numerals -/

/-- Reading digits off a string keeps every comma in what is left. -/
theorem comma_mem_takeDigits {s : Str} (h : (0x2C : Char8) ∈ s) : (0x2C : Char8) ∈ (takeDigits s).2 := by
  induction s with
  | nil => simp at h
  | cons c cs ih =>
    simp only [takeDigits]
    split
    · rename_i d hd
      rcases List.mem_cons.mp h with rfl | h
      · simp [digitOfChar] at hd
      · exact ih h
    · exact h

/-- The four decimals and the whole part of `fourDecimals` read back as the number of ten-thousandths. -/
theorem unsignedNumeral_fourDecimals (n : Nat) :
    unsignedNumeral ((decDigits (n / 10000 + 1) (n / 10000)).map dig
        ++ 0x2E :: ([n / 1000 % 10, n / 100 % 10, n / 10 % 10, n % 10].map dig))
      = some ((n : Rat) / 10000) := by
  have hf : takeDigits ([n / 1000 % 10, n / 100 % 10, n / 10 % 10, n % 10].map dig)
      = ([n / 1000 % 10, n / 100 % 10, n / 10 % 10, n % 10], []) := by
    have := takeDigits_dig_append [n / 1000 % 10, n / 100 % 10, n / 10 % 10, n % 10] [] (by simp; omega)
    simpa [takeDigits] using this
  have hw : takeDigits (0x2E :: [n / 1000 % 10, n / 100 % 10, n / 10 % 10, n % 10].map dig)
      = ([], 0x2E :: [n / 1000 % 10, n / 100 % 10, n / 10 % 10, n % 10].map dig) := by
    simp [takeDigits, digitOfChar]
  have hn : natOfDigits (decDigits (n / 10000 + 1) (n / 10000) ++ [n / 1000 % 10, n / 100 % 10, n / 10 % 10, n % 10]) = n := by
    rw [natOfDigits_append, natOfDigits_decDigits (Nat.lt_succ_self _)]
    simp [natOfDigits]
    omega
  unfold unsignedNumeral
  rw [takeDigits_dig_append _ _ (decDigits_le _ _), hw]
  cases hd : decDigits (n / 10000 + 1) (n / 10000) with
  | nil => exact absurd hd (decDigits_ne_nil _ _)
  | cons d ds =>
    rw [hd] at hn
    simp only [List.append_nil, if_true, hf, hn]
    norm_num

end Sys2Proof.Machine
end

