-- ==== Sys2Proof/Tests/Slice0.lean ====
section
/-!
SUPPORT. The model's own tests: the ill-formed terms the checks refuse, the words of spec/30_encoding.md decoded, one or two
steps of each instruction against the values of spec/95_test_vectors.md, and for every statement with hypotheses a state
or operands that meet them all.
-/

namespace Sys2Proof.Tests

open Sys2Proof.Machine

/-! ### Builders -/

/-- A decode in progress on payload `bs`, the status byte latched, the sequencer at `o` with cursor `cur`. -/
def running (bs : List Byte) (o : Op) (cur : Nat) : State :=
  { State.reset with phase := .busy, payload := Memory.setBytes [] 0 bs, len := bs.length, flags := bs.getD 0 0, seq := o, cur := cur }

/-- A block at rest, with payload `bs` placed and the host's actions `rs` pending. -/
def waiting (bs : List Byte) (rs : List HostRequest) : State :=
  { State.reset with payload := Memory.setBytes [] 0 bs, len := bs.length, port := 2, requests := rs }

/-- Look at the next state, if there is one. -/
def look {α : Type} (f : State → α) : Host.Outcome State Fault Refusal → Option α
  | .next t => some (f t)
  | .fault _ => none
  | .refused _ => none

/-! ### WellFormed: the checks refuse ill-formed terms -/

theorem test_wf_refuses_double_key : (Instr.merge [(ascii "a", [1]), (ascii "b", [2]), (ascii "a", [3])]).wf = false := by decide
theorem test_wf_admits_distinct_keys : (Instr.merge [(ascii "a", [1]), (ascii "b", [2])]).wf = true := by decide
theorem test_listing_refuses_empty : listingWf [] = false := by decide
theorem test_listing_refuses_unannounced : listingWf [.status 0x00, .temp false 0x19, .hex, .len, .port] = false := by decide
theorem test_listing_refuses_missing : listingWf [.status 0x80, .hex, .len, .port] = false := by decide
theorem test_listing_refuses_order : listingWf [.status 0x0C, .dncnt 2, .upcnt 1, .hex, .len, .port] = false := by decide
theorem test_listing_refuses_merge : listingWf [.status 0x00, .hex, .len, .port, .merge []] = false := by decide

/-! ### Decode: words written out from the formats of 30_encoding.md, bit by bit -/

/-- Format S (R51): bits 7 (t), 4 (g), 0 (r). -/
theorem test_decode_status : decode .status 0 [0b10010001] = .ok (.status 0x91) := by decide
/-- Format T (R52): bit 7 `sg`, bits 6:0 `mag`. -/
theorem test_decode_temp : decode .temp 1 [0x80, 0b11100111] = .ok (.temp true 0b1100111) := by decide
/-- Format C (R53), GPS bytes 0..3: seven digits, bits 3:1 ignored, bit 0 `h`. -/
theorem test_decode_lat :
    decode .lat 1 [0x10, 0b00110011, 0b01010001, 0b00110101, 0b01001111, 0, 0, 0, 0, 0]
      = .ok (.lat ⟨3, 3, 5, 1, 3, 5, 4, 0b111, true⟩) := by decide
/-- Format C (R53), GPS bytes 4..7. -/
theorem test_decode_lon :
    decode .lon 1 [0x10, 0, 0, 0, 0, 0b00000000, 0b00100001, 0b01110110, 0b01110000, 0]
      = .ok (.lon ⟨0, 0, 2, 1, 7, 6, 7, 0b000, false⟩) := by decide
/-- Format Q (R54), GPS byte 8: bits 7:4 `tier`, bits 3:0 `sat`. -/
theorem test_decode_qual : decode .qual 1 [0x10, 0, 0, 0, 0, 0, 0, 0, 0, 0b00010111] = .ok (.qual 1 7) := by decide
/-- LONLAT has no operand byte (R35). -/
theorem test_decode_lonlat : decode .lonlat 1 [0x10] = .ok .lonlat := by decide
/-- Format N (R54). -/
theorem test_decode_upcnt : decode .upcnt 1 [0x08, 0b00101010] = .ok (.upcnt 42) := by decide
/-- Format N (R54). -/
theorem test_decode_dncnt : decode .dncnt 2 [0x0C, 0, 0b00000101] = .ok (.dncnt 5) := by decide
/-- Format V (R54): byte 0 is bits 15:8. -/
theorem test_decode_batt : decode .batt 1 [0x02, 0b00001110, 0b01110100] = .ok (.batt 3700) := by decide
/-- Format P (R54), the first byte of the pair. -/
theorem test_decode_rssi : decode .rssi 1 [0x01, 0b00001010, 0b00000011] = .ok (.rssi 10) := by decide
/-- Format R (R54), the second byte of the pair. -/
theorem test_decode_snr : decode .snr 1 [0x01, 0b00001010, 0b00000011] = .ok (.snr 3) := by decide
theorem test_decode_final : decode .hex 1 [0] = .ok .hex ∧ decode .len 1 [0] = .ok .len ∧ decode .port 1 [0] = .ok .port := by
  decide
/-- A check covers the whole group: with the ninth GPS byte missing not even the latitude is read (R31, R100). -/
theorem test_decode_whole_group :
    decode .lat 1 [0x10, 0x48, 0x51, 0x47, 0x40, 0x00, 0x21, 0x76, 0x70] = .error (.shortBuffer .gps 1) := by decide

/-! ### The host's view of a table row: the decoder's answer, and the step that runs it after reset -/

theorem test_table_rows :
    decodeTableWord 8 0x00 = some (.status 0x00) ∧ decodeTableWord 16 0x1980 = some (.temp false 0x19) ∧
    decodeTableWord 8 0x08 = some (.upcnt 0) ∧ decodeTableWord 8 0x04 = some (.dncnt 0) ∧
    decodeTableWord 8 0x02 = some (.batt 0) ∧ decodeTableWord 8 0x01 = some (.rssi 0) ∧
    decodeTableWord 8 0x10 = some (.lat ⟨0, 0, 0, 0, 0, 0, 0, 0, false⟩) := by decide
theorem test_withFetchWord_temp :
    look (fun t => t.res.get .temperature) (step (State.reset.withFetchWord 16 0x1980)) = some (some (.num 25)) := by decide
theorem test_withFetchWord_status :
    look (fun t => (t.flags, t.seq)) (step (State.reset.withFetchWord 8 0x60)) = some (0x60, .temp) := by decide

/-! ### One or two steps of each instruction (values of 95_test_vectors.md) -/

/-- 2.1: 0xA5 has flags 0, 2, 5 and 7. -/
theorem test_status : look (fun t => [Reg.rssiSnrReported, .batteryLevelReported, .downlinkCounterReported,
      .uplinkCounterReported, .gpsReported, .triggeredByPushbutton, .triggeredByAccelerometer, .temperatureReported].map t.res.get)
    (exec (.status 0xA5) State.reset) =
    some ([true, false, true, false, false, true, false, true].map fun b => some (.flag b)) := by decide
/-- 2.12: the empty payload. -/
theorem test_status_short : look State.hostReadFault (step (running [] .status 0)) =
    some (some (.shortBuffer, .status, 0)) := by decide
/-- 2.2: 0x80 is -128. -/
theorem test_temp_min : look (fun t => t.res.get .temperature) (exec (.temp true 0) State.reset) = some (some (.num (-128))) := by
  decide
/-- 2.2: 0xFF is -1, not -127. -/
theorem test_temp_minus_one : look (fun t => t.res.get .temperature) (step (running [0x80, 0xFF] .temp 1)) =
    some (some (.num (-1))) := by decide
/-- 2.3: 33 51 35 41. -/
theorem test_lat : look (fun t => (t.res.latitude.map latitudeValue, t.res.get .latitudeHemisphere))
    (exec (.lat (coordOf 0x33 0x51 0x35 0x41)) State.reset) =
    some (some (-338559 / 10000), some (.text (ascii "South"))) := by
  have h : look (fun t => (t.res.latitude, t.res.get .latitudeHemisphere))
      (exec (.lat (coordOf 0x33 0x51 0x35 0x41)) State.reset) =
      some (some ⟨true, 33, 51354⟩, some (.text (ascii "South"))) := by decide
  have hv : latitudeValue ⟨true, 33, 51354⟩ = -338559 / 10000 := by
    show (-1 : Rat) * (((33 : Nat) : Rat) + ((51354 : Nat) : Rat) / 60000) = _
    norm_num
  rw [← hv]
  exact congrArg (Option.map fun r => (r.1.map latitudeValue, r.2)) h
/-- 2.3: the string of 12 34 56 7E keeps its digits and its appended 0. -/
theorem test_lat_dm : look (fun t => t.res.get .latitudeDm) (exec (.lat (coordOf 0x12 0x34 0x56 0x7E)) State.reset) =
    some (some (.text (ascii "12" ++ [0xB0] ++ ascii "34,5670N"))) := by decide
/-- 2.4: 12 34 56 7F. -/
theorem test_lon : look (fun t => (t.res.longitude.map longitudeValue, t.res.get .longitudeHemisphere))
    (exec (.lon (coordOf 0x12 0x34 0x56 0x7F)) State.reset) =
    some (some (-742567 / 6000), some (.text (ascii "West"))) := by
  have h : look (fun t => (t.res.longitude, t.res.get .longitudeHemisphere))
      (exec (.lon (coordOf 0x12 0x34 0x56 0x7F)) State.reset) =
      some (some ⟨true, 123, 4567⟩, some (.text (ascii "West"))) := by decide
  have hv : longitudeValue ⟨true, 123, 4567⟩ = -742567 / 6000 := by
    show (-1 : Rat) * (((123 : Nat) : Rat) + ((4567 : Nat) : Rat) / 6000) = _
    norm_num
  rw [← hv]
  exact congrArg (Option.map fun r => (r.1.map longitudeValue, r.2)) h
/-- 2.4: the string of 12 34 56 7F. -/
theorem test_lon_dm : look (fun t => t.res.get .longitudeDm) (exec (.lon (coordOf 0x12 0x34 0x56 0x7F)) State.reset) =
    some (some (.text (ascii "123" ++ [0xB0] ++ ascii "45,670W"))) := by decide
/-- 2.6: 0x12 and the boundary between Average and Poor. -/
theorem test_qual : look (fun t => (t.res.get .satellites, t.res.get .reception)) (exec (.qual 1 2) State.reset) =
    some (some (.num 2), some (.text (ascii "Good"))) := by decide
theorem test_qual_tiers : [receptionOf 0, receptionOf 1, receptionOf 2, receptionOf 3, receptionOf 15] =
    [.poor, .good, .average, .poor, .poor] := by decide
/-- R101: the longitude comes first. -/
theorem test_lonlat : lonlatResult 0 false false (some ⟨false, 2, 1767⟩) (some ⟨false, 48, 51474⟩) =
    decstr (longitudeValue ⟨false, 2, 1767⟩) ++ [0x2C] ++ decstr (latitudeValue ⟨false, 48, 51474⟩) := by rfl
/-- 2.7: 0x80 is 128. -/
theorem test_upcnt : look (fun t => (t.res.get .uplinkCounter, t.cur)) (exec (.upcnt 0x80) { State.reset with cur := 1 }) =
    some (some (.num 128), 2) := by decide
/-- 2.7: with status 0x0C the second byte is the downlink counter. -/
theorem test_dncnt : look (fun t => (t.res.get .downlinkCounter, t.cur)) (step (running [0x0C, 0x01, 0x02] .dncnt 2)) =
    some (some (.num 2), 3) := by decide
/-- 2.8: the first byte is the high byte. -/
theorem test_batt : look (fun t => (t.res.get .batteryLevel, t.cur)) (step (running [0x02, 0x01, 0x00] .batt 1)) =
    some (some (.num 256), 3) := by decide
/-- 2.12: one of two battery bytes there. -/
theorem test_batt_short : look State.hostReadFault (step (running [0x02, 0x0E] .batt 1)) =
    some (some (.shortBuffer, .batt, 1)) := by decide
/-- 2.9: 0xFF is -255. -/
theorem test_rssi : look (fun t => t.res.get .rssi) (exec (.rssi 0xFF) State.reset) = some (some (.num (-255))) := by decide
/-- 2.9: 0xFF is 255; the cursor moves at the end of the group. -/
theorem test_snr : look (fun t => (t.res.get .snr, t.cur)) (step (running [0x01, 0x0A, 0xFF] .snr 1)) =
    some (some (.num 255), 3) := by decide
/-- 2.10: leading zeros, lower case, trailing bytes included. -/
theorem test_hex : look (fun t => t.res.get .hex) (step (running [0x0C, 0x01, 0x02, 0xAA, 0xBB] .hex 3)) =
    some (some (.text (ascii "0c0102aabb"))) := by decide
theorem test_len : look (fun t => t.res.get .length) (step (running [0x0C, 0x01, 0x02, 0xAA, 0xBB] .len 3)) =
    some (some (.num 5)) := by decide
/-- After PORT the decode is DONE and CUR shows the cursor (R122 step 8). -/
theorem test_port : look (fun t => (t.hostRead .port, t.hostReadCur)) (step { running [0x0C, 1, 2, 3] .port 3 with port := 7 }) =
    some (some (.num 7), some 3) := by decide
/-- 2.11 (D00's example), on the mappings themselves. -/
theorem test_overlay : overlay [(ascii "a", 1), (ascii "b", 2)] [(ascii "b", 9), (ascii "c", 3)] =
    [(ascii "a", 1), (ascii "b", 9), (ascii "c", 3)] := by decide
/-- 2.11: metadata wins over a decoded field. -/
theorem test_merge : look (fun t => t.out.map (lookupKey (ascii "temperature")))
    (exec (.merge [(ascii "temperature", [0x6E])]) { State.reset with phase := .done, res := { Results.empty with temperature := some 25 } })
      = some (some (some (.caller [0x6E]))) := by decide

/-! ### Witnesses: for each statement with hypotheses, operands and states that meet them all -/

/-- Every digit at its largest valid value, and one just beyond it. -/
def allNines : Coord := ⟨9, 9, 9, 9, 9, 9, 9, 0b101, true⟩
def digitTen : Coord := ⟨9, 10, 9, 9, 9, 9, 9, 0, false⟩

/-- DecodeInvertsEncode, with a payload that holds not one byte more than the group. -/
theorem witness_DecodeInvertsEncode :
    (Instr.snr 0x03).wf = true ∧ (Instr.snr 0x03).op = some .snr ∧ Op.snr.base 1 + Op.snr.need ≤ [0x01, 0x0A, 0x03].length ∧
    (([0x01, 0x0A, 0x03] : List Byte).drop (Op.snr.base 1 + Op.snr.offset)).take Op.snr.size = encode (.snr 0x03) := by decide
theorem witness_EncodeInvertsDecode : decode .qual 1 [0x10, 0, 0, 0, 0, 0, 0, 0, 0, 0xFF] = .ok (.qual 15 15) := by decide
theorem witness_ListingsAndPayloadsAgree :
    listingWf [.status 0x80, .temp true 0x7F, .hex, .len, .port] = true ∧
    decodePayload [0x80, 0xFF, 0xAA] = .ok [.status 0x80, .temp true 0x7F, .hex, .len, .port] := by decide
theorem witness_MaskSelectsInFixedOrder : decodePayload [0x60] = .ok [.status 0x60, .hex, .len, .port] := by decide
/-- Both clauses at their boundary: two bytes at 1 of three bytes, and of two. -/
theorem witness_MemReadChecksAndJoins :
    memRead [1, 2, 3] 1 2 = some [2, 3] ∧ memRead [1, 2] 1 2 = none ∧ 1 + 2 ≤ 3 ∧ 2 < 1 + 2 ∧
    Op.batt.need ≠ 0 ∧ ([2, 1] : List Byte).length < Op.batt.base 1 + Op.batt.need := by decide
theorem witness_valid_digits :
    (∀ d ∈ [allNines.d0, allNines.d1, allNines.d2, allNines.d3, allNines.d4, allNines.d5, allNines.d6], d.toNat ≤ 9) ∧
    (∀ d ∈ digits allNines, d ≤ 9) := by decide
theorem witness_invalid_digit :
    ∃ d ∈ [digitTen.d0, digitTen.d1, digitTen.d2, digitTen.d3, digitTen.d4, digitTen.d5, digitTen.d6], 9 < d.toNat := by decide
theorem witness_LonlatCompletes :
    ∃ s : State, s.res.longitude = some ⟨true, 999, 9999⟩ ∧ s.res.latitude = some ⟨false, 0, 0⟩ ∧ s.lonOpen = false ∧
      s.latOpen = false :=
  ⟨{ State.reset with res := { Results.empty with longitude := some ⟨true, 999, 9999⟩, latitude := some ⟨false, 0, 0⟩ } },
    rfl, rfl, rfl, rfl⟩
theorem witness_MergeCompletesAfterDone :
    (Instr.merge [(ascii "hex", [1])]).wf = true ∧ (State.phase { State.reset with phase := .done }) = .done := by decide
theorem witness_MergeWithoutResult :
    (State.phase { State.reset with phase := .fault }) = .fault ∧ State.reset.phase = .idle ∧
    (running [0] .status 0).phase = .busy := by decide
theorem witness_StringsTellCoordinatesApart :
    dmString 2 (latLetter allNines.h) allNines = dmString 2 (latLetter true) { allNines with ignored := 0 } ∧
    dmString 3 (lonLetter allNines.h) allNines = dmString 3 (lonLetter true) { allNines with ignored := 0 } := by decide
theorem witness_OverlayLaws :
    keysDistinct [(ascii "a", Merged.decoded (.num 1)), (ascii "b", Merged.caller [9])] = true ∧
    Merged.decoded (.num 1) ≠ Merged.caller [9] := by decide

/-! States in the middle of a decode. For the bounds checks, one state that just fits and one that lacks one byte. -/

theorem running_decoding (bs : List Byte) (o : Op) (cur : Nat) : Decoding (running bs o cur) :=
  ⟨rfl, by simp [running, State.reset], by simp [running, State.reset]⟩

theorem witness_StepRunsDecodedInstruction :
    decode (running [0x08, 0xFF] .temp 1).nextOp (running [0x08, 0xFF] .temp 1).cur (running [0x08, 0xFF] .temp 1).bytes
      = .ok (.upcnt 0xFF) := by decide
theorem witness_NextOperationIsTheFirstEnabled :
    (running [0x02] .temp 1).nextOp = .batt ∧ Op.upcnt.enabled (running [0x02] .temp 1).flags = false := by decide
theorem witness_StatusStep :
    (running [] .status 0).nextOp = .status ∧ (running [] .status 0).len = 0 ∧
    (running [0xFF] .status 0).nextOp = .status ∧ (running [0xFF] .status 0).len = 1 := by decide
theorem witness_TempStep :
    (running [0x80] .temp 1).nextOp = .temp ∧ (running [0x80] .temp 1).len < 1 + 1 ∧
    (running [0x80, 0x19] .temp 1).nextOp = .temp ∧ (running [0x80, 0x19] .temp 1).len = 1 + 1 := by decide
theorem witness_CounterSteps :
    (running [0x08] .temp 1).nextOp = .upcnt ∧ (running [0x08] .temp 1).len < 1 + 1 ∧
    (running [0x08, 7] .temp 1).nextOp = .upcnt ∧ (running [0x08, 7] .temp 1).len = 1 + 1 ∧
    (running [0x0C, 1] .dncnt 2).nextOp = .dncnt ∧ (running [0x0C, 1] .dncnt 2).len < 2 + 1 ∧
    (running [0x0C, 1, 2] .dncnt 2).nextOp = .dncnt ∧ (running [0x0C, 1, 2] .dncnt 2).len = 2 + 1 := by decide
theorem witness_BattStep :
    (running [0x02, 0x0E] .batt 1).nextOp = .batt ∧ (running [0x02, 0x0E] .batt 1).len < 1 + 2 ∧
    (running [0x02, 0x0E, 0x74] .batt 1).nextOp = .batt ∧ (running [0x02, 0x0E, 0x74] .batt 1).len = 1 + 2 := by decide
theorem witness_GpsGroupRuns :
    (running [0x10, 0x48, 0x51, 0x47, 0x40, 0x00, 0x21, 0x76, 0x70] .temp 1).nextOp = .lat ∧
    (running [0x10, 0x48, 0x51, 0x47, 0x40, 0x00, 0x21, 0x76, 0x70] .temp 1).len < 1 + 9 ∧
    (running [0x10, 0x48, 0x51, 0x47, 0x40, 0x00, 0x21, 0x76, 0x70, 0x17] .temp 1).nextOp = .lat ∧
    (running [0x10, 0x48, 0x51, 0x47, 0x40, 0x00, 0x21, 0x76, 0x70, 0x17] .temp 1).len = 1 + 9 := by decide
theorem witness_RssiSnrGroupRuns :
    (running [0x01, 0x0A] .temp 1).nextOp = .rssi ∧ (running [0x01, 0x0A] .temp 1).len < 1 + 2 ∧
    (running [0x01, 0x0A, 0x03] .temp 1).nextOp = .rssi ∧ (running [0x01, 0x0A, 0x03] .temp 1).len = 1 + 2 := by decide
theorem witness_FinalGroupRuns : (running [0x60] .temp 1).nextOp = .hex := by decide
theorem witness_FaultEntry :
    step (running [0x80] .temp 1) = .next ((running [0x80] .temp 1).raise .shortBuffer .temp 1) := rfl
theorem witness_HostWaitsWhileBusy :
    ∃ t, step { running [0x00] .hex 1 with requests := [] } = .next t ∧
      ([HostRequest.start, .reset] : List HostRequest).head? ≠ some .reset := ⟨_, rfl, by decide⟩
theorem witness_LookupErrorNeverRaised : State.reset.fault.code ≠ 3 ∧ step State.reset = .next State.reset := ⟨by decide, rfl⟩
theorem witness_OneWriterForEachRegister :
    (∃ t, exec (.snr 3) State.reset = .next t) ∧ (Instr.snr 3).op ≠ some (Reg.writer .rssi) := ⟨⟨_, rfl⟩, by decide⟩
theorem witness_PayloadIsNeverWritten :
    (∃ t, exec .hex State.reset = .next t) ∧ (∃ t, step (running [0x00] .hex 1) = .next t) := ⟨⟨_, rfl⟩, ⟨_, rfl⟩⟩

/-! The host's side. -/

theorem witness_StartClearsAndChecks : (waiting [0x00] [.start]).phase ≠ .busy ∧ (waiting [0x00] [.start]).requests = .start :: [] := by
  decide
/-- Both clauses: an input that just fits and one that is one byte too long. -/
theorem witness_StartClearsAndChecks_len :
    Config.payloadMax < (State.len { waiting [] [.start] with len := Config.payloadMax + 1 }) ∧
    (State.len { waiting [] [.start] with len := Config.payloadMax }) ≤ Config.payloadMax :=
  ⟨Nat.lt_succ_self _, Nat.le_refl _⟩
theorem witness_ResetAtAnyTime : (State.requests { running [0x00] .hex 1 with requests := [.reset] }) = .reset :: [] := rfl
theorem witness_StepAlwaysAnswers : step (waiting [] [.merge []]) = .fault .mergeWithoutDecode := rfl
theorem witness_ResultsHoldUntilStartOrReset :
    (waiting [] [.setLen 5]).phase ≠ .busy ∧ (waiting [] [.setLen 5]).requests.head? ≠ some .start ∧
    (waiting [] [.setLen 5]).requests.head? ≠ some .reset ∧ (∃ t, step (waiting [] [.setLen 5]) = .next t) :=
  ⟨by decide, by decide, by decide, ⟨_, rfl⟩⟩
theorem witness_ResultsHoldUntilStartOrReset_start :
    (waiting [] [.start]).phase ≠ .busy ∧ (waiting [] [.start]).requests.head? = some .start ∧
    (∃ t, step (waiting [] [.start]) = .next t) := ⟨by decide, rfl, ⟨_, rfl⟩⟩
theorem witness_HostPlacesTheBytes :
    (waiting [] [.place [1, 0, 3]]).phase ≠ .busy ∧ (waiting [] [.place [1, 0, 3]]).requests = .place [1, 0, 3] :: [] ∧
    (waiting [] [.place [1, 0, 3]]).payload.wf = true := by decide
theorem witness_HostPlacesTheBytes_len :
    (waiting [] [.setLen 300]).phase ≠ .busy ∧ (waiting [] [.setLen 300]).requests = .setLen 300 :: [] := by decide
/-- The widest port that fits, and the narrowest that does not. -/
theorem witness_setPort_clauses :
    (waiting [] [.setPort (2 ^ Config.portW - 1)]).phase ≠ .busy ∧
    (waiting [] [.setPort (2 ^ Config.portW - 1)]).requests = .setPort (2 ^ Config.portW - 1) :: [] ∧
    2 ^ Config.portW - 1 < 2 ^ Config.portW ∧
    (waiting [] [.setPort (2 ^ Config.portW)]).phase ≠ .busy ∧
    (waiting [] [.setPort (2 ^ Config.portW)]).requests = .setPort (2 ^ Config.portW) :: [] ∧
    2 ^ Config.portW ≤ 2 ^ Config.portW :=
  ⟨by decide, rfl, Nat.sub_lt (Nat.two_pow_pos _) Nat.one_pos, by decide, rfl, Nat.le_refl _⟩
/-- PORT_W is at least 1 bit (R6): port 1 is taken and read back by PORT; a port of PORT_W + 1 bits is refused (U4). -/
theorem test_setPort_fits : look (fun t => t.port) (step (waiting [] [.setPort 1])) = some 1 := by
  rcases serve_setPort 1 (State.mk .idle .none .status 0 0 0 0 .empty [] 0 2 [] .status false false 0 none) with ⟨_, h⟩ | ⟨h, _⟩
  · exact congrArg (look fun t => t.port) h
  · exact absurd h (Nat.not_le.mpr (Nat.one_lt_two_pow (Nat.succ_ne_zero _)))
theorem test_setPort_tooWide : step (waiting [] [.setPort (2 ^ Config.portW)]) = .refused .portTooWide := by
  rcases serve_setPort (2 ^ Config.portW) (State.mk .idle .none .status 0 0 0 0 .empty [] 0 2 [] .status false false 0 none) with
    ⟨h, _⟩ | ⟨_, h⟩
  · exact absurd h (Nat.lt_irrefl _)
  · exact h
/-- One decode to run, for the statements about whole decodes: at rest, START pending, nothing else. -/
theorem witness_whole_decode : (waiting [0x0C, 1, 2] [.start]).phase ≠ .busy ∧ (waiting [0x0C, 1, 2] [.start]).requests = [.start] := by
  decide
theorem witness_DecodeThenMerge :
    (waiting [0x80, 0x19] [.start, .merge [(ascii "device", [0x78])]]).phase ≠ .busy ∧
    (waiting [0x80, 0x19] [.start, .merge [(ascii "device", [0x78])]]).requests = [.start, .merge [(ascii "device", [0x78])]] := by
  decide
theorem witness_TrailingBytesChangeNothing :
    let s := waiting [0x0C, 1, 2] [.start]
    let s' := waiting [0x0C, 1, 2, 0xAA, 0xBB] [.start]
    s.phase ≠ .busy ∧ s'.phase ≠ .busy ∧ s.requests = [.start] ∧ s'.requests = [.start] ∧
    layoutLength (s.byteAt 0) = s.len ∧ layoutLength (s.byteAt 0) ≤ s'.len ∧
    s.len ≤ Config.payloadMax ∧ s'.len ≤ Config.payloadMax ∧ s'.port = s.port ∧ s'.draws = s.draws ∧
    (∀ i, i < layoutLength (s.byteAt 0) → s'.byteAt i = s.byteAt i) := by
  refine ⟨by decide, by decide, rfl, rfl, by decide, by decide, ?_, ?_, rfl, rfl, by decide⟩
  · exact Nat.le_trans (by decide : 3 ≤ 17) (Nat.le_add_left 17 _)
  · exact Nat.le_trans (by decide : 5 ≤ 17) (Nat.le_add_left 17 _)
/-- A GPS payload with valid digits, decoded from two states that differ in everything but the inputs. -/
theorem witness_HistoryDoesNotMatter :
    let s := waiting [0x10, 0x48, 0x51, 0x47, 0x40, 0x00, 0x21, 0x76, 0x70, 0x17] [.start]
    let s' := { s with phase := .fault, fault := .shortBuffer, flags := 0xFF, cur := 7, draws := 3, latOpen := true }
    s.phase ≠ .busy ∧ s'.phase ≠ .busy ∧ s.requests = [.start] ∧ s'.requests = [.start] ∧ s'.len = s.len ∧ s'.port = s.port ∧
    (∀ i, i < s.len → s'.byteAt i = s.byteAt i) ∧
    ((s.byteAt 0).getLsbD 4 = true ∧ layoutLength (s.byteAt 0) ≤ s.len ∧
      ∀ d ∈ digits (coordOf (s.byteAt (groupStart (s.byteAt 0) .gps)) (s.byteAt (groupStart (s.byteAt 0) .gps + 1))
            (s.byteAt (groupStart (s.byteAt 0) .gps + 2)) (s.byteAt (groupStart (s.byteAt 0) .gps + 3))) ++
          digits (coordOf (s.byteAt (groupStart (s.byteAt 0) .gps + 4)) (s.byteAt (groupStart (s.byteAt 0) .gps + 5))
            (s.byteAt (groupStart (s.byteAt 0) .gps + 6)) (s.byteAt (groupStart (s.byteAt 0) .gps + 7))), d ≤ 9) := by
  decide

/-! States that meet the invariant: before STATUS with nothing to read (the next step faults), and before PORT of the one-byte
payload `00` (the next step ends the decode). -/

def beforeShortStatus : State := running [] .status 0
def beforePort : State :=
  { running [0x00] .port 1 with res := { Results.empty.writeFlags 0 with hex := some (ascii "00"), length := some 1 } }

theorem two_le_lenW : 2 < 2 ^ Config.lenW :=
  Nat.lt_of_le_of_lt (Nat.le_trans (by decide : 2 ≤ 17) (Nat.le_add_left 17 _)) payloadMax_lt_lenW

theorem two_le_payloadMax : 2 ≤ Config.payloadMax := Nat.le_trans (by decide : 2 ≤ 17) (Nat.le_add_left 17 _)

theorem beforeShortStatus_inv : Inv beforeShortStatus where
  ranges :=
    { payloadCanonical := by decide
      payloadInCapacity := fun c hc => nomatch hc
      len := Nat.two_pow_pos _
      port := Nat.two_pow_pos _
      requests := fun r hr => nomatch hr
      faultCur := Nat.two_pow_pos _
      curOut := Nat.two_pow_pos _
      cur := Nat.two_pow_pos _
      resLength := fun n hn => nomatch hn
      resPort := fun p hp => nomatch hp }
  atRest := fun h => absurd rfl h
  idle := fun h => nomatch h
  busy := fun _ =>
    { noFault := rfl
      fits := Nat.zero_le _
      cursorInside := Nat.le_refl _
      atStatus := fun _ => ⟨rfl, rfl⟩
      latched := fun h => absurd rfl h
      cursorPlace := fun h => absurd rfl h
      groupBegun := by decide
      present := fun g => by cases g <;> decide
      flagRegisters := fun h => absurd rfl h }
  done := fun h => nomatch h
  fault := fun h => nomatch h
  merged := fun h => absurd rfl h

theorem beforePort_inv : Inv beforePort where
  ranges :=
    { payloadCanonical := by decide
      payloadInCapacity := fun c hc => nomatch hc
      len := Nat.lt_trans (by decide : 1 < 2) two_le_lenW
      port := Nat.two_pow_pos _
      requests := fun r hr => nomatch hr
      faultCur := Nat.two_pow_pos _
      curOut := Nat.two_pow_pos _
      cur := Nat.lt_trans (by decide : 1 < 2) two_le_lenW
      resLength := fun n hn => by
        obtain rfl : n = 1 := (Option.some.inj hn).symm
        exact Nat.lt_trans (by decide : 1 < 2) two_le_lenW
      resPort := fun p hp => nomatch hp }
  atRest := fun h => absurd rfl h
  idle := fun h => nomatch h
  busy := fun _ =>
    { noFault := rfl
      fits := Nat.le_trans (by decide : 1 ≤ 2) two_le_payloadMax
      cursorInside := Nat.le_refl _
      atStatus := by decide
      latched := by decide
      cursorPlace := by decide
      groupBegun := by decide
      present := fun g => by cases g <;> decide
      flagRegisters := fun _ => rfl }
  done := fun h => nomatch h
  fault := fun h => nomatch h
  merged := fun h => absurd rfl h

theorem witness_ShortBufferRecordsGroupAndStart :
    Inv beforeShortStatus ∧ Decoding beforeShortStatus ∧
    step beforeShortStatus = .next (beforeShortStatus.raise .shortBuffer .status 0) ∧
    (beforeShortStatus.raise .shortBuffer .status 0).phase = .fault :=
  ⟨beforeShortStatus_inv, running_decoding _ _ _, rfl, rfl⟩
/-- CursorOnlyMovesForward, OnlyStatusWritesFlags and StepKeepsInvariant: the step into DONE. -/
theorem witness_step_into_done :
    Inv beforePort ∧ Decoding beforePort ∧ ∃ t, step beforePort = .next t ∧ t.phase = .done ∧ t.phase ≠ .fault :=
  ⟨beforePort_inv, ⟨rfl, by decide, by decide⟩, ⟨_, rfl, by decide, by decide⟩⟩

/-- The state `beforePort` leads to: DONE. -/
def afterPort : State :=
  { beforePort with phase := .done, seq := .status, curOut := 1, res := { beforePort.res with port := some 0 } }

theorem afterPort_inv : Inv afterPort where
  ranges :=
    { beforePort_inv.ranges with
      curOut := Nat.lt_trans (by decide : 1 < 2) two_le_lenW
      resPort := fun p hp => by
        obtain rfl : p = 0 := (Option.some.inj hp).symm
        exact Nat.two_pow_pos _ }
  atRest := fun _ => rfl
  idle := fun h => nomatch h
  busy := fun h => nomatch h
  done := fun _ => ⟨rfl, by decide, rfl, fun g => by cases g <;> decide⟩
  fault := fun h => nomatch h
  merged := fun h => absurd rfl h

/-- Before TEMP of a two-byte payload. -/
def beforeTemp : State := { running [0x80, 0x19] .temp 1 with res := Results.empty.writeFlags 0x80 }

theorem beforeTemp_inv : Inv beforeTemp where
  ranges :=
    { payloadCanonical := by decide
      payloadInCapacity := fun c hc => by
        have hsmall : ∀ c ∈ beforeTemp.payload, c.1 < 17 := by decide
        exact Nat.lt_of_lt_of_le (hsmall c hc) (Nat.le_add_left 17 _)
      len := two_le_lenW
      port := Nat.two_pow_pos _
      requests := fun r hr => nomatch hr
      faultCur := Nat.two_pow_pos _
      curOut := Nat.two_pow_pos _
      cur := Nat.lt_trans (by decide : 1 < 2) two_le_lenW
      resLength := fun n hn => nomatch hn
      resPort := fun p hp => nomatch hp }
  atRest := fun h => absurd rfl h
  idle := fun h => nomatch h
  busy := fun _ =>
    { noFault := rfl
      fits := two_le_payloadMax
      cursorInside := by decide
      atStatus := by decide
      latched := by decide
      cursorPlace := by decide
      groupBegun := by decide
      present := fun g => by cases g <;> decide
      flagRegisters := fun _ => rfl }
  done := fun h => nomatch h
  fault := fun h => nomatch h
  merged := fun h => absurd rfl h

/-- TempStep's invariant clause: TEMP's operand is at index 1. -/
theorem witness_TempStep_inv : Inv beforeTemp ∧ Decoding beforeTemp ∧ beforeTemp.nextOp = .temp :=
  ⟨beforeTemp_inv, ⟨rfl, by decide, by decide⟩, by decide⟩
/-- OnlyStatusWritesFlags, its third clause: a DONE state that meets the invariant, reached by a step. -/
theorem witness_OnlyStatusWritesFlags_done :
    Inv afterPort ∧ afterPort.phase = .done ∧ step beforePort = .next afterPort := ⟨afterPort_inv, rfl, rfl⟩
theorem witness_OnlyStatusWritesFlags_exec :
    (∃ t, exec (.temp true 0) State.reset = .next t) ∧ (Instr.temp true 0).op ≠ some .status := ⟨⟨_, rfl⟩, by decide⟩

end Sys2Proof.Tests
end

section
/-!
SUPPORT. The fixed order as numbered places, and the layout operation by operation (30_encoding.md R50, R55, R58).
-/

namespace Sys2Proof

/-! ### The fixed order -/

theorem Op.index_next {o : Op} (h : o ≠ .port) : o.next.index = o.index + 1 := by
  cases o <;> first | rfl | exact absurd rfl h

/-- An operation is what stands at its place, so no two share one. -/
theorem Op.index_injective : Function.Injective Op.index :=
  Function.LeftInverse.injective (g := fun n => Op.order.getD n .status) fun o => by cases o <;> rfl

/-- The operations up to a place are those before it and the one at it. -/
theorem Op.index_lt_succ {q o : Op} (h : q.index < o.index + 1) : q.index < o.index ∨ q = o := by
  rcases Nat.lt_succ_iff_lt_or_eq.mp h with h | h
  · exact .inl h
  · exact .inr (Op.index_injective h)

/-! ### The layout, operation by operation -/

/-- A group starts at its place in the layout when the cursor stands there; STATUS starts at 0 anyway (R127). -/
theorem Op.base_groupStart (f : Byte) (o : Op) : o.base (groupStart f o.group) = groupStart f o.group := by
  cases o <;> rfl

/-- The next operation's group starts where this one's does, moved by what this one advances if it runs (R50, R55). -/
theorem groupStart_next (f : Byte) {o : Op} (h : o ≠ .port) :
    groupStart f o.next.group = groupStart f o.group + o.advance * (o.enabled f).toNat := by
  cases o
  case port => exact absurd rfl h
  all_goals
    simp only [Op.enabled_eq_present, Op.next, Op.group, Op.advance, Group.present, groupStart, layoutLength, statusBit,
      Bool.toNat_true, Nat.zero_mul, Nat.add_zero, Nat.one_mul]

/-- An operation that reads bytes needs its whole group and is selected by its group's flag (R31, R59, R117). -/
theorem Op.need_of_ne_zero {o : Op} (h0 : o.need ≠ 0) : o.need = o.group.width ∧ ∀ f, o.enabled f = o.group.present f := by
  cases o <;> first | exact absurd rfl h0 | exact ⟨rfl, fun f => Op.enabled_eq_present f _⟩

theorem layoutLength_pos (f : Byte) : 0 < layoutLength f := by
  simp only [layoutLength]
  omega

/-- A layout that announces the GPS group holds its nine bytes (R55, R56). -/
theorem gps_le_layoutLength {f : Byte} (h : f.getLsbD 4 = true) : groupStart f .gps + 9 ≤ layoutLength f := by
  simp only [groupStart, layoutLength, statusBit, h, Bool.toNat_true]
  omega

end Sys2Proof
end

section
/-!
SUPPORT. A whole decode, from START to rest (45_sequencer_assembler.md R122, R137): what holds before each operation in the
fixed order, that every step of the decode keeps it, and that the decode therefore ends in what `decodeTransaction`
computes in one go.
-/

namespace Sys2Proof.Machine

/-! ### Which operations find their bytes -/

/-- Whether operation `o`, run on payload `p`, finds its group's bytes (R31, R55). -/
def OperandFits (p : List Byte) (o : Op) : Prop :=
  o.need = 0 ∨ groupStart (p.getD 0 0) o.group + o.need ≤ p.length

/-- Every operation before place `n` that the status byte selects found its bytes. -/
def FitsBefore (p : List Byte) (n : Nat) : Prop :=
  ∀ q : Op, q.index < n → q.enabled (p.getD 0 0) = true → OperandFits p q

variable {p : List Byte} {o : Op}

theorem FitsBefore.nonempty {n : Nat} (h : FitsBefore p n) (hn : 0 < n) : 1 ≤ p.length := by
  rcases h .status hn (Op.enabled_bit _).1 with h | h
  · cases h
  · exact h

/-- One operation more that, if it is selected, finds its bytes. -/
theorem FitsBefore.succ (h : FitsBefore p o.index) (ho : o.enabled (p.getD 0 0) = true → OperandFits p o) :
    FitsBefore p (o.index + 1) := by
  intro q hq he
  rcases Op.index_lt_succ hq with hq | rfl
  · exact h q hq he
  · exact ho he

/-- Group `g` is announced and its last byte is missing (R125). -/
def groupShort (p : List Byte) (g : Group) : Bool :=
  g.present (p.getD 0 0) && decide (p.length < groupStart (p.getD 0 0) g + g.width)

theorem shortGroup_eq_find (h : 1 ≤ p.length) :
    shortGroup p = (groupsInOrder.find? (groupShort p)).map fun g => (g, groupStart (p.getD 0 0) g) :=
  if_neg (Nat.not_lt.mpr h)

/-- An operation that reads bytes finds its group short when it is selected and its bytes are not all there. -/
theorem groupShort_iff (h0 : o.need ≠ 0) :
    groupShort p o.group = true ↔ o.enabled (p.getD 0 0) = true ∧ ¬ OperandFits p o := by
  obtain ⟨hneed, hpresent⟩ := Op.need_of_ne_zero h0
  rw [groupShort, Bool.and_eq_true, decide_eq_true_eq, hpresent, OperandFits, hneed, not_or, Nat.not_le]
  exact and_congr_right fun _ => (and_iff_right (hneed ▸ h0)).symm

theorem FitsBefore.groupShort_eq_false {n : Nat} (h : FitsBefore p n) (q : Op) (hq : q.index < n) (h0 : q.need ≠ 0) :
    groupShort p q.group = false := by
  rw [Bool.eq_false_iff, ne_eq, groupShort_iff h0]
  exact fun ⟨he, hs⟩ => hs (h q hq he)

/-- The first operation in the fixed order that does not find its bytes is of the group R125 names. -/
theorem shortGroup_eq_of_fitsBefore (h : FitsBefore p o.index) (he : o.enabled (p.getD 0 0) = true)
    (hs : ¬ OperandFits p o) : shortGroup p = some (o.group, groupStart (p.getD 0 0) o.group) := by
  have h0 : o.need ≠ 0 := fun h => hs (.inl h)
  have hshort := (groupShort_iff h0).mpr ⟨he, hs⟩
  by_cases ho : o = .status
  · subst ho
    exact if_pos (Nat.lt_of_not_le fun hl => hs (.inr hl))
  have hfind : groupsInOrder.find? (groupShort p) = some o.group := by
    have pass : ∀ (q : Op) (gs : List Group), q.index < o.index → q.need ≠ 0 →
        (q.group :: gs).find? (groupShort p) = gs.find? (groupShort p) := fun q gs hq hn =>
      List.find?_cons_of_neg (Bool.eq_false_iff.mp (h.groupShort_eq_false q hq hn))
    cases o <;> first | exact absurd rfl h0 | exact absurd rfl ho | skip
    case temp => exact List.find?_cons_of_pos hshort
    all_goals refine (pass .temp _ (by decide) (by decide)).trans ?_
    case lat | lon | qual => exact List.find?_cons_of_pos hshort
    all_goals refine (pass .lat _ (by decide) (by decide)).trans ?_
    case upcnt => exact List.find?_cons_of_pos hshort
    all_goals refine (pass .upcnt _ (by decide) (by decide)).trans ?_
    case dncnt => exact List.find?_cons_of_pos hshort
    all_goals refine (pass .dncnt _ (by decide) (by decide)).trans ?_
    case batt => exact List.find?_cons_of_pos hshort
    all_goals refine (pass .batt _ (by decide) (by decide)).trans ?_
    case rssi | snr => exact List.find?_cons_of_pos hshort
  have hpos : 0 < o.index := Nat.pos_of_ne_zero fun h => ho (Op.index_injective (a₂ := .status) h)
  rw [shortGroup_eq_find (h.nonempty hpos), hfind]
  rfl

/-- When every selected operation finds its bytes, no group is short (R125). -/
theorem shortGroup_eq_none_of_fitsBefore (h : FitsBefore p 14) : shortGroup p = none := by
  have clear := h.groupShort_eq_false
  rw [shortGroup_eq_find (h.nonempty (by decide)), Option.map_eq_none_iff, List.find?_eq_none]
  intro g hg
  rw [Bool.not_eq_true]
  fin_cases hg
  · exact clear .temp (by decide) (by decide)
  · exact clear .lat (by decide) (by decide)
  · exact clear .upcnt (by decide) (by decide)
  · exact clear .dncnt (by decide) (by decide)
  · exact clear .batt (by decide) (by decide)
  · exact clear .rssi (by decide) (by decide)

/-! ### The result registers written so far -/

/-- The registers of the operations before place `n`; those of the others hold no value. -/
def Results.upTo (r : Results) (n : Nat) : Results :=
  let kept := fun {α : Type} (g : Reg) (v : Option α) => if g.writer.index < n then v else none
  { rssiSnrReported := kept .rssiSnrReported r.rssiSnrReported
    batteryLevelReported := kept .batteryLevelReported r.batteryLevelReported
    downlinkCounterReported := kept .downlinkCounterReported r.downlinkCounterReported
    uplinkCounterReported := kept .uplinkCounterReported r.uplinkCounterReported
    gpsReported := kept .gpsReported r.gpsReported
    triggeredByPushbutton := kept .triggeredByPushbutton r.triggeredByPushbutton
    triggeredByAccelerometer := kept .triggeredByAccelerometer r.triggeredByAccelerometer
    temperatureReported := kept .temperatureReported r.temperatureReported
    temperature := kept .temperature r.temperature
    latitude := kept .latitude r.latitude
    latitudeDm := kept .latitudeDm r.latitudeDm
    latitudeHemisphere := kept .latitudeHemisphere r.latitudeHemisphere
    longitude := kept .longitude r.longitude
    longitudeDm := kept .longitudeDm r.longitudeDm
    longitudeHemisphere := kept .longitudeHemisphere r.longitudeHemisphere
    lonlat := kept .lonlat r.lonlat
    satellites := kept .satellites r.satellites
    reception := kept .reception r.reception
    uplinkCounter := kept .uplinkCounter r.uplinkCounter
    downlinkCounter := kept .downlinkCounter r.downlinkCounter
    batteryLevel := kept .batteryLevel r.batteryLevel
    rssi := kept .rssi r.rssi
    snr := kept .snr r.snr
    hex := kept .hex r.hex
    length := kept .length r.length
    port := kept .port r.port }

@[simp] theorem Results.upTo_zero (r : Results) : r.upTo 0 = .empty := rfl

@[simp] theorem Results.upTo_end (r : Results) : r.upTo 14 = r := rfl

variable {port draws : Nat}

/-- An operation the status byte does not select has no register in the result (R16, R59). -/
theorem resultsOf_upTo_skip (h : o.enabled (p.getD 0 0) = false) :
    (resultsOf p port draws).upTo (o.index + 1) = (resultsOf p port draws).upTo o.index := by
  rw [Op.enabled_eq_present] at h
  cases o <;> first | cases h | skip
  all_goals
    simp only [Op.group, Group.present] at h
    simp only [Results.upTo, resultsOf, h, Op.index, Reg.writer]
    rfl

/-! ### The free values drawn so far -/

/-- The operand of LAT in a payload that announces the GPS group (R55, R100). -/
def latOperand (p : List Byte) : Coord :=
  let gps := groupStart (p.getD 0 0) .gps
  coordOf (p.getD gps 0) (p.getD (gps + 1) 0) (p.getD (gps + 2) 0) (p.getD (gps + 3) 0)

/-- The operand of LON in a payload that announces the GPS group (R55, R100). -/
def lonOperand (p : List Byte) : Coord :=
  let gps := groupStart (p.getD 0 0) .gps
  coordOf (p.getD (gps + 4) 0) (p.getD (gps + 5) 0) (p.getD (gps + 6) 0) (p.getD (gps + 7) 0)

/-- The coordinate operation `w` with operand `c` is selected, stands before place `n`, and wrote a value the spec leaves
open (R103). -/
def openBefore (p : List Byte) (n : Nat) (w : Op) (c : Coord) : Bool :=
  w.enabled (p.getD 0 0) && decide (w.index < n) && !validDigits c

/-- The model's record of open values before place `n`, as far as it is read: up to LONLAT (log 4, 5). -/
structure OpenRecord (p : List Byte) (draws n : Nat) (s : State) : Prop where
  latOpen : s.latOpen = openBefore p n .lat (latOperand p)
  lonOpen : s.lonOpen = openBefore p n .lon (lonOperand p)
  draws : n ≤ Op.lonlat.index →
    s.draws = draws + (openBefore p n .lat (latOperand p)).toNat + (openBefore p n .lon (lonOperand p)).toNat

theorem openBefore_of_le {w : Op} {c : Coord} {n : Nat} (h : n ≤ w.index) : openBefore p n w c = false := by
  simp only [openBefore, Nat.not_lt.mpr h, decide_false, Bool.and_false, Bool.false_and]

theorem openBefore_of_lt {w : Op} {c : Coord} {n : Nat} (he : w.enabled (p.getD 0 0) = true) (h : w.index < n) :
    openBefore p n w c = !validDigits c := by
  simp only [openBefore, he, h, decide_true, Bool.true_and]

/-- An operation other than `w`, or not selected, leaves `w`'s open value as it was. -/
theorem openBefore_succ {w : Op} {c : Coord} (h : o.enabled (p.getD 0 0) = false ∨ o ≠ w) :
    openBefore p (o.index + 1) w c = openBefore p o.index w c := by
  by_cases hw : o = w
  · subst hw
    have hoff : o.enabled (p.getD 0 0) = false := h.resolve_right (· rfl)
    simp only [openBefore, hoff, Bool.false_and]
  · have hi : w.index ≠ o.index := fun e => hw (Op.index_injective e.symm)
    have hlt : w.index < o.index + 1 ↔ w.index < o.index := by omega
    simp only [openBefore, hlt]

/-! ### One operation -/

/-- The instruction operation `o` reads from payload `p`. -/
def operand (p : List Byte) (o : Op) : Instr :=
  decodeAt (fun k => p.getD (groupStart (p.getD 0 0) o.group + k) 0) o

variable {s t : State}

/-- An operation that is not selected leaves the record as it was. -/
theorem OpenRecord.skip (h : OpenRecord p draws o.index s) (he : o.enabled (p.getD 0 0) = false) :
    OpenRecord p draws (o.index + 1) { s with seq := o.next } where
  latOpen := by rw [openBefore_succ (.inl he)]; exact h.latOpen
  lonOpen := by rw [openBefore_succ (.inl he)]; exact h.lonOpen
  draws hn := by rw [openBefore_succ (.inl he), openBefore_succ (.inl he)]; exact h.draws (Nat.le_of_succ_le hn)

/-- LAT's free value is the decode's first. -/
theorem OpenRecord.draws_lat (h : OpenRecord p draws Op.lat.index s) : s.draws = draws := by
  rw [h.draws (by decide), openBefore_of_le (by decide), openBefore_of_le (by decide)]
  rfl

/-- LON's free value comes after LAT's. -/
theorem OpenRecord.draws_lon (h : OpenRecord p draws Op.lon.index s) (he : Op.enabled (p.getD 0 0) .lat = true) :
    s.draws = draws + (!validDigits (latOperand p)).toNat := by
  rw [h.draws (by decide), openBefore_of_lt he (by decide), openBefore_of_le (by decide)]
  rfl

/-- What LONLAT finds: whether either value is open, and the free values drawn for them. -/
theorem OpenRecord.at_lonlat (h : OpenRecord p draws Op.lonlat.index s) (hlat : Op.enabled (p.getD 0 0) .lat = true)
    (hlon : Op.enabled (p.getD 0 0) .lon = true) :
    s.latOpen = !validDigits (latOperand p) ∧ s.lonOpen = !validDigits (lonOperand p) ∧
    s.draws = draws + (!validDigits (latOperand p)).toNat + (!validDigits (lonOperand p)).toNat := by
  rw [h.latOpen, h.lonOpen, h.draws (by decide), openBefore_of_lt hlat (by decide), openBefore_of_lt hlon (by decide)]
  exact ⟨rfl, rfl, rfl⟩

/-- An operation writes its own registers, with what the layout gives them (R55, R137). -/
theorem exec_operand_res (he : o.enabled (p.getD 0 0) = true) (hbytes : s.bytes = p) (hport : s.port = port)
    (hopen : OpenRecord p draws o.index s) (hres : s.res = (resultsOf p port draws).upTo o.index)
    (h : exec (operand p o) s = .next t) : t.res = (resultsOf p port draws).upTo (o.index + 1) := by
  have hbit := he
  rw [Op.enabled_eq_present] at hbit
  cases o
  all_goals
    obtain rfl := Host.Outcome.next.inj h
    clear h
    simp only [Op.group, Group.present] at hbit
    simp only [State.moveCursor_res, State.countDraw_res, hres]
  case hex =>
    simp only [hbytes]
    rfl
  case port =>
    simp only [hport]
    rfl
  case len =>
    simp only [← State.bytes_length, hbytes]
    rfl
  case status =>
    obtain ⟨h0, h1, h2, h3, h4, h5, h6, h7⟩ := statusFlag_bits (p.getD 0 0)
    simp only [resultsOf, ← h0, ← h1, ← h2, ← h3, ← h4, ← h5, ← h6, ← h7]
    rfl
  case lat =>
    simp only [hopen.draws_lat, resultsOf, hbit]
    rfl
  case lon =>
    simp only [hopen.draws_lon he, resultsOf, hbit]
    rfl
  case lonlat =>
    obtain ⟨hlat, hlon, hdraws⟩ := hopen.at_lonlat he he
    simp only [hlat, hlon, hdraws, resultsOf, hbit]
    rfl
  case temp =>
    simp only [temperature_byte, resultsOf, hbit]
    rfl
  case rssi =>
    simp only [rssi_byte, resultsOf, hbit]
    rfl
  case batt =>
    simp only [battery_bytes, resultsOf, hbit]
    rfl
  case qual | upcnt | dncnt | snr =>
    simp only [resultsOf, hbit]
    rfl

/-- An operation keeps the record of open values up to date: LAT and LON write their own, the others none before LONLAT. -/
theorem exec_operand_openRecord (he : o.enabled (p.getD 0 0) = true) (hopen : OpenRecord p draws o.index s)
    (h : exec (operand p o) s = .next t) : OpenRecord p draws (o.index + 1) t := by
  have other : ∀ (w : Op) (c : Coord), o ≠ w → openBefore p (o.index + 1) w c = openBefore p o.index w c :=
    fun w c hw => openBefore_succ (.inr hw)
  cases o
  all_goals
    obtain rfl := Host.Outcome.next.inj h
    clear h
  case lat =>
    refine ⟨(openBefore_of_lt he (by decide)).symm, ?_, fun _ => ?_⟩
    · rw [other _ _ (by decide)]; exact hopen.lonOpen
    · rw [openBefore_of_lt he (by decide), openBefore_of_le (by decide), ← hopen.draws_lat]
      rfl
  case lon =>
    refine ⟨?_, (openBefore_of_lt he (by decide)).symm, fun _ => ?_⟩
    · rw [other _ _ (by decide)]; exact hopen.latOpen
    · rw [openBefore_of_lt (w := .lat) he (by decide), openBefore_of_lt he (by decide), ← hopen.draws_lon he]
      rfl
  case lonlat =>
    refine ⟨?_, ?_, fun hn => absurd hn (by decide)⟩
    · rw [other _ _ (by decide)]; exact hopen.latOpen
    · rw [other _ _ (by decide)]; exact hopen.lonOpen
  all_goals
    refine ⟨?_, ?_, fun hn => ?_⟩
    · rw [other _ _ (by decide)]; exact hopen.latOpen
    · rw [other _ _ (by decide)]; exact hopen.lonOpen
    · rw [other _ _ (by decide), other _ _ (by decide)]; exact hopen.draws (Nat.le_of_succ_le hn)

/-- An operation other than STATUS leaves `F` alone, and STATUS writes byte 0 to it (R12). -/
theorem exec_operand_flags (hf : o ≠ .status → s.flags = p.getD 0 0) (h : exec (operand p o) s = .next t) :
    t.flags = p.getD 0 0 := by
  by_cases ho : o = .status
  · subst ho
    obtain rfl := Host.Outcome.next.inj h
    rfl
  · rw [exec_flags (decodeAt_op _ o) ho h, hf ho]

/-- When an operation has run, the cursor stands where the next operation's group starts (R11, R55). -/
theorem exec_operand_cur (ho : o ≠ .port) (he : o.enabled (p.getD 0 0) = true)
    (hc : s.cur = groupStart (p.getD 0 0) o.group) (h : exec (operand p o) s = .next t) :
    (t.retire o).cur = groupStart (p.getD 0 0) o.next.group := by
  by_cases hs : o = .status
  · subst hs
    obtain rfl := Host.Outcome.next.inj h
    rfl
  · rw [exec_retire_cur (decodeAt_op _ o) hs h, groupStart_next _ ho, he, hc, Bool.toNat_true, Nat.mul_one]

/-! ### A decode in progress -/

/-- The decode of payload `p`, with its free values counted from `draws` on, has come to operation `o`: the operations before
it that `p` selects have found their bytes and written what the layout gives them, and nothing else is present. -/
structure Progress (p : List Byte) (port draws : Nat) (o : Op) (s : State) : Prop where
  phase : s.phase = .busy
  requests : s.requests = []
  seq : s.seq = o
  bytes : s.bytes = p
  capacity : p.length ≤ Config.payloadMax
  latched : o ≠ .status → s.flags = p.getD 0 0
  cur : s.cur = groupStart (p.getD 0 0) o.group
  fits : FitsBefore p o.index
  res : s.res = (resultsOf p port draws).upTo o.index
  opens : OpenRecord p draws o.index s
  port : s.port = port

namespace Progress

variable (h : Progress p port draws o s)
include h

/-- Which operations are enabled is decided by byte 0, latched or, for STATUS, not needed (R59). -/
theorem enabled_flags : o.enabled s.flags = o.enabled (p.getD 0 0) := by
  by_cases ho : o = .status
  · rw [ho, (Op.enabled_bit _).1, (Op.enabled_bit _).1]
  · rw [h.latched ho]

theorem base_cur : o.base s.cur = groupStart (p.getD 0 0) o.group := by
  rw [h.cur, Op.base_groupStart]

theorem decodeAt_cur : decodeAt (fun k => s.bytes.getD (o.base s.cur + k) 0) o = operand p o := by
  rw [h.bytes, h.base_cur, operand]

theorem len : s.len = p.length := by
  rw [← h.bytes, State.bytes_length]

/-- An operation that is not selected is passed over. -/
theorem skip (he : o.enabled (p.getD 0 0) = false) : Progress p port draws o.next { s with seq := o.next } := by
  obtain ⟨hstatus, -, -, -, -, -, -, -, -, -, -, -, -, hport⟩ := Op.enabled_bit (p.getD 0 0)
  have hs : o ≠ .status := by rintro rfl; exact Bool.false_ne_true (he.symm.trans hstatus)
  have hp : o ≠ .port := by rintro rfl; exact Bool.false_ne_true (he.symm.trans hport)
  have hi := Op.index_next hp
  exact
    { phase := h.phase
      requests := h.requests
      seq := rfl
      bytes := h.bytes
      port := h.port
      capacity := h.capacity
      latched := fun _ => h.latched hs
      cur := by rw [groupStart_next _ hp, he, Bool.toNat_false, Nat.mul_zero, Nat.add_zero]; exact h.cur
      fits := hi ▸ h.fits.succ fun hon => absurd (he.symm.trans hon) Bool.false_ne_true
      res := by rw [hi, resultsOf_upTo_skip he]; exact h.res
      opens := hi ▸ h.opens.skip he }

/-- A selected operation that finds its bytes runs and retires. -/
theorem run (ho : o ≠ .port) (he : o.enabled (p.getD 0 0) = true) (hf : OperandFits p o)
    (ht : exec (operand p o) s = .next t) : Progress p port draws o.next (t.retire o) := by
  have frame := exec_frameButFlags (by rw [operand, decodeAt_op]; simp) ht
  have hi := Op.index_next ho
  have hopens := exec_operand_openRecord he h.opens ht
  exact
    { phase := by rw [State.retire_phase, if_neg ho, frame.phase, h.phase]
      requests := by rw [State.retire_requests, frame.requests, h.requests]
      seq := State.retire_seq t o
      bytes := by
        rw [← h.bytes]
        exact State.bytes_congr (by rw [State.retire_payload, exec_payload ht]) (by rw [State.retire_len, frame.len])
      port := by rw [State.retire_port, frame.port, h.port]
      capacity := h.capacity
      latched := fun _ => by rw [State.retire_flags, exec_operand_flags h.latched ht]
      cur := exec_operand_cur ho he h.cur ht
      fits := hi ▸ h.fits.succ fun _ => hf
      res := by rw [State.retire_res, hi, exec_operand_res he h.bytes h.port h.opens h.res ht]
      opens := hi ▸ ⟨by simpa using hopens.latOpen, by simpa using hopens.lonOpen, by simpa using hopens.draws⟩ }

/-- A selected operation that does not find its bytes ends the decode in the fault of the one function (R125, R137). -/
theorem raise (he : o.enabled (p.getD 0 0) = true) (hs : ¬ OperandFits p o) :
    (s.raise .shortBuffer o.group (o.base s.cur)).observe = decodeTransaction p port draws := by
  rw [decodeTransaction, if_neg (Nat.not_lt.mpr h.capacity), shortGroup_eq_of_fitsBefore h.fits he hs, h.base_cur]
  rfl

end Progress

/-- PORT ends the decode in the result of the one function (R122 step 8, R137). -/
theorem Progress.finish (h : Progress p port draws .port s) (ht : exec (operand p .port) s = .next t) :
    (t.retire .port).observe = decodeTransaction p port draws := by
  have hport : Op.enabled (p.getD 0 0) .port = true := by simp [Op.enabled_eq_present, Op.group]
  have hfits : FitsBefore p 14 := h.fits.succ fun _ => .inl rfl
  have hres : t.res = resultsOf p port draws :=
    (exec_operand_res hport h.bytes h.port h.opens h.res ht).trans (Results.upTo_end _)
  have hcur : t.cur = layoutLength (p.getD 0 0) := by
    obtain rfl := Host.Outcome.next.inj ht
    exact h.cur
  rw [decodeTransaction, if_neg (Nat.not_lt.mpr h.capacity), shortGroup_eq_none_of_fitsBefore hfits, ← hres, ← hcur]
  rfl

/-- From any operation on, the decode ends, at the latest after PORT, in what the one function gives. -/
theorem Progress.ends (n : Nat) (hn : o.index + n = 13) (h : Progress p port draws o s) :
    Ends (n + 1) s fun t => t.observe = decodeTransaction p port draws := by
  induction n generalizing o s with
  | zero =>
    obtain rfl : o = .port := Op.index_injective hn
    refine ends_op h.phase h.requests h.seq ?_ ?_ ?_
    · intro he
      rw [h.enabled_flags, Op.enabled_eq_present] at he
      cases he
    · exact fun _ h0 _ => absurd rfl h0
    · intro _ _ t ht
      rw [h.decodeAt_cur] at ht
      have frame := exec_frameButFlags (by rw [operand, decodeAt_op]; simp) ht
      refine ends_rest ?_ ?_ (h.finish ht) 0
      · simp [State.retire_phase]
      · simp [frame.requests, h.requests]
  | succ n ih =>
    have ho : o ≠ .port := by rintro rfl; simp [Op.index] at hn
    have hn' : o.next.index + n = 13 := by rw [Op.index_next ho]; omega
    refine ends_op h.phase h.requests h.seq ?_ ?_ ?_
    · intro he
      exact ih hn' (h.skip (h.enabled_flags ▸ he))
    · intro he h0 hl
      refine h.raise (h.enabled_flags ▸ he) ?_
      rw [h.base_cur, h.len] at hl
      exact fun hf => hf.elim h0 (Nat.not_le.mpr hl)
    · intro he hf t ht
      rw [h.base_cur, h.len] at hf
      rw [h.decodeAt_cur] at ht
      exact ih hn' (h.run ho (h.enabled_flags ▸ he) hf ht)

/-! ### A whole decode -/

/-- A pending START is taken when no decode runs (R176). -/
theorem step_start (hp : s.phase ≠ .busy) {rs : List HostRequest} (hr : s.requests = .start :: rs) :
    step s = .next (State.startDecode { s with requests := rs }) := by
  rcases step_cases s with ⟨hb, _⟩ | ⟨hb, _⟩ | ⟨hb, _⟩ | ⟨_, hnil, _⟩ | ⟨_, r, rs', hcons, hs⟩
  · exact absurd hb hp
  · exact absurd hb hp
  · exact absurd hb hp
  · simp [hr] at hnil
  · obtain ⟨rfl, rfl⟩ := List.cons.inj (hr.symm.trans hcons)
    exact hs

/-- START with an input that fits begins the decode at STATUS (R21, R122 step 0). -/
theorem progress_startDecode (hr : s.requests = []) (hl : s.len ≤ Config.payloadMax) :
    Progress s.bytes s.port s.draws .status s.startDecode := by
  rw [State.startDecode_fits s hl]
  exact
    { phase := rfl
      requests := hr
      seq := rfl
      bytes := rfl
      capacity := by rw [State.bytes_length]; exact hl
      latched := fun h => absurd rfl h
      cur := rfl
      fits := fun q hq => absurd hq (Nat.not_lt_zero _)
      res := (Results.upTo_zero _).symm
      opens := by
        have hnone : ∀ w c, openBefore s.bytes 0 w c = false := fun _ _ => openBefore_of_le (Nat.zero_le _)
        exact ⟨(hnone _ _).symm, (hnone _ _).symm, fun _ => by simp only [Op.index, hnone]; rfl⟩
      port := rfl }

/-- A decode started from rest ends within fifteen steps, and what the host then observes is `decodeTransaction` of the
inputs, whatever the state held before (R137, R181). -/
theorem decode_ends (hp : s.phase ≠ .busy) (hr : s.requests = [.start]) :
    Ends 15 s fun t => t.observe = decodeTransaction s.bytes s.port s.draws := by
  refine ends_step (step_start hp hr) ?_
  by_cases hl : s.len ≤ Config.payloadMax
  · exact (progress_startDecode (s := { s with requests := [] }) rfl hl).ends 13 rfl
  · have htoo : Config.payloadMax < s.len := Nat.lt_of_not_le hl
    rw [State.startDecode_tooLong { s with requests := [] } htoo]
    refine ends_rest (by simp) rfl ?_ 14
    rw [decodeTransaction, State.bytes_length, if_pos htoo]
    rfl

end Sys2Proof.Machine
end

section
/-!
SUPPORT. What a decode depends on: its inputs, and free values only where a coordinate digit is out of specification
(00_scope.md R4, 42_coordinate.md R103).
-/

namespace Sys2Proof.Machine

variable {p : List Byte} {port draws : Nat} {s : State}

/-- The payload depends on the first `len` bytes of the buffer alone. -/
theorem State.bytes_eq_of_byteAt {s' : State} (hl : s'.len = s.len) (hb : ∀ i, i < s.len → s'.byteAt i = s.byteAt i) :
    s'.bytes = s.bytes := by
  rw [State.bytes, State.bytes, hl]
  exact List.map_congr_left fun i hi => hb i (List.mem_range.mp hi)

/-- Valid digits draw no free value: the result does not depend on how many were drawn before (R102, R103). -/
theorem resultsOf_draws (h : (p.getD 0 0).getLsbD 4 = true →
      validDigits (latOperand p) = true ∧ validDigits (lonOperand p) = true) (draws' : Nat) :
    resultsOf p port draws' = resultsOf p port draws := by
  cases hg : (p.getD 0 0).getLsbD 4 with
  | false => simp only [resultsOf, hg]; rfl
  | true =>
    obtain ⟨hlat, hlon⟩ := h hg
    simp only [latOperand, lonOperand] at hlat hlon
    simp only [resultsOf, latitudeResult, latitudeDmResult, longitudeResult, longitudeDmResult, hlat, hlon]
    rfl

/-- The same for what the host observes; a payload too short for its layout shows no coordinate at all. -/
theorem decodeTransaction_draws (h : (p.getD 0 0).getLsbD 4 = true → layoutLength (p.getD 0 0) ≤ p.length →
      validDigits (latOperand p) = true ∧ validDigits (lonOperand p) = true) (draws' : Nat) :
    decodeTransaction p port draws' = decodeTransaction p port draws := by
  unfold decodeTransaction
  cases hs : shortGroup p with
  | some g => rfl
  | none =>
    obtain ⟨-, hfit⟩ := (shortGroup_eq_none p).mp hs
    rw [resultsOf_draws (fun hg => h hg hfit) draws']

/-- A layout that fits has its status byte, so the payload's byte 0 is the buffer's. -/
theorem State.getD_bytes_zero (h : layoutLength (s.bytes.getD 0 0) ≤ s.len) : s.bytes.getD 0 0 = s.byteAt 0 :=
  s.getD_bytes (Nat.lt_of_lt_of_le (layoutLength_pos _) h)

/-- The coordinate operands of a payload whose layout fits, read off the buffer (R55). -/
theorem operands_bytes (hg : (s.byteAt 0).getLsbD 4 = true) (hl : layoutLength (s.byteAt 0) ≤ s.len)
    (h0 : s.bytes.getD 0 0 = s.byteAt 0) :
    latOperand s.bytes = coordOf (s.byteAt (groupStart (s.byteAt 0) .gps)) (s.byteAt (groupStart (s.byteAt 0) .gps + 1))
      (s.byteAt (groupStart (s.byteAt 0) .gps + 2)) (s.byteAt (groupStart (s.byteAt 0) .gps + 3)) ∧
    lonOperand s.bytes = coordOf (s.byteAt (groupStart (s.byteAt 0) .gps + 4))
      (s.byteAt (groupStart (s.byteAt 0) .gps + 5)) (s.byteAt (groupStart (s.byteAt 0) .gps + 6))
      (s.byteAt (groupStart (s.byteAt 0) .gps + 7)) := by
  have hgps := gps_le_layoutLength hg
  have at_gps : ∀ k, k < 9 →
      s.bytes.getD (groupStart (s.byteAt 0) .gps + k) 0 = s.byteAt (groupStart (s.byteAt 0) .gps + k) :=
    fun k hk => s.getD_bytes (by omega)
  simp only [latOperand, lonOperand, h0]
  rw [at_gps 1 (by decide), at_gps 2 (by decide), at_gps 3 (by decide), at_gps 4 (by decide), at_gps 5 (by decide),
    at_gps 6 (by decide), at_gps 7 (by decide)]
  exact ⟨congrArg (coordOf · _ _ _) (at_gps 0 (by decide)), rfl⟩

theorem validDigits_iff (c : Coord) : validDigits c = true ↔ ∀ d ∈ digits c, d ≤ 9 := by
  simp only [validDigits, List.all_eq_true, decide_eq_true_eq]

/-- Settles O59: the end of a decode is `decodeTransaction` of its inputs, which valid digits keep free of any drawn value. -/
theorem historyDoesNotMatter : Obligations.HistoryDoesNotMatter := by
  intro s s' hp hp' hr hr' hlen hport hbyte hdigits
  obtain ⟨t, ht, hobs, -⟩ := decode_ends hp hr
  obtain ⟨t', ht', hobs', -⟩ := decode_ends hp' hr'
  refine ⟨t, t', ht, ht', ?_⟩
  rw [hobs, hobs', State.bytes_eq_of_byteAt hlen hbyte, hport]
  refine decodeTransaction_draws (fun hg hfit => ?_) s'.draws
  rw [State.bytes_length] at hfit
  have h0 := State.getD_bytes_zero hfit
  rw [h0] at hg hfit
  obtain ⟨hlat, hlon⟩ := operands_bytes hg hfit h0
  have hvalid := hdigits hg hfit
  rw [← hlat, ← hlon] at hvalid
  obtain ⟨hvlat, hvlon⟩ := List.forall_mem_append.mp hvalid
  exact ⟨(validDigits_iff _).mpr hvlat, (validDigits_iff _).mpr hvlon⟩

end Sys2Proof.Machine
end

section
/-!
SUPPORT. RES (10_state.md R24): the mapping lists exactly the present registers, each under its own key, and looks each one up.
-/

namespace Sys2Proof.Machine

variable {r : Results} {k : Key}

/-- RES pairs the key of a present register with its value, and lists nothing else (R24). -/
theorem Results.mem_mapping {v : Value} : (k, v) ∈ r.mapping ↔ ∃ g : Reg, g.key = k ∧ r.get g = some v := by
  simp only [Results.mapping, List.mem_filterMap, Option.map_eq_some_iff, Prod.mk.injEq]
  constructor
  · rintro ⟨g, -, _, hget, hkey, rfl⟩
    exact ⟨g, hkey, hget⟩
  · rintro ⟨g, hkey, hget⟩
    exact ⟨g, g.mem_all, v, hget, hkey, rfl⟩

/-- The keys of RES are those of the present registers, in the order of R12 and R13. -/
theorem Results.mapping_keys (r : Results) : r.mapping.map Prod.fst = (Reg.all.filter r.pres).map Reg.key := by
  rw [Results.mapping]
  induction Reg.all with
  | nil => rfl
  | cons g gs ih => cases hg : r.get g <;> simp [Results.pres, hg, ih]

theorem Results.mapping_keysDistinct (r : Results) : keysDistinct r.mapping = true := by
  rw [keysDistinct, decide_eq_true_eq, Results.mapping_keys]
  exact Reg.keys_nodup.sublist (List.filter_sublist.map Reg.key)

/-- A key of RES is the name of a present register (R24). -/
theorem Results.exists_pres_of_lookupKey (h : lookupKey k r.mapping ≠ none) : ∃ g : Reg, g.key = k ∧ r.pres g = true := by
  have hmem : k ∈ r.mapping.map Prod.fst := not_imp_comm.mp (lookupKey_eq_none k r.mapping).mpr h
  rw [Results.mapping_keys] at hmem
  obtain ⟨g, hg, hkey⟩ := List.mem_map.mp hmem
  exact ⟨g, hkey, (List.mem_filter.mp hg).2⟩

/-- A register's name looks up its value, and nothing where the register is absent (R24). -/
theorem Results.lookupKey_mapping (r : Results) (g : Reg) : lookupKey g.key r.mapping = r.get g := by
  cases hget : r.get g with
  | some v => exact lookupKey_of_mem r.mapping_keysDistinct (Results.mem_mapping.mpr ⟨g, rfl, hget⟩)
  | none =>
    by_contra hne
    obtain ⟨g', hkey, hpres⟩ := Results.exists_pres_of_lookupKey hne
    obtain rfl := Reg.key_injective hkey
    simp [Results.pres, hget] at hpres

/-- Settles O30: the keys of RES are the present registers' names, which are distinct, so each looks up its own register. -/
theorem mappingIsTheRegisters : Obligations.MappingIsTheRegisters :=
  fun r => ⟨r.mapping_keysDistinct, r.lookupKey_mapping, fun _ => Results.exists_pres_of_lookupKey⟩

end Sys2Proof.Machine
end

section
/-!
SUPPORT. The flags (10_state.md R12): MERGE writes `out` alone, STATUS reads byte 0, and a register written by
`Results.writeFlags` shows its bit.
-/

namespace Sys2Proof.Machine

variable {s t : State} {i : Instr}

/-- Every instruction but MERGE is a sequenced operation (R58). -/
theorem eq_merge_of_op_eq_none (h : i.op = none) : ∃ md, i = .merge md := by
  cases i
  case merge md => exact ⟨md, rfl⟩
  all_goals cases h

/-- MERGE writes nothing but the mapping it yields (R138, R140). -/
theorem exec_merge_eq {md : List (Key × MetaValue)} (h : exec (.merge md) s = .next t) : t = { s with out := t.out } := by
  rcases execMerge_cases md s with ⟨_, hm⟩ | ⟨_, hm⟩ | ⟨_, hm⟩ <;> rw [exec, hm] at h
  · exact Host.Outcome.next.inj h ▸ rfl
  · exact Host.Outcome.next.inj h ▸ rfl
  · cases h

/-- No instruction but STATUS writes `F`, MERGE included (R12). -/
theorem exec_flags_of_ne_status (h : exec i s = .next t) (hi : i.op ≠ some .status) : t.flags = s.flags := by
  cases hop : i.op with
  | some o => exact exec_flags hop (fun ho => hi (ho ▸ hop)) h
  | none =>
    obtain ⟨md, rfl⟩ := eq_merge_of_op_eq_none hop
    rw [exec_merge_eq h]

/-- What STATUS fetches is byte 0, wherever the cursor stands (R70, R127). -/
theorem State.fetch_status (hn : s.nextOp = .status) (h : s.fetch = .ok i) : i = .status (s.byteAt 0) := by
  by_cases hl : s.nextOp.base s.cur + s.nextOp.need ≤ s.len
  · rw [State.fetch_ok (.inr hl)] at h
    rw [hn] at h hl
    rw [← Except.ok.inj h, ← s.getD_bytes (i := 0) hl]
    rfl
  · rw [State.fetch_short (by rw [hn]; decide) (Nat.lt_of_not_le hl)] at h
    cases h

/-- A decode step that does not fault leaves byte 0 in `F`: STATUS latches it, and the others find it latched (R12). -/
theorem step_flags (hinv : BusyInv s) (hd : Decoding s) (h : step s = .next t) (hf : t.phase ≠ .fault) :
    t.flags = s.byteAt 0 := by
  obtain ⟨hb, hr, hw⟩ := hd
  rw [step_busy hb hr hw] at h
  rcases runOp_cases s with ⟨g, c, -, hrun⟩ | ⟨i, u, hfetch, hop, hexec, hrun⟩ <;> rw [hrun] at h <;>
    obtain rfl := Host.Outcome.next.inj h
  · exact absurd rfl hf
  · rw [State.retire_flags]
    by_cases hn : s.nextOp = .status
    · rw [State.fetch_status hn hfetch] at hexec
      exact Host.Outcome.next.inj hexec ▸ rfl
    · rw [exec_flags hop hn hexec]
      exact (hinv.latched (mt (State.nextOp_eq_status s).mpr hn)).1

/-- Each flag register, written from a status byte, reads as its bit of it (R70, R71). -/
theorem Results.get_writeFlags (r : Results) (b : Byte) :
    (r.writeFlags b).get .temperatureReported = some (.flag (b.getLsbD 7)) ∧
    (r.writeFlags b).get .triggeredByAccelerometer = some (.flag (b.getLsbD 6)) ∧
    (r.writeFlags b).get .triggeredByPushbutton = some (.flag (b.getLsbD 5)) ∧
    (r.writeFlags b).get .gpsReported = some (.flag (b.getLsbD 4)) ∧
    (r.writeFlags b).get .uplinkCounterReported = some (.flag (b.getLsbD 3)) ∧
    (r.writeFlags b).get .downlinkCounterReported = some (.flag (b.getLsbD 2)) ∧
    (r.writeFlags b).get .batteryLevelReported = some (.flag (b.getLsbD 1)) ∧
    (r.writeFlags b).get .rssiSnrReported = some (.flag (b.getLsbD 0)) := by
  obtain ⟨h0, h1, h2, h3, h4, h5, h6, h7⟩ := statusFlag_bits b
  rw [← h0, ← h1, ← h2, ← h3, ← h4, ← h5, ← h6, ← h7]
  exact ⟨rfl, rfl, rfl, rfl, rfl, rfl, rfl, rfl⟩

/-- Settles O51: the frames of the meanings, the step of a decode, and the invariant's clause on DONE. -/
theorem onlyStatusWritesFlags : Obligations.OnlyStatusWritesFlags := by
  refine ⟨fun i s t => exec_flags_of_ne_status, fun s t hinv hd => step_flags (hinv.busy hd.1) hd, fun s hinv hp => ?_⟩
  obtain ⟨-, -, hshown, -⟩ := hinv.done hp
  rw [← hshown]
  exact s.res.get_writeFlags s.flags

end Sys2Proof.Machine
end

section
/-!
SUPPORT. What the host is offered: every read is part of the observation, the host's own actions leave the observation alone
until START or reset (10_state.md R21), and a state without results offers nothing (R150), the one after reset among them (R20).
-/

namespace Sys2Proof.Machine

variable {s t : State}

/-- What an observation says of a result register: its value in DONE, nothing otherwise (R21). -/
def Observation.read : Observation → Reg → Option Value
  | .done res _, g => res.get g
  | .idle, _ | .busy, _ | .fault _ _ _, _ => none

/-- The host reads nothing of a result register that it does not observe (R21, R175). -/
theorem State.hostRead_eq_read (s : State) (g : Reg) : s.hostRead g = s.observe.read g := by
  unfold State.hostRead State.observe
  cases s.phase <;> rfl

theorem State.hostRead_of_not_done (h : s.phase ≠ .done) (g : Reg) : s.hostRead g = none := if_neg h

/-- Whatever the host does but START and reset, it observes what it did (R21). -/
theorem serve_observe {r : HostRequest} (hstart : r ≠ .start) (hreset : r ≠ .reset) (h : serve r s = .next t) :
    t.observe = s.observe := by
  cases r
  case start => exact absurd rfl hstart
  case reset => exact absurd rfl hreset
  case merge md => rw [exec_merge_eq h]; rfl
  case setPort p =>
    rcases serve_setPort p s with ⟨-, hn⟩ | ⟨-, hn⟩ <;> rw [hn] at h
    · exact Host.Outcome.next.inj h ▸ rfl
    · cases h
  case place | setLen | wait => exact Host.Outcome.next.inj h ▸ rfl

/-- A block at rest shows the same after a step, unless it is START or reset that the step takes (R21, R162). -/
theorem step_observe (hp : s.phase ≠ .busy) (hstart : s.requests.head? ≠ some .start)
    (hreset : s.requests.head? ≠ some .reset) (h : step s = .next t) : t.observe = s.observe := by
  rcases step_cases s with ⟨hb, -⟩ | ⟨hb, -⟩ | ⟨hb, -⟩ | ⟨-, -, hs⟩ | ⟨-, r, rs, hr, hs⟩
  · exact absurd hb hp
  · exact absurd hb hp
  · exact absurd hb hp
  · rw [← Host.Outcome.next.inj (hs.symm.trans h)]
  · rw [hr, List.head?_cons, ne_eq, Option.some.injEq] at hstart hreset
    exact serve_observe (s := { s with requests := rs }) hstart hreset (hs.symm.trans h)

@[simp] theorem Results.get_empty (g : Reg) : Results.empty.get g = none := by
  cases g <;> rfl

/-- With every presence bit cleared nothing is offered (R150). -/
theorem nothingPresent_of_res_empty (h : s.res = .empty) : NothingPresent s :=
  fun g => by rw [h, Results.pres, Results.get_empty]; rfl

/-- START leaves the host nothing to read: it clears every result before the decode begins (R21). -/
theorem State.hostRead_startDecode (s : State) (g : Reg) : s.startDecode.hostRead g = none := by
  rw [State.hostRead, State.startDecode_res, Results.get_empty, ite_self]

/-- A decode that START begins shows no fault (R21, R122 step 0). -/
theorem State.startDecode_fault (h : s.startDecode.phase = .busy) : s.startDecode.fault = .none := by
  by_cases hl : s.len ≤ Config.payloadMax
  · rw [State.startDecode_fits s hl]
  · rw [State.startDecode_tooLong s (Nat.lt_of_not_le hl)] at h
    cases h

/-- Settles O46: reads are part of the observation, which at rest only START and reset change; START clears the registers. -/
theorem resultsHoldUntilStartOrReset : Obligations.ResultsHoldUntilStartOrReset := by
  refine ⟨fun s g h => State.hostRead_of_not_done h g, fun s t hp hstart hreset h => ?_, fun s t hp hr h => ?_⟩
  · have hobs := step_observe hp hstart hreset h
    exact ⟨hobs, fun g => by rw [State.hostRead_eq_read, hobs, ← State.hostRead_eq_read]⟩
  · obtain ⟨rs, hr⟩ := List.head?_eq_some_iff.mp hr
    obtain rfl := Host.Outcome.next.inj ((step_start hp hr).symm.trans h)
    exact ⟨State.hostRead_startDecode _, nothingPresent_of_res_empty (State.startDecode_res _), State.startDecode_cur _,
      State.startDecode_fault⟩

/-- Every register's value after reset is in its range: 0, nothing placed, nothing asked for (R20; log 7). -/
theorem reset_ranges : Ranges State.reset where
  payloadCanonical := reset_payload_wf
  payloadInCapacity := fun _ h => nomatch h
  len := Nat.two_pow_pos _
  port := Nat.two_pow_pos _
  requests := fun _ h => nomatch h
  faultCur := Nat.two_pow_pos _
  curOut := Nat.two_pow_pos _
  cur := Nat.two_pow_pos _
  resLength := fun _ h => nomatch h
  resPort := fun _ h => nomatch h

/-- The state after reset meets the invariant: no decode is in progress and no result is offered (R20). -/
theorem reset_inv : Inv State.reset where
  ranges := reset_ranges
  atRest := fun _ => rfl
  idle := fun _ => ⟨rfl, rfl⟩
  busy := fun h => nomatch h
  done := fun h => nomatch h
  fault := fun h => nomatch h
  merged := fun h => absurd rfl h

/-- Settles O53: reset is IDLE without fault and without results, and every register in its range. -/
theorem resetMeetsInvariant : Obligations.ResetMeetsInvariant :=
  ⟨rfl, rfl, nothingPresent_of_res_empty rfl, reset_inv⟩

end Sys2Proof.Machine
end

section
/-!
SUPPORT. The read primitive and the payload's frame (20_memory.md): what MemRead answers on both sides of its bound (R31),
and that nothing a decode does touches the buffer, `len` or `port` (R34).
-/

namespace Sys2Proof

variable {p bs : List Byte} {addr n : Nat}

/-- With its bytes there, MemRead answers them (R31). -/
theorem memRead_of_le (h : addr + n ≤ p.length) : memRead p addr n = some ((p.drop addr).take n) := if_pos h

/-- MemRead reads no part of a group: one missing byte and there is no answer (R31). -/
theorem memRead_of_lt (h : p.length < addr + n) : memRead p addr n = none := if_neg (Nat.not_le.mpr h)

/-- What MemRead answers are as many bytes as it was asked for (R31). -/
theorem length_of_memRead (h : memRead p addr n = some bs) : bs.length = n := by
  have hle : addr + n ≤ p.length := (memRead_isSome p addr n).mp (Option.isSome_of_eq_some h)
  obtain rfl := Option.some.inj ((memRead_of_le hle).symm.trans h)
  rw [List.length_take, List.length_drop]
  omega

/-- The byte at the lower index lies above the other's eight bits (R31, R32). -/
theorem bigEndian_pair_or (b0 b1 : Byte) : bigEndian [b0, b1] = (b0.toNat <<< 8) ||| b1.toNat := by
  have hsum : bigEndian [b0, b1] = b0.toNat <<< 8 + b1.toNat := by
    simp only [bigEndian, List.foldl, Nat.shiftLeft_eq]
    omega
  rw [hsum, Nat.shiftLeft_add_eq_or_of_lt b1.isLt]

/-- A group that lacks a byte is not read: the answer names it and where it starts (R31, R146). -/
theorem decode_short {o : Op} {cur : Nat} (h0 : o.need ≠ 0) (h : p.length < o.base cur + o.need) :
    decode o cur p = .error (.shortBuffer o.group (o.base cur)) := by
  rw [decode_eq, if_neg (not_or.mpr ⟨h0, Nat.not_le.mpr h⟩)]

end Sys2Proof

namespace Sys2Proof.Machine

/-- Settles O7: the two sides of MemRead's bound, the sum that joins two bytes, and the decoder's one check of a group. -/
theorem memReadChecksAndJoins : Obligations.MemReadChecksAndJoins := by
  refine ⟨fun p addr n => ⟨fun hle => ?_, memRead_of_lt⟩, bigEndian_pair_or, fun o cur p => decode_short⟩
  have hread := memRead_of_le hle
  exact ⟨_, hread, length_of_memRead hread, fun k => getD_of_memRead hread⟩

variable {s t : State}

/-- From `s` to `t` the payload, with the inputs that come with it, has not been written (R30, R34). -/
def PayloadKept (s t : State) : Prop := (∀ a, t.byteAt a = s.byteAt a) ∧ t.len = s.len ∧ t.port = s.port

/-- No instruction writes the payload, MERGE included (R34). -/
theorem exec_payloadKept {i : Instr} (h : exec i s = .next t) : PayloadKept s t := by
  cases hop : i.op with
  | some o =>
    have frame := exec_frameButFlags (by simp [hop]) h
    exact ⟨frame.bytes, frame.len, frame.port⟩
  | none =>
    obtain ⟨md, rfl⟩ := eq_merge_of_op_eq_none hop
    rw [exec_merge_eq h]
    exact ⟨fun _ => rfl, rfl, rfl⟩

@[simp] theorem State.retire_byteAt (s : State) (o : Op) (a : Nat) : (s.retire o).byteAt a = s.byteAt a := by
  rw [State.byteAt, State.byteAt, State.retire_payload]

/-- A step of the sequencer does not write the payload, whether it faults or runs an operation (R34, R150). -/
theorem runOp_payloadKept (h : runOp s = .next t) : PayloadKept s t := by
  rcases runOp_cases s with ⟨g, c, -, hrun⟩ | ⟨i, u, -, -, hexec, hrun⟩ <;> rw [hrun] at h <;>
    obtain rfl := Host.Outcome.next.inj h
  · exact ⟨fun _ => rfl, rfl, rfl⟩
  · simpa only [PayloadKept, State.retire_byteAt, State.retire_len, State.retire_port] using exec_payloadKept hexec

/-- A busy block's step does not write the payload: it is one of the sequencer's, or a reset (R34, R166). -/
theorem step_busy_payloadKept (hb : s.phase = .busy) (h : step s = .next t) : PayloadKept s t := by
  rcases step_cases s with ⟨-, rs, -, hs⟩ | ⟨-, rs, -, hs⟩ | ⟨-, -, -, hs⟩ | ⟨hp, -⟩ | ⟨hp, -⟩
  · exact Host.Outcome.next.inj (hs.symm.trans h) ▸ ⟨fun _ => rfl, rfl, rfl⟩
  · exact runOp_payloadKept (s := { s with requests := rs }) (hs.symm.trans h)
  · exact runOp_payloadKept (hs.symm.trans h)
  · exact absurd hb hp
  · exact absurd hb hp

/-- Settles O49: no meaning writes the payload, so no operation of a decode does, and neither does a fault or a reset. -/
theorem payloadIsNeverWritten : Obligations.PayloadIsNeverWritten :=
  ⟨fun _ _ _ => exec_payloadKept, fun _ _ => step_busy_payloadKept⟩

end Sys2Proof.Machine
end

section
/-!
SUPPORT. Which operations a payload runs (30_encoding.md R59): the decoder goes through the fixed order and keeps the enabled.
-/

namespace Sys2Proof

variable {p : List Byte} {f : Byte} {o : Op} {os : List Op} {cur : Nat} {l : List Instr}

/-- What `decode` reads for an operation is an instruction of that operation. -/
theorem op_of_decode {i : Instr} (h : decode o cur p = .ok i) : i.op = some o := by
  rw [decode_eq] at h
  split at h
  · exact Except.ok.inj h ▸ decodeAt_op _ o
  · cases h

/-- An enabled operation is read, and the listing goes on behind its group (R122). -/
theorem decodeOps_enabled (he : o.enabled f = true) (h : decodeOps p f cur (o :: os) = .ok l) :
    ∃ i is, decode o cur p = .ok i ∧ decodeOps p f (cur + o.advance) os = .ok is ∧ l = i :: is := by
  rw [decodeOps, if_pos he] at h
  cases hd : decode o cur p with
  | error r => rw [hd] at h; cases h
  | ok i =>
    cases ht : decodeOps p f (cur + o.advance) os with
    | error r => rw [hd, ht] at h; cases h
    | ok is =>
      rw [hd, ht] at h
      exact ⟨i, is, rfl, rfl, (Except.ok.inj h).symm⟩

/-- A disabled operation reads nothing and moves nothing (R59). -/
theorem decodeOps_disabled (he : o.enabled f = false) : decodeOps p f cur (o :: os) = decodeOps p f cur os := by
  rw [decodeOps, he]
  rfl

/-- The operations of a listing are the enabled ones, in the order in which they were considered (R59, R122). -/
theorem decodeOps_map_op (h : decodeOps p f cur os = .ok l) :
    l.map Instr.op = (os.filter (Op.enabled f)).map some := by
  induction os generalizing cur l with
  | nil => exact Except.ok.inj h ▸ rfl
  | cons o os ih =>
    cases he : o.enabled f with
    | false =>
      rw [decodeOps_disabled he] at h
      rw [List.filter_cons_of_neg (by simp [he]), ih h]
    | true =>
      obtain ⟨i, is, hi, his, rfl⟩ := decodeOps_enabled he h
      rw [List.filter_cons_of_pos he, List.map_cons, List.map_cons, op_of_decode hi, ih his]

/-- Settles O6: the decoder considers the fixed order and keeps the operations the mask selects. -/
theorem maskSelectsInFixedOrder : Obligations.MaskSelectsInFixedOrder :=
  fun _ _ => decodeOps_map_op

end Sys2Proof
end

section
/-!
SUPPORT. When a decode reaches DONE (30_encoding.md R56): the bounds of the layout length, the one case in which
`decodeTransaction` has a result, and that in DONE the register CUR shows the cursor.
-/

namespace Sys2Proof

/-- The status bits that do not announce a group, 6 and 5, take no byte (R56). -/
theorem layoutLength_and_announcing (b : Byte) : layoutLength (b &&& 0x9F) = layoutLength b := by
  simp [layoutLength, statusBit]

/-- The longest layout has 17 bytes (R56). -/
theorem layoutLength_le (b : Byte) : layoutLength b ≤ 17 := by
  have bit : ∀ i, statusBit b i ≤ 1 := fun i => Bool.toNat_le _
  have h7 := bit 7
  have h4 := bit 4
  have h3 := bit 3
  have h2 := bit 2
  have h1 := bit 1
  have h0 := bit 0
  simp only [layoutLength]
  omega

/-- The layout is the status byte alone exactly when no group is announced (R56). -/
theorem layoutLength_eq_one : ∀ b : Byte, layoutLength b = 1 ↔ b &&& 0x9F = 0 := by decide

/-- The layout is the longest exactly when every group is announced (R56). -/
theorem layoutLength_eq_max : ∀ b : Byte, layoutLength b = 17 ↔ b &&& 0x9F = 0x9F := by decide

end Sys2Proof

namespace Sys2Proof.Machine

variable {p : List Byte} {port draws c : Nat} {res : Results} {s t : State}

/-- A payload has a result exactly when it fits the buffer and its layout fits it (R56, R137). -/
theorem decodeTransaction_eq_done : decodeTransaction p port draws = .done res c ↔
    (p.length ≤ Config.payloadMax ∧ 1 ≤ p.length ∧ layoutLength (p.getD 0 0) ≤ p.length) ∧
      res = resultsOf p port draws ∧ c = layoutLength (p.getD 0 0) := by
  rw [← shortGroup_eq_none, decodeTransaction]
  by_cases hmax : Config.payloadMax < p.length
  · simp [hmax]
  · cases hs : shortGroup p with
    | some g => simp [hmax]
    | none => simp [hmax, Nat.le_of_not_lt hmax, eq_comm]

/-- The host observes a result exactly in DONE: the registers, and CUR (R17, R21). -/
theorem State.observe_eq_done : s.observe = .done res c ↔ s.phase = .done ∧ s.res = res ∧ s.curOut = c := by
  unfold State.observe
  cases s.phase <;> simp

/-! ### CUR shows the cursor -/

/-- In DONE the register CUR holds the cursor (R17, R122 step 8). -/
def CurShown (s : State) : Prop := s.phase = .done → s.curOut = s.cur

theorem curShown_of_not_done (h : s.phase ≠ .done) : CurShown s := fun hd => absurd hd h

/-- START never leads straight to DONE (R122 step 0, R143). -/
theorem State.startDecode_not_done (s : State) : s.startDecode.phase ≠ .done := by
  by_cases hl : s.len ≤ Config.payloadMax
  · rw [State.startDecode_fits s hl]; exact nofun
  · rw [State.startDecode_tooLong s (Nat.lt_of_not_le hl)]; exact nofun

/-- A step of a decode reaches DONE only by retiring PORT, which writes CUR (R122 step 8). -/
theorem runOp_curShown (hb : s.phase = .busy) (h : runOp s = .next t) : CurShown t := by
  rcases runOp_cases s with ⟨g, c, -, hrun⟩ | ⟨i, u, -, hop, hexec, hrun⟩ <;> rw [hrun] at h <;>
    obtain rfl := Host.Outcome.next.inj h
  · exact curShown_of_not_done nofun
  · by_cases hport : s.nextOp = .port
    · intro _
      rw [hport]
      rfl
    · refine curShown_of_not_done ?_
      rw [State.retire_phase, if_neg hport, (exec_frameButFlags (by simp [hop]) hexec).phase, hb]
      exact nofun

/-- No action of the host parts CUR from the cursor: START and reset leave DONE, the others write neither (R176). -/
theorem serve_curShown {r : HostRequest} (hs : CurShown s) (h : serve r s = .next t) : CurShown t := by
  cases r
  case merge md => rw [exec_merge_eq h]; exact hs
  case setPort p =>
    rcases serve_setPort p s with ⟨-, hn⟩ | ⟨-, hn⟩ <;> rw [hn] at h
    · exact Host.Outcome.next.inj h ▸ hs
    · cases h
  case start => exact Host.Outcome.next.inj h ▸ curShown_of_not_done s.startDecode_not_done
  case reset => exact Host.Outcome.next.inj h ▸ curShown_of_not_done nofun
  case place | setLen | wait => exact Host.Outcome.next.inj h ▸ hs

/-- Every step keeps CUR, once DONE, at the cursor. -/
theorem step_curShown (hs : CurShown s) (h : step s = .next t) : CurShown t := by
  rcases step_cases s with ⟨-, rs, -, hc⟩ | ⟨hb, rs, -, hc⟩ | ⟨hb, -, -, hc⟩ | ⟨-, -, hc⟩ | ⟨-, r, rs, -, hc⟩ <;>
    rw [hc] at h
  · exact Host.Outcome.next.inj h ▸ curShown_of_not_done nofun
  · exact runOp_curShown (s := { s with requests := rs }) hb h
  · exact runOp_curShown hb h
  · exact Host.Outcome.next.inj h ▸ hs
  · exact serve_curShown (s := { s with requests := rs }) hs h

/-- What every step keeps holds at the end of a run. -/
theorem run_keeps {P : State → Prop} (hstep : ∀ {s t}, P s → step s = .next t → P t) {n : Nat} (hs : P s)
    (h : Host.Core.run core n s = .next t) : P t := by
  induction n generalizing s with
  | zero => exact Host.Outcome.next.inj h ▸ hs
  | succ n ih =>
    obtain ⟨u, hu, hrun⟩ := run_succ_inv h
    exact ih (hstep hs hu) hrun

/-- A run that starts a decode ends with CUR, if in DONE, at the cursor, whatever the state showed before. -/
theorem run_start_curShown {n : Nat} {rs : List HostRequest} (hp : s.phase ≠ .busy) (hr : s.requests = .start :: rs)
    (h : Host.Core.run core (n + 1) s = .next t) : CurShown t := by
  obtain ⟨u, hu, hrun⟩ := run_succ_inv h
  obtain rfl := Host.Outcome.next.inj ((step_start hp hr).symm.trans hu)
  exact run_keeps step_curShown (curShown_of_not_done (State.startDecode_not_done _)) hrun

/-! ### A whole decode -/

/-- The one check on the payload is the check on the host's inputs: byte 0 is the buffer's (R30, R56). -/
theorem layout_fits_bytes (s : State) :
    (s.bytes.length ≤ Config.payloadMax ∧ 1 ≤ s.bytes.length ∧ layoutLength (s.bytes.getD 0 0) ≤ s.bytes.length) ↔
      s.len ≤ Config.payloadMax ∧ 1 ≤ s.len ∧ layoutLength (s.byteAt 0) ≤ s.len := by
  rw [State.bytes_length]
  exact and_congr_right fun _ => and_congr_right fun hl => by rw [s.getD_bytes hl]

/-- A state that shows what `decodeTransaction` computes is in DONE exactly when the layout fits, and CUR is then the layout
length (R56). -/
theorem done_iff_layout_fits (hobs : t.observe = decodeTransaction s.bytes port draws) :
    (t.phase = .done ↔ s.len ≤ Config.payloadMax ∧ 1 ≤ s.len ∧ layoutLength (s.byteAt 0) ≤ s.len) ∧
      (t.phase = .done → t.curOut = layoutLength (s.byteAt 0)) := by
  have hresult := fun hd : t.phase = .done =>
    decodeTransaction_eq_done.mp (hobs.symm.trans (State.observe_eq_done.mpr ⟨hd, rfl, rfl⟩))
  refine ⟨⟨fun hd => (layout_fits_bytes s).mp (hresult hd).1, fun hfits => ?_⟩, fun hd => ?_⟩
  · have hdone := hobs.trans (decodeTransaction_eq_done.mpr ⟨(layout_fits_bytes s).mpr hfits, rfl, rfl⟩)
    exact (State.observe_eq_done.mp hdone).1
  · obtain ⟨⟨-, hl, -⟩, -, hcur⟩ := hresult hd
    rw [hcur, s.getD_bytes (s.bytes_length ▸ hl)]

/-- Settles O56: the bounds of the sum, and what the end of a decode shows, with CUR at the cursor. -/
theorem doneExactlyWhenLayoutFits : Obligations.DoneExactlyWhenLayoutFits := by
  refine ⟨fun b => ⟨rfl, layoutLength_and_announcing b, layoutLength_pos b, layoutLength_le b, layoutLength_eq_one b,
    layoutLength_eq_max b⟩, fun s hp hr => ?_⟩
  obtain ⟨t, ht, hobs, -⟩ := decode_ends hp hr
  obtain ⟨hiff, hcur⟩ := done_iff_layout_fits hobs
  have hshown := run_start_curShown hp hr ht
  exact ⟨t, ht, hiff, fun hd => ⟨hcur hd, (hshown hd).symm.trans (hcur hd)⟩⟩

end Sys2Proof.Machine
end

section
/-!
SUPPORT. The status byte (40_status.md): a flag is its bit at every index (R71), and the step of STATUS has two outcomes, by
whether byte 0 is there (R70).
-/

namespace Sys2Proof.Machine

/-- A flag is its bit, whatever the other bits are (R71). -/
theorem statusFlag_eq_getLsbD (b : Byte) (i : Nat) : statusFlag b i = b.getLsbD i := by
  have hmask : (b >>> i) &&& 1 = (BitVec.ofBool (b.getLsbD i)).setWidth 8 := by
    rw [BitVec.ofNat_eq_ofNat, BitVec.and_one_eq_setWidth_ofBool_getLsbD, BitVec.getLsbD_ushiftRight, Nat.add_zero]
  rw [statusFlag, hmask]
  cases b.getLsbD i <;> rfl

/-- Settles O10: a flag is its bit, bits determine a byte, and any eight of them make one. -/
theorem flagsAreTheBits : Obligations.FlagsAreTheBits := by
  refine ⟨fun b n => statusFlag_eq_getLsbD b n, fun a b hab => ?_, fun f => ⟨BitVec.ofFnLE f, ?_⟩⟩
  · refine BitVec.eq_of_getLsbD_eq fun i hi => ?_
    have hflag : statusFlag a i = statusFlag b i := congrFun hab ⟨i, hi⟩
    rwa [statusFlag_eq_getLsbD, statusFlag_eq_getLsbD] at hflag
  · funext n
    calc statusFlag (BitVec.ofFnLE f) n = (BitVec.ofFnLE f).getLsbD n := statusFlag_eq_getLsbD _ n
      _ = f n := by rw [BitVec.getLsbD_ofFnLE, dif_pos n.isLt]

variable {s : State}

/-- With byte 0 there, STATUS latches it, writes the flag registers and leaves the cursor behind it (R70). -/
theorem step_status (hd : Decoding s) (hn : s.nextOp = .status) (hl : 1 ≤ s.len) :
    step s = .next { s with flags := s.byteAt 0, res := s.res.writeFlags (s.byteAt 0), cur := 1, seq := .temp } := by
  obtain ⟨hb, hr, hw⟩ := hd
  rw [← s.getD_bytes hl]
  exact step_fits hb hr hw hn (.inr hl) rfl

/-- Without byte 0, STATUS faults at index 0, wherever the cursor stands (R70, R127). -/
theorem step_status_short (hd : Decoding s) (hn : s.nextOp = .status) (hl : s.len = 0) :
    step s = .next (s.raise .shortBuffer .status 0) := by
  obtain ⟨hb, hr, hw⟩ := hd
  exact step_short hb hr hw hn (by decide) (hl ▸ Nat.one_pos)

/-- Settles O33: the two outcomes of the step, and what the flag registers then read as. -/
theorem statusStep : Obligations.StatusStep := by
  refine fun s hd hn => ⟨step_status_short hd hn, fun hl => ⟨_, step_status hd hn hl, hd.1, rfl, rfl, rfl, ?_⟩⟩
  obtain ⟨h7, h6, h5, h4, h3, h2, h1, h0⟩ := s.res.get_writeFlags (s.byteAt 0)
  exact ⟨h0, h1, h2, h3, h4, h5, h6, h7⟩

end Sys2Proof.Machine
end

section
/-!
SUPPORT. The temperature (41_temperature.md): the sign selector and the magnitude are the two's complement of the operand byte
(R81, R82), and the step of TEMP has two outcomes, by whether the byte at the cursor is there (R80).
-/

namespace Sys2Proof.Machine

/-! ### The formula -/

/-- The formula without a case: the sign selector weighs -128 (R81). -/
theorem temperatureValue_eq_sub (sg : Bool) (mag : BitVec 7) :
    temperatureValue sg mag = (mag.toNat : Int) - 128 * (sg.toNat : Int) := by
  cases sg <;> simp [temperatureValue]

/-- The formula reads its fields, joined to a byte, in two's complement (R81). -/
theorem temperatureValue_eq_toInt (sg : Bool) (mag : BitVec 7) :
    temperatureValue sg mag = (BitVec.ofBool sg ++ mag : Byte).toInt := by
  have hmag := mag.isLt
  have hjoin : (BitVec.ofBool sg ++ mag : Byte).toNat = sg.toNat * 2 ^ 7 + mag.toNat := by
    rw [BitVec.toNat_append, ← Nat.shiftLeft_add_eq_or_of_lt hmag, Nat.shiftLeft_eq, BitVec.toNat_ofBool]
  rw [temperatureValue_eq_sub, BitVec.toInt_eq_toNat_cond, hjoin]
  cases sg
  · simp only [Bool.toNat_false]; omega
  · simp only [Bool.toNat_true]; omega

/-- The formula on the fields of a byte reads the byte in two's complement (R52, R81). -/
theorem temperatureValue_byte (b : Byte) : temperatureValue (b.getLsbD 7) (b.extractLsb' 0 7) = b.toInt := by
  rw [temperatureValue_eq_toInt, append_signBit]

/-- The mask 0x7F leaves the magnitude (R80). -/
theorem toNat_and_magnitude (b : Byte) : (b &&& 0x7F).toNat = b.toNat % 128 := by
  rw [BitVec.toNat_and]
  exact Nat.and_two_pow_sub_one_eq_mod b.toNat 7

/-- The sign selector tells the bytes from 128 on (R52, R82). -/
theorem getLsbD_sign (b : Byte) : b.getLsbD 7 = decide (128 ≤ b.toNat) := b.msb_eq_decide

/-- Two's complement is the byte below 128, and from there on the magnitude less 128 (R80, R82). -/
theorem toInt_eq_masked (b : Byte) :
    b.toInt = if b.getLsbD 7 then ((b &&& 0x7F).toNat : Int) - 128 else b.toNat := by
  have hb := b.isLt
  rw [getLsbD_sign, toNat_and_magnitude, BitVec.toInt_eq_toNat_cond]
  by_cases h : 128 ≤ b.toNat
  · simp only [h, decide_true, if_true]; omega
  · simp only [h, decide_false, Bool.false_eq_true, if_false]; omega

/-- Settles O12: the two halves of the byte's range, and two's complement as a bijection. -/
theorem temperatureRoundTrip : Obligations.TemperatureRoundTrip := by
  simp only [Obligations.TemperatureRoundTrip, temperatureValue_byte]
  refine ⟨fun b hb => ?_, fun b hb => ?_, fun v hlo hhi => ⟨BitVec.ofInt 8 v, ?_, fun b hb => ?_⟩⟩
  · rw [toInt_eq_masked, getLsbD_sign, decide_eq_false (Nat.not_le.mpr hb)]
    rfl
  · have hval : b.toInt = ((b &&& 0x7F).toNat : Int) - 128 := by
      rw [toInt_eq_masked, getLsbD_sign, decide_eq_true hb]
      rfl
    have hmag := toNat_and_magnitude b
    omega
  · exact BitVec.toInt_ofInt_eq_self (by decide) hlo (Int.lt_add_one_of_le hhi)
  · rw [← hb, BitVec.ofInt_toInt]

/-! ### TEMP -/

/-- The register `temperature` alone is written. -/
theorem Results.get_temperature_other (r : Results) (v : Option (BitVec 8)) {g : Reg} (h : g ≠ .temperature) :
    Results.get { r with temperature := v } g = r.get g := by
  cases g <;> first | rfl | exact absurd rfl h

/-- TEMP leaves the operand byte in its register and the cursor behind it, and nothing else (R80, R81). -/
theorem exec_temp (sg : Bool) (mag : BitVec 7) (s : State) : exec (.temp sg mag) s =
    .next { s with res := { s.res with temperature := some (BitVec.ofBool sg ++ mag) }, cur := s.cur + 1 } := by
  have hbyte : BitVec.ofInt 8 (temperatureValue sg mag) = BitVec.ofBool sg ++ mag := by
    rw [temperatureValue_eq_toInt, BitVec.ofInt_toInt]
  rw [exec, execTemp, hbyte]
  rfl

/-- Settles O11: the byte in the register reads both ways, and the frame. -/
theorem tempIsTwosComplement : Obligations.TempIsTwosComplement := by
  intro sg mag s
  refine ⟨_, exec_temp sg mag s, ?_, rfl, rfl, fun g hg => ?_, ?_, ⟨rfl, rfl, rfl⟩⟩
  · rw [← temperatureValue_eq_sub, temperatureValue_eq_toInt]
    rfl
  · exact s.res.get_temperature_other _ (List.ne_of_not_mem_cons hg)
  · exact ⟨⟨rfl, rfl, rfl, rfl, rfl, fun _ => rfl, rfl, rfl, rfl, rfl, rfl⟩, rfl⟩

variable {s : State}

/-- Past STATUS the cursor stands where the group of the next operation starts in the layout (R50, R55). -/
theorem BusyInv.cur_eq_groupStart (h : BusyInv s) (hn : s.nextOp ≠ .status) :
    s.cur = groupStart s.flags s.nextOp.group := by
  have hseq : s.seq ≠ .status := mt (State.nextOp_eq_status s).mpr hn
  rw [State.nextOp, groupStart_nextEnabled _ hseq]
  exact h.cursorPlace hseq

/-- With the byte at the cursor there, TEMP copies it to its register and leaves the cursor behind it (R80). -/
theorem step_temp (hd : Decoding s) (hn : s.nextOp = .temp) (hl : s.cur + 1 ≤ s.len) :
    step s = .next { s with
      res := { s.res with temperature := some (s.byteAt s.cur) }, cur := s.cur + 1, seq := .lat } := by
  obtain ⟨hb, hr, hw⟩ := hd
  have hexec := exec_temp ((s.byteAt s.cur).getLsbD 7) ((s.byteAt s.cur).extractLsb' 0 7) s
  rw [append_signBit, ← s.getD_bytes hl] at hexec
  rw [← s.getD_bytes hl]
  exact step_fits hb hr hw hn (.inr hl) hexec

/-- Without the byte, TEMP faults at the cursor (R80, R146). -/
theorem step_temp_short (hd : Decoding s) (hn : s.nextOp = .temp) (hl : s.len < s.cur + 1) :
    step s = .next (s.raise .shortBuffer .temp s.cur) := by
  obtain ⟨hb, hr, hw⟩ := hd
  exact step_short hb hr hw hn (by decide) hl

/-- Settles O34: bit 7 enables TEMP, its group starts at 1, and the two outcomes of the step. -/
theorem tempStep : Obligations.TempStep := by
  intro s hd hn
  refine ⟨?_, fun hinv => ?_, step_temp_short hd hn, fun hl => ⟨_, step_temp hd hn hl, hd.1, rfl, rfl, ?_, fun g hg => ?_⟩⟩
  · obtain ⟨-, hbit, -⟩ := Op.enabled_bit s.flags
    exact hbit ▸ hn ▸ s.nextOp_enabled
  · rw [(hinv.busy hd.1).cur_eq_groupStart (hn ▸ nofun), hn]
    rfl
  · rw [← toInt_eq_masked]
    rfl
  · exact s.res.get_temperature_other _ (List.ne_of_not_mem_cons hg)

end Sys2Proof.Machine
end

section
/-!
SUPPORT. What an operation leaves alone, said once for all fourteen (10_state.md R13, R22): the registers it is not the writer
of, and everything outside the registers.
-/

namespace Sys2Proof.Machine

variable {s t u : State} {i : Instr} {o : Op}

/-- A register keeps its value under every operation but its one writer (R13, R22). -/
theorem exec_get_of_writer_ne {g : Reg} (hop : i.op = some o) (hg : g.writer ≠ o) (h : exec i s = .next t) :
    t.res.get g = s.res.get g := by
  cases i <;> simp only [Instr.op, Option.some.injEq, reduceCtorEq] at hop <;> subst hop <;>
    obtain rfl := Host.Outcome.next.inj h <;> cases g <;> first | rfl | exact absurd rfl hg

/-- The result registers an operation writes (R13). -/
def registersOf (o : Op) : List Reg := Reg.all.filter fun g => g.writer == o

theorem exec_otherRegistersKept (hop : i.op = some o) (h : exec i s = .next t) :
    OtherRegistersKept (registersOf o) s t := fun g hg =>
  exec_get_of_writer_ne hop (fun hw => hg (List.mem_filter.mpr ⟨g.mem_all, beq_iff_eq.mpr hw⟩)) h

theorem OtherRegistersKept.trans {a b : List Reg} (hst : OtherRegistersKept a s t) (htu : OtherRegistersKept b t u) :
    OtherRegistersKept (a ++ b) s u := fun g hg => by
  rw [List.mem_append, not_or] at hg
  obtain ⟨ha, hb⟩ := hg
  exact (htu g hb).trans (hst g ha)

theorem OtherRegistersKept.mono {a b : List Reg} (h : OtherRegistersKept a s t) (hab : a ⊆ b) :
    OtherRegistersKept b s t := fun g hg => h g (mt (@hab g) hg)

/-- Every operation but STATUS leaves `F` alone too (R12). -/
theorem exec_frame (hop : i.op = some o) (ho : o ≠ .status) (h : exec i s = .next t) : Frame s t :=
  ⟨exec_frameButFlags (by simp [hop]) h, exec_flags hop ho h⟩

end Sys2Proof.Machine
end

section
/-!
SUPPORT. The coordinates (42_coordinate.md): the digits of the operand bytes (R85), the numbers and the strings made of valid
digits (R90 to R99, R102, R104), and the meanings of LAT and LON on them.
-/

namespace Sys2Proof

variable (b : Byte)

/-- The mask 0xF leaves the low four bits (R85). -/
theorem toNat_and_nibbleMask : (b &&& 0x0F).toNat = b.toNat % 16 := by
  rw [BitVec.toNat_and]
  exact Nat.and_two_pow_sub_one_eq_mod b.toNat 4

/-- The nibble that comes first is the byte shifted by 4 and masked (R85). -/
theorem hiNibble_toNat : (hiNibble b).toNat = ((b >>> 4) &&& 0x0F).toNat := by
  rw [toNat_and_nibbleMask, BitVec.toNat_ushiftRight]
  rfl

/-- The nibble that comes second is the byte masked (R85). -/
theorem loNibble_toNat : (loNibble b).toNat = (b &&& 0x0F).toNat := by
  rw [toNat_and_nibbleMask]
  rfl

end Sys2Proof

namespace Sys2Proof.Machine

variable {c c' : Coord} {s : State}

/-- Settles O8: digit by digit, the even ones are high nibbles and the odd ones low nibbles. -/
theorem digitsComeHighNibbleFirst : Obligations.DigitsComeHighNibbleFirst := by
  intro c0 c1 c2 c3
  simp only [digits, coordOf, hiNibble_toNat, loNibble_toNat]
  rfl

/-! ### Digits as numbers -/

/-- Nibbles of at most 9 are valid digits (R86). -/
theorem digits_le_of_nibbles (h : ∀ d ∈ [c.d0, c.d1, c.d2, c.d3, c.d4, c.d5, c.d6], d.toNat ≤ 9) :
    ∀ d ∈ digits c, d ≤ 9 := by
  rwa [← List.forall_mem_map (f := BitVec.toNat) (P := (· ≤ 9))] at h

theorem decimal_append_zero (ds : List Nat) : decimal (ds ++ [0]) = 10 * decimal ds := by
  induction ds with
  | nil => rfl
  | cons d ds ih =>
    rw [List.cons_append, decimal, decimal, ih, List.length_append, List.length_singleton, pow_succ]
    ring

/-- The fields of the two coordinate registers are the numbers of the digits they are made of (R90, R95, R104). -/
theorem coordinate_fields_decimal (h : ∀ d ∈ digits c, d ≤ 9) :
    (latitudeOf c).deg.toNat = decimal ((digits c).take 2) ∧ (latitudeOf c).m5.toNat = decimal ((digits c).drop 2) ∧
    (longitudeOf c).deg.toNat = decimal ((digits c).take 3) ∧ (longitudeOf c).m4.toNat = decimal ((digits c).drop 3) := by
  obtain ⟨hlatDeg, hm5, hlonDeg, hm4⟩ := coordinate_fields h
  rw [hlatDeg, hm5, hlonDeg, hm4]
  simp only [digits, List.take, List.drop, decimal, List.length]
  omega

/-- No field exceeds what its digits can count to; none is cut at 90 degrees, 180 degrees or 60 minutes (R104). -/
theorem coordinate_fields_le (h : ∀ d ∈ digits c, d ≤ 9) :
    (latitudeOf c).deg.toNat ≤ 99 ∧ (latitudeOf c).m5.toNat ≤ 99999 ∧
    (longitudeOf c).deg.toNat ≤ 999 ∧ (longitudeOf c).m4.toNat ≤ 9999 := by
  obtain ⟨hlatDeg, hm5, hlonDeg, hm4⟩ := coordinate_fields h
  simp only [digits, List.forall_mem_cons] at h
  obtain ⟨h0, h1, h2, h3, h4, h5, h6, -⟩ := h
  rw [hlatDeg, hm5, hlonDeg, hm4]
  omega

/-! ### The two values -/

theorem abs_signOf (neg : Bool) : |signOf neg| = 1 := by
  cases neg <;> simp [signOf]

/-- The magnitude of `latitude` is its sub-fields', whatever they are. -/
theorem abs_latitudeValue (l : Latitude) : |latitudeValue l| = (l.deg.toNat : Rat) + (l.m5.toNat : Rat) / 60000 := by
  rw [latitudeValue, abs_mul, abs_signOf, one_mul, abs_of_nonneg (by positivity)]

/-- The magnitude of `longitude` is its sub-fields', whatever they are. -/
theorem abs_longitudeValue (l : Longitude) : |longitudeValue l| = (l.deg.toNat : Rat) + (l.m4.toNat : Rat) / 6000 := by
  rw [longitudeValue, abs_mul, abs_signOf, one_mul, abs_of_nonneg (by positivity)]

/-- The sign of a zero latitude does not show (R104). -/
theorem latitudeValue_zero (neg : Bool) : latitudeValue ⟨neg, 0, 0⟩ = 0 := by
  simp [latitudeValue]

/-- The sign of a zero longitude does not show (R104). -/
theorem longitudeValue_zero (neg : Bool) : longitudeValue ⟨neg, 0, 0⟩ = 0 := by
  simp [longitudeValue]

/-- Degrees and `m` parts of a degree, `n` of which make one, are a whole number of such parts (R104). -/
theorem exists_add_div_eq_div (deg m : Nat) {n : Nat} {q : Rat} (hn : q = n) (hq : 0 < q) :
    ∃ k : Nat, (deg : Rat) + (m : Rat) / q = (k : Rat) / q := by
  refine ⟨n * deg + m, ?_⟩
  rw [Nat.cast_add, Nat.cast_mul, ← hn, add_div, mul_div_cancel_left₀ _ hq.ne']

/-- Degrees plus minutes over 60 grow with both numbers. -/
theorem add_div_le_add_div {deg m degMax mMax : Nat} (hdeg : deg ≤ degMax) (hm : m ≤ mMax) {q : Rat} (hq : 0 < q) :
    (deg : Rat) + (m : Rat) / q ≤ (degMax : Rat) + (mMax : Rat) / q :=
  add_le_add (Nat.cast_le.mpr hdeg) (div_le_div_of_nonneg_right (Nat.cast_le.mpr hm) hq.le)

/-- Settles O24: the digit string's closing 0 multiplies the minutes and their divisor by ten alike. -/
theorem degreesPlusMinutesOverSixty : Obligations.DegreesPlusMinutesOverSixty := by
  intro c h
  obtain ⟨hlatDeg, hm5, hlonDeg, hm4⟩ := coordinate_fields_decimal h
  rw [latitudeValue, longitudeValue, hlatDeg, hm5, hlonDeg, hm4, decimal_append_zero, decimal_append_zero, Nat.cast_mul,
    Nat.cast_mul]
  exact ⟨congrArg (signOf c.h * ·) (by ring), congrArg (signOf c.h * ·) (by ring)⟩

/-- Settles O25: the fields are the digits' numbers, and the magnitudes are the fields'. -/
theorem coordinateRanges : Obligations.CoordinateRanges := by
  refine ⟨fun c h => ?_, fun x h => ?_, fun neg => ?_⟩
  · obtain ⟨hlatDeg, hm5, hlonDeg, hm4⟩ := coordinate_fields_decimal h
    obtain ⟨hlatDegLe, hm5Le, hlonDegLe, hm4Le⟩ := coordinate_fields_le h
    rw [abs_latitudeValue, abs_longitudeValue]
    refine ⟨hlatDeg, hm5, hlonDeg, hm4, rfl, hlatDegLe, hm5Le, ?_, exists_add_div_eq_div _ _ Nat.cast_ofNat.symm (by norm_num),
      rfl, hlonDegLe, hm4Le, ?_, exists_add_div_eq_div _ _ Nat.cast_ofNat.symm (by norm_num), rfl, rfl⟩
    · exact (add_div_le_add_div hlatDegLe hm5Le (by norm_num)).trans_eq (by norm_num)
    · exact (add_div_le_add_div hlonDegLe hm4Le (by norm_num)).trans_eq (by norm_num)
  · have nines : digits ⟨9, 9, 9, 9, 9, 9, 9, x, h⟩ = [9, 9, 9, 9, 9, 9, 9] := rfl
    obtain ⟨hlatDeg, hm5, hlonDeg, hm4⟩ := coordinate_fields_decimal (c := ⟨9, 9, 9, 9, 9, 9, 9, x, h⟩)
      (by rw [nines]; decide)
    rw [abs_latitudeValue, abs_longitudeValue, hlatDeg, hm5, hlonDeg, hm4, nines]
    norm_num [decimal]
  · exact ⟨latitudeValue_zero neg, longitudeValue_zero neg⟩

/-! ### The strings -/

@[simp] theorem digitString_length (c : Coord) : (digitString c).length = 8 := rfl

/-- The digit string tells the digits: two operands that share it differ in the last byte's low bits at most (R86). -/
theorem eq_of_digitString_eq (hs : digitString c = digitString c') (hh : c.h = c'.h) :
    c' = { c with ignored := c'.ignored } := by
  simp only [digitString, digits, List.map, List.cons_append, List.cons.injEq] at hs
  obtain ⟨h0, h1, h2, h3, h4, h5, h6, -⟩ := hs
  obtain ⟨d0, d1, d2, d3, d4, d5, d6, x, h⟩ := c'
  rw [Coord.mk.injEq]
  exact ⟨(dig_toNat_injective _ _ h0).symm, (dig_toNat_injective _ _ h1).symm, (dig_toNat_injective _ _ h2).symm,
    (dig_toNat_injective _ _ h3).symm, (dig_toNat_injective _ _ h4).symm, (dig_toNat_injective _ _ h5).symm,
    (dig_toNat_injective _ _ h6).symm, rfl, hh.symm⟩

/-- The degree sign and the comma stand at fixed places, so the string gives back the digit string and the letter (R93, R98). -/
theorem dmString_inj {k : Nat} {l l' : Char8} (h : dmString k l c = dmString k l' c') :
    digitString c = digitString c' ∧ l = l' := by
  obtain ⟨h, hl⟩ := List.append_inj' h rfl
  obtain ⟨h, hdec⟩ := List.append_inj' h (by simp)
  obtain ⟨h, -⟩ := List.append_inj' h rfl
  obtain ⟨h, hmin⟩ := List.append_inj' h (by simp)
  obtain ⟨hdeg, -⟩ := List.append_inj' h rfl
  have split (x : Str) : x = x.take k ++ ((x.drop k).take 2 ++ x.drop (k + 2)) := by
    rw [← List.drop_drop, List.take_append_drop, List.take_append_drop]
  refine ⟨?_, List.head_eq_of_cons_eq hl⟩
  rw [split (digitString c), hdeg, hmin, hdec, ← split]

theorem latLetter_injective : Function.Injective latLetter := by decide

theorem lonLetter_injective : Function.Injective lonLetter := by decide

/-! ### LAT and LON on valid digits -/

/-- LAT on valid digits writes the value, the string and the hemisphere, and draws nothing (R90, R93, R94). -/
theorem exec_lat_of_valid (h : ∀ d ∈ digits c, d ≤ 9) (s : State) : exec (.lat c) s =
    .next { s with
      res := { s.res with
        latitude := some (latitudeOf c)
        latitudeDm := some (dmString 2 (latLetter c.h) c)
        latitudeHemisphere := some (latHemisphere c.h) }
      latOpen := false } := by
  rw [exec, execLat, latitudeResult, latitudeDmResult, (validDigits_iff c).mpr h]
  rfl

/-- LON on valid digits writes the value, the string and the hemisphere, and draws nothing (R95, R98, R99). -/
theorem exec_lon_of_valid (h : ∀ d ∈ digits c, d ≤ 9) (s : State) : exec (.lon c) s =
    .next { s with
      res := { s.res with
        longitude := some (longitudeOf c)
        longitudeDm := some (dmString 3 (lonLetter c.h) c)
        longitudeHemisphere := some (lonHemisphere c.h) }
      lonOpen := false } := by
  rw [exec, execLon, longitudeResult, longitudeDmResult, (validDigits_iff c).mpr h]
  rfl

/-- The full name of a latitude's hemisphere (R87, R94). -/
theorem latHemisphereText_latHemisphere (h : Bool) :
    latHemisphereText (latHemisphere h) = if h then ascii "South" else ascii "North" := by
  cases h <;> rfl

/-- The full name of a longitude's hemisphere (R87, R99). -/
theorem lonHemisphereText_lonHemisphere (h : Bool) :
    lonHemisphereText (lonHemisphere h) = if h then ascii "West" else ascii "East" := by
  cases h <;> rfl

/-- Settles O13: LAT's next state, its value by the fields of R90, and the frame. -/
theorem latCompletes : Obligations.LatCompletes := by
  intro c s hdigits
  have hvalid := digits_le_of_nibbles hdigits
  obtain ⟨hdeg, hm5, -, -⟩ := coordinate_fields hvalid
  have hexec := exec_lat_of_valid hvalid s
  refine ⟨_, hexec, ?_, rfl, ?_, rfl, exec_otherRegistersKept (o := .lat) rfl hexec, exec_frame (o := .lat) rfl nofun hexec,
    rfl, rfl, rfl⟩
  · rw [← hdeg, ← hm5]
    rfl
  · rw [← latHemisphereText_latHemisphere]
    rfl

/-- Settles O14: LON's next state, its value by the fields of R95, and the frame. -/
theorem lonCompletes : Obligations.LonCompletes := by
  intro c s hdigits
  have hvalid := digits_le_of_nibbles hdigits
  obtain ⟨-, -, hdeg, hm4⟩ := coordinate_fields hvalid
  have hexec := exec_lon_of_valid hvalid s
  refine ⟨_, hexec, ?_, rfl, ?_, rfl, exec_otherRegistersKept (o := .lon) rfl hexec, exec_frame (o := .lon) rfl nofun hexec,
    rfl, rfl, rfl⟩
  · rw [← hdeg, ← hm4]
    rfl
  · rw [← lonHemisphereText_lonHemisphere]
    rfl

/-- Settles O26: the next states name neither the state nor the ignored bits; the strings give back digits and letter. -/
theorem stringsTellCoordinatesApart : Obligations.StringsTellCoordinatesApart := by
  refine ⟨fun c x s s' h => ?_, fun c c' _ _ => ⟨fun hs => ?_, fun hs => ?_⟩, ?_, ?_⟩
  · have h' : ∀ d ∈ digits { c with ignored := x }, d ≤ 9 := h
    refine ⟨_, _, _, _, exec_lat_of_valid h s, exec_lat_of_valid h' s', ?_, exec_lon_of_valid h s,
      exec_lon_of_valid h' s', ?_⟩
    · simp only [List.forall_mem_cons]
      exact ⟨rfl, rfl, rfl, nofun⟩
    · simp only [List.forall_mem_cons]
      exact ⟨rfl, rfl, rfl, nofun⟩
  · obtain ⟨hdigits, hletter⟩ := dmString_inj hs
    exact eq_of_digitString_eq hdigits (latLetter_injective hletter)
  · obtain ⟨hdigits, hletter⟩ := dmString_inj hs
    exact eq_of_digitString_eq hdigits (lonLetter_injective hletter)
  · show signOf false * (((45 : Nat) : Rat) + ((60000 : Nat) : Rat) / 60000) =
      signOf false * (((46 : Nat) : Rat) + ((0 : Nat) : Rat) / 60000)
    norm_num
  · exact (latitudeValue_zero true).trans (latitudeValue_zero false).symm

end Sys2Proof.Machine
end

section
/-!
SUPPORT. The GPS group (42_coordinate.md R100): one bounds check stands for four operations, which read their bytes from one
unmoved cursor.
-/

namespace Sys2Proof

/-- An operation reads no byte beyond those its group's check covers (R31, R35). -/
theorem decodeAt_congr {b b' : Nat → Byte} {o : Op} (h : ∀ k, k < o.need → b k = b' k) : decodeAt b o = decodeAt b' o := by
  cases o <;> simp_all [Op.need, decodeAt]

end Sys2Proof

namespace Sys2Proof.Machine

variable {s u t : State} {o : Op}

/-- `u` is reached from `s` inside one group: the decode goes on, with `s`'s flags, cursor and payload. -/
structure SameGroup (s u : State) : Prop where
  decoding : Decoding u
  flags : u.flags = s.flags
  cur : u.cur = s.cur
  payload : PayloadKept s u

theorem SameGroup.refl (hd : Decoding s) : SameGroup s s := ⟨hd, rfl, rfl, fun _ => rfl, rfl, rfl⟩

/-- An operation of the GPS group runs on the bytes at the group's start (R100, R127). -/
theorem SameGroup.step_eq (h : SameGroup s u) (hn : u.nextOp = o) (ho : o.group = .gps) (hl : s.cur + 9 ≤ s.len)
    (he : exec (decodeAt (fun k => s.byteAt (s.cur + k)) o) u = .next t) : step u = .next (t.retire o) := by
  obtain ⟨⟨hb, hr, hw⟩, -, hcur, hbyte, hlen, -⟩ := h
  have hbase : o.base u.cur = s.cur := by
    rw [← hcur]
    cases o <;> first | rfl | cases ho
  have hneed : o.need ≤ 9 := by
    cases o <;> decide
  refine step_fits hb hr hw hn (.inr (by omega)) ?_
  rw [hbase, ← he]
  refine congrArg (exec · u) (decodeAt_congr fun k hk => ?_)
  rw [u.getD_bytes (by omega), hbyte]

/-- An operation that does not move the cursor leaves the machine inside the group. -/
theorem SameGroup.next {i : Instr} (h : SameGroup s u) (hop : i.op = some o) (hs : o ≠ .status) (hp : o ≠ .port)
    (ha : o.advance = 0) (he : exec i u = .next t) : SameGroup s (t.retire o) := by
  obtain ⟨⟨hb, hr, hw⟩, hflags, hcur, hbyte, hlen, hport⟩ := h
  have frame := exec_frame hop hs he
  refine ⟨⟨?_, ?_, ?_⟩, ?_, ?_, fun a => ?_, ?_, ?_⟩
  · rw [State.retire_phase, if_neg hp, frame.phase, hb]
  · rwa [State.retire_requests, frame.requests]
  · rwa [State.retire_requests, frame.requests]
  · rw [State.retire_flags, frame.flags, hflags]
  · rw [exec_retire_cur hop hs he, ha, Nat.add_zero, hcur]
  · rw [State.retire_byteAt, frame.bytes, hbyte]
  · rw [State.retire_len, frame.len, hlen]
  · rw [State.retire_port, frame.port, hport]

/-- With a byte of the nine missing, LAT faults for the whole group (R100, R146). -/
theorem step_lat_short (hd : Decoding s) (hn : s.nextOp = .lat) (hl : s.len < s.cur + 9) :
    step s = .next (s.raise .shortBuffer .gps s.cur) := by
  obtain ⟨hb, hr, hw⟩ := hd
  exact step_short hb hr hw hn (by decide) hl

/-- With the nine bytes there, the group's four operations run in four steps on them, then the cursor moves by 9 (R100). -/
theorem run_gps (hd : Decoding s) (hn : s.nextOp = .lat) (hl : s.cur + 9 ≤ s.len) :
    ∃ t u v w, exec (decodeAt (fun k => s.byteAt (s.cur + k)) .lat) s = .next t ∧
      exec (decodeAt (fun k => s.byteAt (s.cur + k)) .lon) { t with seq := .lon } = .next u ∧
      exec (decodeAt (fun k => s.byteAt (s.cur + k)) .qual) { u with seq := .qual } = .next v ∧
      exec .lonlat { v with seq := .lonlat } = .next w ∧
      Host.Core.run core 4 s = .next { w with seq := .upcnt, cur := s.cur + 9 } := by
  obtain ⟨-, -, hbitLat, hbitLon, hbitQual, hbitLonlat, -⟩ := Op.enabled_bit s.flags
  have hbit : s.flags.getLsbD 4 = true := hbitLat ▸ hn ▸ s.nextOp_enabled
  have here {x : State} {o : Op} (hx : SameGroup s x) (hq : x.seq = o) (ho : o.enabled s.flags = s.flags.getLsbD 4) :
      x.nextOp = o := State.nextOp_here hq (by rw [hx.flags, ho, hbit])
  obtain ⟨t, ht⟩ := exec_answers (i := decodeAt (fun k => s.byteAt (s.cur + k)) .lat) nofun s
  have hlat := SameGroup.refl hd
  have hlon : SameGroup s { t with seq := .lon } := hlat.next (o := .lat) rfl nofun nofun rfl ht
  obtain ⟨u, hu⟩ := exec_answers (i := decodeAt (fun k => s.byteAt (s.cur + k)) .lon) nofun { t with seq := .lon }
  have hqual : SameGroup s { u with seq := .qual } := hlon.next (o := .lon) rfl nofun nofun rfl hu
  obtain ⟨v, hv⟩ := exec_answers (i := decodeAt (fun k => s.byteAt (s.cur + k)) .qual) nofun { u with seq := .qual }
  have hlonlat : SameGroup s { v with seq := .lonlat } := hqual.next (o := .qual) rfl nofun nofun rfl hv
  obtain ⟨w, hw⟩ := exec_answers (i := .lonlat) nofun { v with seq := .lonlat }
  have hend : (w.retire .lonlat).cur = s.cur + 9 := by
    rw [exec_retire_cur (o := .lonlat) rfl nofun hw, hlonlat.cur]
    rfl
  refine ⟨t, u, v, w, ht, hu, hv, hw, ?_⟩
  calc Host.Core.run core 4 s
    _ = Host.Core.run core 3 { t with seq := .lon } := run_succ_next (hlat.step_eq hn rfl hl ht) 3
    _ = Host.Core.run core 2 { u with seq := .qual } := run_succ_next (hlon.step_eq (here hlon rfl hbitLon) rfl hl hu) 2
    _ = Host.Core.run core 1 { v with seq := .lonlat } := run_succ_next (hqual.step_eq (here hqual rfl hbitQual) rfl hl hv) 1
    _ = .next (w.retire .lonlat) := run_succ_next (hlonlat.step_eq (here hlonlat rfl hbitLonlat) rfl hl hw) 0
    _ = .next { w with seq := .upcnt, cur := s.cur + 9 } := hend ▸ rfl

/-- Settles O37: bit 4 enables the group, the two outcomes of its check, and the registers its operations do not write. -/
theorem gpsGroupRuns : Obligations.GpsGroupRuns := by
  intro s hd hn
  obtain ⟨-, -, hbit, -⟩ := Op.enabled_bit s.flags
  refine ⟨hbit ▸ hn ▸ s.nextOp_enabled, step_lat_short hd hn, fun hl => ?_⟩
  obtain ⟨t, u, v, w, ht, hu, hv, hw, hrun⟩ := run_gps hd hn hl
  refine ⟨t, u, v, w, ht, hu, hv, hw, hrun, ?_⟩
  have keptLon : OtherRegistersKept (registersOf .lat ++ registersOf .lon) s u :=
    (exec_otherRegistersKept rfl ht).trans (exec_otherRegistersKept (s := { t with seq := .lon }) rfl hu)
  have keptLonlat : OtherRegistersKept (registersOf .qual ++ registersOf .lonlat) u w :=
    (exec_otherRegistersKept (s := { u with seq := .qual }) rfl hv).trans
      (exec_otherRegistersKept (s := { v with seq := .lonlat }) rfl hw)
  exact (keptLon.trans keptLonlat).mono (by decide)

end Sys2Proof.Machine
end

section
/-!
SUPPORT. The GPS quality (43_quality.md): the rating of each of the sixteen tiers (R106), and the meaning of QUAL (R105).
-/

namespace Sys2Proof.Machine

/-- The table of R106, row by row, in its one-line form: tier 0 is rated Poor (R107). -/
theorem receptionOf_eq_ite : ∀ tier : Nibble,
    receptionOf tier = if tier = 1 then .good else if tier = 2 then .average else .poor := by decide

theorem receptionText_receptionOf (tier : Nibble) : receptionText (receptionOf tier) =
    if tier = 1 then ascii "Good" else if tier = 2 then ascii "Average" else ascii "Poor" := by
  rw [receptionOf_eq_ite, apply_ite receptionText, apply_ite receptionText]
  rfl

theorem receptionCode_receptionOf (tier : Nibble) : receptionCode (receptionOf tier) =
    if tier = 1 then 0 else if tier = 2 then 1 else 2 := by
  rw [receptionOf_eq_ite, apply_ite receptionCode, apply_ite receptionCode]
  rfl

/-- QUAL writes the low nibble and the high nibble's rating, and nothing else (R105). -/
theorem exec_qual (tier sat : Nibble) (s : State) : exec (.qual tier sat) s =
    .next { s with res := { s.res with satellites := some sat, reception := some (receptionOf tier) } } := rfl

/-- Settles O16: QUAL's next state, the rating's text and code by its tier, and the frame. -/
theorem qualCompletes : Obligations.QualCompletes := by
  intro tier sat s
  have hexec := exec_qual tier sat s
  refine ⟨_, hexec, rfl, ?_, ?_, rfl, exec_otherRegistersKept (o := .qual) rfl hexec,
    exec_frame (o := .qual) rfl nofun hexec, ⟨rfl, rfl, rfl⟩⟩
  · rw [← receptionText_receptionOf]
    rfl
  · rw [← receptionCode_receptionOf]
    rfl

end Sys2Proof.Machine
end

section
/-!
SUPPORT. The scalars (44_scalars.md): the step of an operation that reads its operand at the cursor, said once, and from it the
steps of UPCNT, DNCNT and BATT (R112 to R114) and the two steps of the RSSI_SNR group behind their one check (R115 to R117).
-/

namespace Sys2Proof

/-- Every operation but STATUS reads from the cursor on (R127). -/
theorem Op.base_of_ne_status {o : Op} (ho : o ≠ .status) (cur : Nat) : o.base cur = cur := by
  cases o <;> first | rfl | exact absurd rfl ho

/-- Two bytes joined big-endian fit in 16 bits, the first byte weighing 256 (R31, R114). -/
theorem toNat_bigEndian_pair (b0 b1 : Byte) :
    (BitVec.ofNat 16 (bigEndian [b0, b1])).toNat = 256 * b0.toNat + b1.toNat := by
  have hjoin : bigEndian [b0, b1] = 256 * b0.toNat + b1.toNat := by simp [bigEndian]
  have h0 := b0.isLt
  have h1 := b1.isLt
  rw [hjoin, BitVec.toNat_ofNat, Nat.mod_eq_of_lt (by omega)]

end Sys2Proof

namespace Sys2Proof.Machine

/-- Nine bits hold minus a byte (R115). -/
theorem toInt_rssiValue (m : Byte) : (BitVec.ofInt 9 (rssiValue m)).toInt = -(m.toNat : Int) := by
  have hm := m.isLt
  exact BitVec.toInt_ofInt_eq_self (by decide) (by rw [rssiValue]; omega) (by rw [rssiValue]; omega)

variable {s t : State} {o : Op}

/-- With the group's bytes there, an operation other than STATUS runs on the bytes from the cursor on (R31, R127). -/
theorem step_at_cursor (hd : Decoding s) (hn : s.nextOp = o) (ho : o ≠ .status) (hl : s.cur + o.need ≤ s.len)
    (he : exec (decodeAt (fun k => s.byteAt (s.cur + k)) o) s = .next t) : step s = .next (t.retire o) := by
  obtain ⟨hb, hr, hw⟩ := hd
  have hbase := Op.base_of_ne_status ho s.cur
  refine step_fits hb hr hw hn (.inr (hbase.symm ▸ hl)) ?_
  rw [hbase, ← he]
  exact congrArg (exec · s) (decodeAt_congr fun k hk => s.getD_bytes (by omega))

/-- With a byte of the group missing, the step faults at the cursor (R146). -/
theorem step_short_at_cursor (hd : Decoding s) (hn : s.nextOp = o) (ho : o ≠ .status) (h0 : o.need ≠ 0)
    (hl : s.len < s.cur + o.need) : step s = .next (s.raise .shortBuffer o.group s.cur) := by
  obtain ⟨hb, hr, hw⟩ := hd
  have hbase := Op.base_of_ne_status ho s.cur
  rw [step_short hb hr hw hn h0 (hbase.symm ▸ hl), hbase]

/-! ### UPCNT, DNCNT and BATT -/

/-- The two outcomes of a step whose operation, run on the bytes at the cursor, writes `v` to the register `g`. -/
theorem step_writes {g : Reg} {v : Value} (hd : Decoding s) (hn : s.nextOp = o) (hs : o ≠ .status) (hp : o ≠ .port)
    (h0 : o.need ≠ 0) (he : exec (decodeAt (fun k => s.byteAt (s.cur + k)) o) s = .next t)
    (hv : t.res.get g = some v) :
    (s.len < s.cur + o.need → step s = .next (s.raise .shortBuffer o.group s.cur)) ∧
    (s.cur + o.need ≤ s.len → ∃ u, step s = .next u ∧ u.phase = .busy ∧ u.cur = s.cur + o.advance ∧ u.flags = s.flags ∧
      u.res.get g = some v ∧ OtherRegistersKept (registersOf o) s u) := by
  have hop := decodeAt_op (fun k => s.byteAt (s.cur + k)) o
  have frame := exec_frame hop hs he
  refine ⟨step_short_at_cursor hd hn hs h0,
    fun hl => ⟨t.retire o, step_at_cursor hd hn hs hl he, ?_, exec_retire_cur hop hs he, ?_, ?_, fun r hr => ?_⟩⟩
  · rw [State.retire_phase, if_neg hp, frame.phase, hd.1]
  · rw [State.retire_flags, frame.flags]
  · rw [State.retire_res, hv]
  · rw [State.retire_res, exec_otherRegistersKept hop he r hr]

/-- Settles O35: each counter's bit, and the two outcomes of its step. -/
theorem counterSteps : Obligations.CounterSteps := by
  intro s hd
  obtain ⟨-, -, -, -, -, -, hbitUp, hbitDn, -⟩ := Op.enabled_bit s.flags
  refine ⟨fun hn => ⟨?_, ?_⟩, fun hn => ⟨?_, ?_⟩⟩
  · exact hbitUp ▸ hn ▸ s.nextOp_enabled
  · exact step_writes hd hn nofun nofun nofun rfl rfl
  · exact hbitDn ▸ hn ▸ s.nextOp_enabled
  · exact step_writes hd hn nofun nofun nofun rfl rfl

/-- Settles O36: bit 1 enables BATT, and the two outcomes of its step; the register holds both bytes, joined. -/
theorem battStep : Obligations.BattStep := by
  intro s hd hn
  obtain ⟨-, -, -, -, -, -, -, -, hbit, -⟩ := Op.enabled_bit s.flags
  refine ⟨hbit ▸ hn ▸ s.nextOp_enabled, step_writes hd hn nofun nofun nofun rfl ?_⟩
  rw [← toNat_bigEndian_pair]
  rfl

/-! ### RSSI and SNR -/

/-- RSSI writes its register from the group's first byte; the cursor stays until SNR is done (R115, R117). -/
theorem step_rssi (hd : Decoding s) (hn : s.nextOp = .rssi) (hl : s.cur + 2 ≤ s.len) :
    step s = .next { s with
      res := { s.res with rssi := some (BitVec.ofInt 9 (rssiValue (s.byteAt s.cur))) }, seq := .snr } :=
  step_at_cursor hd hn nofun hl rfl

/-- SNR writes its register from the group's second byte, then the cursor moves by the group's width (R116, R117). -/
theorem step_snr (hd : Decoding s) (hn : s.nextOp = .snr) (hl : s.cur + 2 ≤ s.len) :
    step s = .next { s with
      res := { s.res with snr := some (s.byteAt (s.cur + 1)) }, cur := s.cur + 2, seq := .hex } :=
  step_at_cursor hd hn nofun hl rfl

/-- With both bytes there, the two steps of the group write its two registers and move the cursor by 2 (R117). -/
theorem run_rssiSnr (hd : Decoding s) (hn : s.nextOp = .rssi) (hbit : s.flags.getLsbD 0 = true) (hl : s.cur + 2 ≤ s.len) :
    Host.Core.run core 2 s = .next { s with
      res := { s.res with
        rssi := some (BitVec.ofInt 9 (rssiValue (s.byteAt s.cur))), snr := some (s.byteAt (s.cur + 1)) },
      cur := s.cur + 2, seq := .hex } := by
  obtain ⟨-, -, -, -, -, -, -, -, -, -, hbitSnr, -⟩ := Op.enabled_bit s.flags
  rw [run_succ_next (step_rssi hd hn hl)]
  refine run_succ_next (step_snr ?_ ?_ ?_) 0
  exacts [hd, State.nextOp_here rfl (hbitSnr.trans hbit), hl]

/-- Settles O38: bit 0 enables the group, the two outcomes of its one check, and what its two registers then read as. -/
theorem rssiSnrGroupRuns : Obligations.RssiSnrGroupRuns := by
  intro s hd hn
  obtain ⟨-, -, -, -, -, -, -, -, -, hbitRssi, -⟩ := Op.enabled_bit s.flags
  have hbit : s.flags.getLsbD 0 = true := hbitRssi ▸ hn ▸ s.nextOp_enabled
  refine ⟨hbit, step_short_at_cursor hd hn nofun nofun,
    fun hl => ⟨_, run_rssiSnr hd hn hbit hl, hd.1, rfl, rfl, ?_, rfl, rfl, ?_⟩⟩
  · rw [← toInt_rssiValue]
    rfl
  · have keptRssi := exec_otherRegistersKept (i := .rssi (s.byteAt s.cur)) (s := s) rfl rfl
    have keptSnr := exec_otherRegistersKept (i := .snr (s.byteAt (s.cur + 1)))
      (s := { s with res := { s.res with rssi := some (BitVec.ofInt 9 (rssiValue (s.byteAt s.cur))) } }) rfl rfl
    exact keptRssi.trans keptSnr

end Sys2Proof.Machine
end

section
/-!
SUPPORT. The decode as one function (45_sequencer_assembler.md R125, R137): the step machine computes `decodeTransaction`,
and the checks the decoder makes group by group come to the one check that function makes.
-/

namespace Sys2Proof

variable {p : List Byte} {f : Byte} {o : Op} {os : List Op} {cur : Nat}

/-- An enabled operation whose bytes are there stands in front of what the rest decodes to (R122). -/
theorem decodeOps_of_decode_ok {i : Instr} (he : o.enabled f = true) (hd : decode o cur p = .ok i) :
    decodeOps p f cur (o :: os) = (decodeOps p f (cur + o.advance) os).map (i :: ·) := by
  rw [decodeOps, if_pos he, hd]
  cases decodeOps p f (cur + o.advance) os <;> rfl

/-- An enabled operation whose bytes are not there ends the decoding in its fault (R31). -/
theorem decodeOps_of_decode_error {r : Reject} (he : o.enabled f = true) (hd : decode o cur p = .error r) :
    decodeOps p f cur (o :: os) = .error r := by
  rw [decodeOps, if_pos he, hd]

end Sys2Proof

namespace Sys2Proof.Machine

/-- Settles O55: every operation keeps the decode in line with `decodeTransaction`, so it ends in that outcome. -/
theorem decodeIsOneFunction : Obligations.DecodeIsOneFunction := by
  intro s hp hr
  obtain ⟨t, ht, hobs, -⟩ := decode_ends hp hr
  exact ⟨t, ht, hobs⟩

variable {p : List Byte} {o : Op} {port draws : Nat} {t : State}

/-- In DONE the registers are those of the one function (R137). -/
theorem res_of_done (hobs : t.observe = decodeTransaction p port draws) (hd : t.phase = .done) :
    t.res = resultsOf p port draws := by
  obtain ⟨-, hres, -⟩ := decodeTransaction_eq_done.mp (hobs.symm.trans (State.observe_eq_done.mpr ⟨hd, rfl, rfl⟩))
  exact hres

/-- With its bytes there, an operation at its group's start is read (R31, R55). -/
theorem decode_of_operandFits (hf : OperandFits p o) :
    decode o (groupStart (p.getD 0 0) o.group) p = .ok (operand p o) := by
  rw [decode_eq, Op.base_groupStart]
  exact if_pos hf

/-- With a byte of its group missing, an operation at its group's start is answered with group and start (R31, R146). -/
theorem decode_of_not_operandFits (hs : ¬ OperandFits p o) :
    decode o (groupStart (p.getD 0 0) o.group) p =
      .error (.shortBuffer o.group (groupStart (p.getD 0 0) o.group)) := by
  rw [decode_eq, Op.base_groupStart]
  exact if_neg hs

/-- A decoder's answer in line with R125: a listing where no group is short, and otherwise the fault of the short group. -/
def AgreesWithShortGroup (p : List Byte) (x : Except Reject (List Instr)) : Prop :=
  (∃ l, x = .ok l ∧ shortGroup p = none) ∨ ∃ g c, x = .error (.shortBuffer g c) ∧ shortGroup p = some (g, c)

/-- One more instruction in front of a listing does not change whether a group is short. -/
theorem AgreesWithShortGroup.cons {x : Except Reject (List Instr)} (h : AgreesWithShortGroup p x) (i : Instr) :
    AgreesWithShortGroup p (x.map (i :: ·)) := by
  obtain ⟨l, rfl, hnone⟩ | ⟨g, c, rfl, hsome⟩ := h
  · exact .inl ⟨_, rfl, hnone⟩
  · exact .inr ⟨g, c, rfl, hsome⟩

/-- From any operation on, if those before it found their bytes, the decoder answers in line with R125. -/
theorem decodeOps_rest_agrees (n : Nat) (hn : o.index + n = 13) (h : FitsBefore p o.index) :
    AgreesWithShortGroup p (decodeOps p (p.getD 0 0) (groupStart (p.getD 0 0) o.group) o.rest) := by
  induction n generalizing o with
  | zero =>
    obtain rfl : o = .port := Op.index_injective hn
    have hport : Op.enabled (p.getD 0 0) .port = true := by simp [Op.enabled_eq_present, Op.group]
    rw [Op.rest_port, decodeOps_of_decode_ok hport (decode_of_operandFits (.inl rfl))]
    exact .inl ⟨_, rfl, shortGroup_eq_none_of_fitsBefore (h.succ fun _ => .inl rfl)⟩
  | succ n ih =>
    have ho : o ≠ .port := by rintro rfl; simp [Op.index] at hn
    have hi := Op.index_next ho
    have next := fun hfits : FitsBefore p (o.index + 1) => ih (o := o.next) (by omega) (hi ▸ hfits)
    rw [groupStart_next _ ho] at next
    rw [Op.rest_eq o ho]
    cases he : o.enabled (p.getD 0 0) with
    | false =>
      rw [he] at next
      rw [decodeOps_disabled he]
      exact next (h.succ fun hon => absurd (he.symm.trans hon) Bool.false_ne_true)
    | true =>
      rw [he, Bool.toNat_true, Nat.mul_one] at next
      by_cases hf : OperandFits p o
      · rw [decodeOps_of_decode_ok he (decode_of_operandFits hf)]
        exact (next (h.succ fun _ => hf)).cons _
      · exact .inr ⟨_, _, decodeOps_of_decode_error he (decode_of_not_operandFits hf),
          shortGroup_eq_of_fitsBefore h he hf⟩

/-- The decoder of a whole payload answers in line with R125. -/
theorem decodePayload_agrees (p : List Byte) : AgreesWithShortGroup p (decodePayload p) :=
  decodeOps_rest_agrees (o := .status) 13 rfl fun _ hq => absurd hq (Nat.not_lt_zero _)

/-- Settles O5: the layout fits exactly when no group is short, and the decoder's answer is in line with R125 either way. -/
theorem allChecksAreOneCheck : Obligations.AllChecksAreOneCheck := by
  intro p
  rw [← shortGroup_eq_none]
  obtain ⟨l, hd, hs⟩ | ⟨g, c, hd, hs⟩ := decodePayload_agrees p <;> simp [hd, hs]

end Sys2Proof.Machine
end

section
/-!
SUPPORT. The overlay (45_sequencer_assembler.md R138, R139): what it looks up, that it has no key twice, and its laws.
-/

namespace Sys2Proof.Machine

variable {α β : Type} {r m : List (Key × α)}

/-! ### Keys -/

/-- A new value made of the key and the old one is looked up under the old key. -/
theorem lookupKey_map_key (k : Key) (f : Key → α → β) (m : List (Key × α)) :
    lookupKey k (m.map fun e => (e.1, f e.1 e.2)) = (lookupKey k m).map (f k) := by
  induction m with
  | nil => rfl
  | cons e m ih =>
    simp only [List.map, lookupKey, ih]
    by_cases hk : k = e.1 <;> simp [hk]

theorem keysDistinct_iff : keysDistinct m = true ↔ (m.map Prod.fst).Nodup := decide_eq_true_iff

/-- New values under the same keys make no key occur twice. -/
theorem keysDistinct_map (f : α → β) : keysDistinct (m.map fun e => (e.1, f e.2)) = keysDistinct m := by
  rw [keysDistinct, keysDistinct, List.map_map]
  rfl

/-! ### The overlay's own lemmas -/

/-- The overlay has the second mapping's value where that has the key, and the first one's elsewhere (R138). -/
theorem lookupKey_overlay (k : Key) (r m : List (Key × α)) :
    lookupKey k (overlay r m) = (lookupKey k m).or (lookupKey k r) := by
  rw [overlay, lookupKey_append, lookupKey_map_key k fun k v => (lookupKey k m).getD v,
    lookupKey_filter k fun k => (lookupKey k r).isNone]
  cases lookupKey k r <;> cases lookupKey k m <;> rfl

/-- The overlay's keys are the first mapping's, then those the second adds (R138). -/
theorem overlay_keys (r m : List (Key × α)) : (overlay r m).map Prod.fst =
    r.map Prod.fst ++ (m.map Prod.fst).filter fun k => (lookupKey k r).isNone := by
  rw [overlay, List.map_append, List.map_map, List.filter_map]
  rfl

/-- Overlaying one mapping on another gives a mapping (R138). -/
theorem keysDistinct_overlay (hr : keysDistinct r = true) (hm : keysDistinct m = true) :
    keysDistinct (overlay r m) = true := by
  rw [keysDistinct_iff] at hr hm ⊢
  rw [overlay_keys]
  refine hr.append (hm.filter _) fun k hkr hkm => ?_
  have hnone : (lookupKey k r).isNone = true := (List.mem_filter.mp hkm).2
  exact (lookupKey_eq_none k r).mp (Option.isNone_iff_eq_none.mp hnone) hkr

/-- Where the second mapping gives no pair of the first another value, and adds no key, nothing changes. -/
theorem overlay_eq_self (hval : ∀ e ∈ r, (lookupKey e.1 m).getD e.2 = e.2)
    (hkey : ∀ e ∈ m, (lookupKey e.1 r).isSome = true) : overlay r m = r := by
  have hbase : (r.map fun e => (e.1, (lookupKey e.1 m).getD e.2)) = r := by
    rw [List.map_congr_left (g := id) fun e he => congrArg (Prod.mk e.1) (hval e he), List.map_id]
  have htop : (m.filter fun e => (lookupKey e.1 r).isNone) = [] :=
    List.filter_eq_nil_iff.mpr fun e he => by
      obtain ⟨v, hv⟩ := Option.isSome_iff_exists.mp (hkey e he)
      simp [hv]
  rw [overlay, hbase, htop, List.append_nil]

/-! ### The laws -/

/-- The empty mapping changes nothing (R139). -/
theorem overlay_nil (r : List (Key × α)) : overlay r [] = r :=
  overlay_eq_self (fun _ _ => rfl) nofun

/-- Overlaying the same mapping again changes nothing (R139). -/
theorem overlay_overlay (r : List (Key × α)) (hm : keysDistinct m = true) : overlay (overlay r m) m = overlay r m := by
  refine overlay_eq_self (fun e he => ?_) fun e he => ?_
  · obtain he | he := List.mem_append.mp he
    · obtain ⟨e', -, rfl⟩ := List.mem_map.mp he
      cases lookupKey e'.1 m <;> rfl
    · rw [lookupKey_of_mem hm (List.mem_of_mem_filter he)]
      rfl
  · rw [lookupKey_overlay, lookupKey_of_mem hm he]
    rfl

/-- Two values of one key come out differently in the two orders (R139). -/
theorem overlay_not_comm {a b : α} (h : a ≠ b) (k : Key) :
    lookupKey k (overlay [(k, a)] [(k, b)]) ≠ lookupKey k (overlay [(k, b)] [(k, a)]) := by
  simpa [lookupKey_overlay, lookupKey] using h.symm

/-- Settles O29: all five laws are read off what the overlay looks up and lists. -/
theorem overlayLaws : Obligations.OverlayLaws := by
  intro α
  refine ⟨fun r m k => lookupKey_overlay k r m, fun r m k => ?_, overlay_nil, fun r m => overlay_overlay r,
    fun a b h => ⟨_, _, ascii "temperature", overlay_not_comm h _⟩⟩
  rw [lookupKey_overlay, Option.isSome_or, Bool.or_comm]

/-! ### MERGE -/

/-- MERGE after DONE writes the overlay of META on RES to `out`, and nothing else (R138). -/
theorem exec_merge_of_done {s : State} (h : s.phase = .done) (md : List (Key × MetaValue)) :
    exec (.merge md) s = .next { s with out := some (overlay (decodedEntries s.res.mapping) (callerEntries md)) } := by
  simpa [exec, h] using execMerge_cases md s

/-- MERGE after a fault yields no mapping, and changes nothing else (R140). -/
theorem exec_merge_of_fault {s : State} (h : s.phase = .fault) (md : List (Key × MetaValue)) :
    exec (.merge md) s = .next { s with out := none } := by
  simpa [exec, h] using execMerge_cases md s

/-- MERGE's mapping gives each key META's value, or RES's where META has none (R138). -/
theorem lookupKey_merged (k : Key) (res : List (Key × Value)) (md : List (Key × MetaValue)) :
    lookupKey k (overlay (decodedEntries res) (callerEntries md)) =
      ((lookupKey k md).map .caller).or ((lookupKey k res).map .decoded) := by
  rw [lookupKey_overlay, decodedEntries, callerEntries, lookupKey_map, lookupKey_map]

/-- Settles O22: RES has no key twice, so the overlay of a META without one has none either, and looks up as R138 says. -/
theorem mergeCompletesAfterDone : Obligations.MergeCompletesAfterDone := by
  intro md s hwf hdone
  refine ⟨_, exec_merge_of_done hdone md, keysDistinct_overlay ?_ ?_, fun k => ?_⟩
  · rw [decodedEntries, keysDistinct_map]
    exact s.res.mapping_keysDistinct
  · rw [callerEntries, keysDistinct_map]
    exact hwf
  · rw [lookupKey_merged]
    cases lookupKey k md <;> rfl

end Sys2Proof.Machine
end

section
/-!
SUPPORT. HEX, LEN and PORT (45_sequencer_assembler.md R133 to R136): their meanings, the three steps that end a decode (R122
step 8), and that a decode which faults has not come to them.
-/

namespace Sys2Proof.Machine

variable {s t : State}

/-! ### The meanings -/

/-- HEX writes the whole input as a hex string, and nothing else (R134). -/
theorem exec_hex (s : State) : exec .hex s = .next { s with res := { s.res with hex := some (hexString s.bytes) } } := rfl

/-- LEN writes the number of bytes supplied, and nothing else (R135). -/
theorem exec_len (s : State) : exec .len s = .next { s with res := { s.res with length := some s.len } } := rfl

/-- PORT writes the caller's port, and nothing else (R136). -/
theorem exec_port (s : State) : exec .port s = .next { s with res := { s.res with port := some s.port } } := rfl

/-- The hex string has two digits for each byte of the input (R134). -/
theorem hexString_bytes_length (s : State) : (hexString s.bytes).length = 2 * s.len := by
  rw [hexString_length, State.bytes_length]

/-- The digits of byte `i` of the input, high nibble first (R134). -/
theorem hexString_bytes_at {i : Nat} (h : i < s.len) :
    (hexString s.bytes).getD (2 * i) 0 = hexdig (hiNibble (s.byteAt i)) ∧
    (hexString s.bytes).getD (2 * i + 1) 0 = hexdig (loNibble (s.byteAt i)) := by
  rw [← s.getD_bytes h]
  exact hexString_at (s.bytes_length.symm ▸ h)

/-- Settles O20: HEX's next state, its string digit by digit, and the frame. -/
theorem hexCompletes : Obligations.HexCompletes := fun s =>
  ⟨_, _, exec_hex s, rfl, hexString_bytes_length s, fun _ => hexString_bytes_at, rfl,
    exec_otherRegistersKept (o := .hex) rfl (exec_hex s), exec_frame (o := .hex) rfl nofun (exec_hex s), ⟨rfl, rfl, rfl⟩⟩

/-- Settles O21: the next states of LEN and of PORT, and their frames. -/
theorem lenAndPortComplete : Obligations.LenAndPortComplete := fun s =>
  ⟨⟨_, exec_len s, rfl, rfl, exec_otherRegistersKept (o := .len) rfl (exec_len s),
      exec_frame (o := .len) rfl nofun (exec_len s), ⟨rfl, rfl, rfl⟩⟩,
    ⟨_, exec_port s, rfl, rfl, exec_otherRegistersKept (o := .port) rfl (exec_port s),
      exec_frame (o := .port) rfl nofun (exec_port s), ⟨rfl, rfl, rfl⟩⟩⟩

/-! ### The end of a decode -/

/-- The three operations after step 7 are selected by every status byte (R59, R133). -/
theorem final_enabled (f : Byte) : Op.hex.enabled f = true ∧ Op.len.enabled f = true ∧ Op.port.enabled f = true := by
  obtain ⟨-, -, -, -, -, -, -, -, -, -, -, hfinal⟩ := Op.enabled_bit f
  exact hfinal

theorem step_hex (hd : Decoding s) (hn : s.nextOp = .hex) :
    step s = .next { s with res := { s.res with hex := some (hexString s.bytes) }, seq := .len } := by
  obtain ⟨hb, hr, hw⟩ := hd
  exact step_fits hb hr hw hn (.inl rfl) (exec_hex s)

theorem step_len (hd : Decoding s) (hn : s.nextOp = .len) :
    step s = .next { s with res := { s.res with length := some s.len }, seq := .port } := by
  obtain ⟨hb, hr, hw⟩ := hd
  exact step_fits hb hr hw hn (.inl rfl) (exec_len s)

/-- PORT's step ends the decode (R122 step 8). -/
theorem step_port (hd : Decoding s) (hn : s.nextOp = .port) :
    step s = .next (State.finish { s with res := { s.res with port := some s.port } }) := by
  obtain ⟨hb, hr, hw⟩ := hd
  exact step_fits hb hr hw hn (.inl rfl) (exec_port s)

/-- Once HEX is next, three steps write the last three registers and end the decode (R122 step 8, R133). -/
theorem run_final (hd : Decoding s) (hn : s.nextOp = .hex) :
    Host.Core.run core 3 s = .next (State.finish { s with
      res := { s.res with hex := some (hexString s.bytes), length := some s.len, port := some s.port } }) := by
  obtain ⟨-, hlen, hport⟩ := final_enabled s.flags
  rw [run_succ_next (step_hex hd hn), run_succ_next (step_len ?_ ?_)]
  · refine run_succ_next (step_port ?_ ?_) 0
    exacts [hd, State.nextOp_here rfl hport]
  exacts [hd, State.nextOp_here rfl hlen]

/-- A step of a decode that ends in FAULT is the ShortBufferError of an operation that reads bytes (R144, R150). -/
theorem step_fault (hd : Decoding s) (h : step s = .next t) (hf : t.phase = .fault) :
    s.nextOp.need ≠ 0 ∧ t = s.raise .shortBuffer s.nextOp.group (s.nextOp.base s.cur) := by
  obtain ⟨hb, hr, hw⟩ := hd
  by_cases hfit : s.nextOp.need = 0 ∨ s.nextOp.base s.cur + s.nextOp.need ≤ s.len
  · obtain ⟨u, hu⟩ := exec_answers (i := decodeAt (fun k => s.bytes.getD (s.nextOp.base s.cur + k) 0) s.nextOp)
      (by simp [decodeAt_op]) s
    obtain rfl := Host.Outcome.next.inj ((step_fits hb hr hw rfl hfit hu).symm.trans h)
    rw [State.retire_phase, (exec_frameButFlags (by simp [decodeAt_op]) hu).phase, hb] at hf
    split at hf <;> cases hf
  · obtain ⟨h0, hl⟩ := not_or.mp hfit
    exact ⟨h0, (Host.Outcome.next.inj ((step_short hb hr hw rfl h0 (Nat.lt_of_not_le hl)).symm.trans h)).symm⟩

/-- The operations that read bytes come before HEX (R122). -/
theorem index_lt_hex_of_need {o : Op} (h : o.need ≠ 0) : o.index < Op.hex.index := by
  cases o <;> first | decide | exact absurd rfl h

/-- Settles O39: the three steps after step 7, that nothing disables them, and that a fault comes before them. -/
theorem finalGroupRuns : Obligations.FinalGroupRuns := by
  refine ⟨fun s hd hn => ⟨_, run_final hd hn, rfl, rfl, rfl, rfl, rfl, rfl, ?_⟩, final_enabled, fun s t hd h hf => ?_⟩
  · have keptHex := exec_otherRegistersKept (o := .hex) rfl (exec_hex s)
    have keptLen := exec_otherRegistersKept (o := .len) rfl
      (exec_len { s with res := { s.res with hex := some (hexString s.bytes) } })
    have keptPort := exec_otherRegistersKept (o := .port) rfl
      (exec_port { s with res := { s.res with hex := some (hexString s.bytes), length := some s.len } })
    exact (keptHex.trans keptLen).trans keptPort
  · obtain ⟨h0, rfl⟩ := step_fault hd h hf
    exact ⟨index_lt_hex_of_need h0, fun g _ => nothingPresent_of_res_empty rfl g⟩

end Sys2Proof.Machine
end

section
/-!
SUPPORT. Two decodes side by side (45_sequencer_assembler.md R136, R140): what decides nothing in a decode, the port and the
actions the host has pending, can be changed at START and is found changed, and nothing else, at the end.
-/

namespace Sys2Proof.Machine

variable {s t u : State} {n : Nat}

/-! ### Changes that a decode carries along -/

/-- The change `φ` of a state is carried along by a decode: the same operation reads the same operand, and what a step then
does, running, retiring or faulting, it does to the changed state as well. -/
structure Carried (φ : State → State) : Prop where
  fetch : ∀ s, (φ s).fetch = s.fetch
  nextOp : ∀ s, (φ s).nextOp = s.nextOp
  exec : ∀ {i : Instr} {s t : State}, i.op ≠ none → exec i s = .next t → exec i (φ s) = .next (φ t)
  raise : ∀ (s : State) (e : FaultCode) (g : Group) (c : Nat), (φ s).raise e g c = φ (s.raise e g c)
  retire : ∀ (s : State) (o : Op), (φ s).retire o = φ (s.retire o)

/-- A step of the sequencer carries such a change along. -/
theorem Carried.runOp {φ : State → State} (h : Carried φ) (hrun : runOp s = .next t) : runOp (φ s) = .next (φ t) := by
  obtain ⟨g, c, hfetch, hs⟩ | ⟨i, u, hfetch, hop, hexec, hs⟩ := runOp_cases s <;>
    obtain rfl := Host.Outcome.next.inj (hs.symm.trans hrun)
  · rw [Machine.runOp, h.fetch, hfetch, ← h.raise]
  · rw [Machine.runOp, h.fetch, hfetch]
    simp only [h.exec (by simp [hop]) hexec, h.nextOp, h.retire]

/-- Which actions the host has pending is carried along. -/
theorem carried_requests (rs : List HostRequest) : Carried fun s => { s with requests := rs } where
  fetch _ := rfl
  nextOp _ := rfl
  exec {i s t} hop h := by
    cases i
    case merge => exact absurd rfl hop
    all_goals
      obtain rfl := Host.Outcome.next.inj h
      rfl
  raise _ _ _ _ := rfl
  retire s o := by cases o <;> rfl

/-- The state with another port, in the input and, where PORT has run, in the result. -/
def State.withPort (p : Nat) (s : State) : State :=
  { s with port := p, res := { s.res with port := s.res.port.map fun _ => p } }

/-- Which port it is, is carried along: PORT alone reads it, into the register that shows it (R136). -/
theorem carried_withPort (p : Nat) : Carried (State.withPort p) where
  fetch _ := rfl
  nextOp _ := rfl
  exec {i s t} hop h := by
    cases i
    case merge => exact absurd rfl hop
    all_goals
      obtain rfl := Host.Outcome.next.inj h
      rfl
  raise _ _ _ _ := rfl
  retire s o := by cases o <;> rfl

/-- An operation of a decode leaves what is pending as it was. -/
theorem runOp_requests (h : runOp s = .next t) : t.requests = s.requests := by
  obtain ⟨g, c, -, hs⟩ | ⟨i, u, -, hop, hexec, hs⟩ := runOp_cases s <;>
    obtain rfl := Host.Outcome.next.inj (hs.symm.trans h)
  · rfl
  · rw [State.retire_requests, (exec_frameButFlags (by simp [hop]) hexec).requests]

/-- A step of a decode with nothing pending is one of the sequencer's. -/
theorem step_busy_nil (hb : s.phase = .busy) (hr : s.requests = []) : step s = runOp s :=
  step_busy hb (by simp [hr]) (by simp [hr])

/-- At rest the oldest pending action is taken (R176). -/
theorem step_pending {r : HostRequest} {rs : List HostRequest} (hp : s.phase ≠ .busy) (hr : s.requests = r :: rs) :
    step s = serve r { s with requests := rs } := by
  obtain ⟨hb, -⟩ | ⟨hb, -⟩ | ⟨hb, -⟩ | ⟨-, hnil, -⟩ | ⟨-, r', rs', hcons, hs⟩ := step_cases s
  · exact absurd hb hp
  · exact absurd hb hp
  · exact absurd hb hp
  · simp [hr] at hnil
  · obtain ⟨rfl, rfl⟩ := List.cons.inj (hr.symm.trans hcons)
    exact hs

/-- If a run ends at rest in `t`, the run of the changed state comes to the changed `t`, and in `m` steps more to what follows
from there (`r`, which a longer wait must not change). -/
theorem Carried.run {φ : State → State} (h : Carried φ) {m : Nat} {r : Host.Outcome State Fault Refusal}
    (hstep : ∀ {s}, s.phase = .busy → s.requests = [] → step (φ s) = Machine.runOp (φ s))
    (hend : ∀ k, Host.Core.run core (k + m) (φ t) = r) (ht : t.phase ≠ .busy) (hr : s.requests = [])
    (hrun : Host.Core.run core n s = .next t) : Host.Core.run core (n + m) (φ s) = r := by
  induction n generalizing s with
  | zero =>
    obtain rfl := Host.Outcome.next.inj hrun
    exact hend 0
  | succ n ih =>
    by_cases hb : s.phase = .busy
    · obtain ⟨v, hv, hrun⟩ := run_succ_inv hrun
      rw [step_busy_nil hb hr] at hv
      rw [Nat.add_right_comm, run_succ_next ((hstep hb hr).trans (h.runOp hv))]
      exact ih ((runOp_requests hv).trans hr) hrun
    · rw [run_atRest hb hr] at hrun
      obtain rfl := Host.Outcome.next.inj hrun
      exact hend (n + 1)

/-! ### Another port -/

/-- With nothing pending, a run with another port ends where the run without it does, with the other port. -/
theorem run_withPort (p : Nat) (hr : s.requests = []) (h : Host.Core.run core n s = .next t) (ht : t.phase ≠ .busy)
    (htr : t.requests = []) : Host.Core.run core n (s.withPort p) = .next (t.withPort p) :=
  (carried_withPort p).run (m := 0) (fun {s} => step_busy_nil (s := s.withPort p))
    (run_atRest (s := t.withPort p) ht htr) ht hr h

/-- START shows no port yet, so all another port changes is the input (R21). -/
theorem startDecode_withPort (s : State) (p : Nat) :
    State.startDecode { s with port := p } = s.startDecode.withPort p := by
  by_cases hl : s.len ≤ Config.payloadMax
  · rw [State.startDecode_fits _ hl, State.startDecode_fits { s with port := p } hl]
    rfl
  · rw [State.startDecode_tooLong _ (Nat.lt_of_not_le hl),
      State.startDecode_tooLong { s with port := p } (Nat.lt_of_not_le hl)]
    rfl

/-- Settles O57: the result copies the port, and every step after START carries another port along. -/
theorem portIsOnlyCopied : Obligations.PortIsOnlyCopied := by
  intro s p hp hr
  obtain ⟨t, ht, hobs, hrest, htr⟩ := decode_ends hp hr
  refine ⟨t, ht, fun hd => ?_, ?_⟩
  · rw [res_of_done hobs hd]
    rfl
  · rw [run_succ_next (step_start hp hr)] at ht
    rw [run_succ_next (step_start (s := { s with port := p }) hp hr)]
    exact startDecode_withPort { s with requests := [] } p ▸ run_withPort p (by simp) ht hrest htr

/-! ### MERGE behind a decode -/

/-- At rest a pending MERGE is taken, and the block rests again (R138, R140). -/
theorem run_merge_atRest {md : List (Key × MetaValue)} (hp : s.phase ≠ .busy) (hr : s.requests = [])
    (hm : exec (.merge md) s = .next u) : Host.Core.run core (n + 1) { s with requests := [.merge md] } = .next u := by
  have hs : { s with requests := [] } = s := by rw [← hr]
  have hstep : step { s with requests := [.merge md] } = serve (.merge md) { s with requests := [] } :=
    step_pending (s := { s with requests := [.merge md] }) hp rfl
  rw [hs] at hstep
  have hu := exec_merge_eq hm
  rw [run_succ_next (hstep.trans hm)]
  exact run_atRest (hu ▸ hp) (hu ▸ hr) n

/-- A MERGE pending while a decode runs is taken when the decode has ended, one step later (R140). -/
theorem run_merge_pending {md : List (Key × MetaValue)} (hr : s.requests = []) (h : Host.Core.run core n s = .next t)
    (ht : t.phase ≠ .busy) (htr : t.requests = []) (hm : exec (.merge md) t = .next u) :
    Host.Core.run core (n + 1) { s with requests := [.merge md] } = .next u :=
  (carried_requests [.merge md]).run (m := 1) (fun hb _ => step_busy hb nofun nofun)
    (fun _ => run_merge_atRest ht htr hm) ht hr h

/-- START leaves what is pending behind it as it is (R176). -/
theorem startDecode_pending (s : State) (rs : List HostRequest) :
    State.startDecode { s with requests := rs } = { s.startDecode with requests := rs } := by
  by_cases hl : s.len ≤ Config.payloadMax
  · rw [State.startDecode_fits _ hl, State.startDecode_fits { s with requests := rs } hl]
  · rw [State.startDecode_tooLong _ (Nat.lt_of_not_le hl),
      State.startDecode_tooLong { s with requests := rs } (Nat.lt_of_not_le hl)]
    rfl

/-- A decode with MERGE behind it comes to MERGE in a state that shows the decode's outcome (R137, R140). -/
theorem decode_merge_ends {md : List (Key × MetaValue)} (hp : s.phase ≠ .busy) (hr : s.requests = [.start, .merge md]) :
    ∃ t, t.observe = decodeTransaction s.bytes s.port s.draws ∧
      ∀ u, exec (.merge md) t = .next u → Host.Core.run core 16 s = .next u := by
  obtain ⟨t, ht, hobs, hrest, htr⟩ := decode_ends (s := { s with requests := [.start] }) hp rfl
  rw [run_succ_next (step_start (s := { s with requests := [.start] }) hp rfl)] at ht
  refine ⟨t, hobs, fun u hu => ?_⟩
  rw [run_succ_next (step_start hp hr)]
  exact startDecode_pending { s with requests := [] } [.merge md] ▸ run_merge_pending (by simp) ht hrest htr hu

/-- The one function gives a result or a fault, never IDLE or BUSY (R137). -/
theorem decodeTransaction_cases (p : List Byte) (port draws : Nat) :
    (∃ r c, decodeTransaction p port draws = .done r c) ∨ ∃ e g c, decodeTransaction p port draws = .fault e g c := by
  unfold decodeTransaction
  split
  · exact .inr ⟨_, _, _, rfl⟩
  · split
    · exact .inr ⟨_, _, _, rfl⟩
    · exact .inl ⟨_, _, rfl⟩

/-- The host observes a fault exactly in FAULT: its code, its group and its cursor (R17). -/
theorem State.observe_eq_fault {e : FaultCode} {g : Group} {c : Nat} :
    s.observe = .fault e g c ↔ s.phase = .fault ∧ s.fault = e ∧ s.faultGroup = g ∧ s.faultCur = c := by
  unfold State.observe
  cases s.phase <;> simp

/-- Settles O60: MERGE finds the decode's outcome, overlays META on a result and offers no mapping for a fault. -/
theorem decodeThenMerge : Obligations.DecodeThenMerge := by
  intro s md hp hr
  obtain ⟨t, hobs, hrun⟩ := decode_merge_ends hp hr
  obtain ⟨r, c, hd⟩ | ⟨e, g, c, hf⟩ := decodeTransaction_cases s.bytes s.port s.draws
  · obtain ⟨hphase, rfl, -⟩ := State.observe_eq_done.mp (hobs.trans hd)
    refine ⟨_, hrun _ (exec_merge_of_done hphase md), hobs, fun r' c' h => ?_, fun _ _ _ h => ?_⟩
    · obtain ⟨rfl, -⟩ := Observation.done.inj (hd.symm.trans h)
      rfl
    · cases hd.symm.trans h
  · obtain ⟨hphase, -⟩ := State.observe_eq_fault.mp (hobs.trans hf)
    refine ⟨_, hrun _ (exec_merge_of_fault hphase md), hobs, fun _ _ h => ?_, fun _ _ _ _ => rfl⟩
    cases hf.symm.trans h

end Sys2Proof.Machine
end

section
/-!
SUPPORT. Bytes beyond the layout (45_sequencer_assembler.md R131): each group lies inside the layout, so every register but
`hex` and `length` is made of the first `L(B[0])` bytes.
-/

namespace Sys2Proof

/-- An announced group lies inside the layout (R55, R56). -/
theorem groupStart_add_width_le {f : Byte} {g : Group} (h : g.present f = true) :
    groupStart f g + g.width ≤ layoutLength f := by
  cases g
  case status => exact layoutLength_pos f
  case noGroup => cases h
  all_goals
    simp only [Group.present] at h
    simp only [groupStart, Group.width, layoutLength, statusBit, h, Bool.toNat_true]
    omega

end Sys2Proof

namespace Sys2Proof.Machine

variable {p p' : List Byte} {port draws : Nat}

/-- The two payloads hold the same bytes up to the layout length of `p` (R56). -/
def SameLayout (p p' : List Byte) : Prop := ∀ i, i < layoutLength (p.getD 0 0) → p'.getD i 0 = p.getD i 0

theorem SameLayout.status (h : SameLayout p p') : p'.getD 0 0 = p.getD 0 0 := h 0 (layoutLength_pos _)

/-- A group is not announced, or the two payloads hold the same bytes of it. -/
theorem SameLayout.group (h : SameLayout p p') (g : Group) : g.present (p.getD 0 0) = false ∨
    ∀ k, k < g.width → p'.getD (groupStart (p.getD 0 0) g + k) 0 = p.getD (groupStart (p.getD 0 0) g + k) 0 := by
  cases hg : g.present (p.getD 0 0) with
  | false => exact .inl rfl
  | true =>
    have hle := groupStart_add_width_le hg
    exact .inr fun k hk => h _ (by omega)

/-- A register other than `hex` and `length` is made of the layout's bytes alone: its group is announced in neither payload,
or has the same bytes in both (R131). -/
theorem SameLayout.resultsOf_get (h : SameLayout p p') {g : Reg} (hg : g ∉ [Reg.hex, Reg.length]) :
    (resultsOf p' port draws).get g = (resultsOf p port draws).get g := by
  have h0 := h.status
  have hgroup := h.group g.writer.group
  cases g
  case hex | length => simp at hg
  case port => rfl
  case rssiSnrReported | batteryLevelReported | downlinkCounterReported | uplinkCounterReported | gpsReported
      | triggeredByPushbutton | triggeredByAccelerometer | temperatureReported =>
    simp only [Results.get, resultsOf, h0]
  all_goals
    dsimp only [Results.get, resultsOf]
    obtain hoff | hb := hgroup
    · simp only [Reg.writer, Op.group, Group.present] at hoff
      simp only [h0, hoff, Bool.false_eq_true, if_false]
  case temperature =>
    have htemp : p'.getD 1 0 = p.getD 1 0 := hb 0 (by decide)
    simp only [h0, htemp]
  all_goals
    have hb0 := hb 0
    simp only [Reg.writer, Op.group, Nat.add_zero] at hb hb0
    simp (disch := decide) only [h0, hb, hb0]

/-- Two buffers that hold the same bytes up to the layout length, both supplied as far, are payloads that do. -/
theorem sameLayout_bytes {s s' : State} (hl : layoutLength (s.byteAt 0) ≤ s.len)
    (hl' : layoutLength (s.byteAt 0) ≤ s'.len) (hb : ∀ i, i < layoutLength (s.byteAt 0) → s'.byteAt i = s.byteAt i) :
    SameLayout s.bytes s'.bytes := by
  intro i hi
  rw [s.getD_bytes (Nat.lt_of_lt_of_le (layoutLength_pos _) hl)] at hi
  rw [s.getD_bytes (Nat.lt_of_lt_of_le hi hl), s'.getD_bytes (Nat.lt_of_lt_of_le hi hl'), hb i hi]

/-- With a layout that fits, a decode reaches DONE with the registers computed in one go (R56, R137). -/
theorem decode_reaches_done {s : State} (hp : s.phase ≠ .busy) (hr : s.requests = [.start])
    (hl : layoutLength (s.byteAt 0) ≤ s.len) (hmax : s.len ≤ Config.payloadMax) :
    ∃ t, Host.Core.run core 15 s = .next t ∧ t.phase = .done ∧ t.curOut = layoutLength (s.byteAt 0) ∧
      t.res = resultsOf s.bytes s.port s.draws := by
  obtain ⟨t, ht, hobs, -⟩ := decode_ends hp hr
  obtain ⟨hiff, hcur⟩ := done_iff_layout_fits hobs
  have hd := hiff.mpr ⟨hmax, Nat.le_trans (layoutLength_pos _) hl, hl⟩
  exact ⟨t, ht, hd, hcur hd, res_of_done hobs hd⟩

/-- Settles O58: both decodes reach DONE, with registers computed from payloads of the same layout. -/
theorem trailingBytesChangeNothing : Obligations.TrailingBytesChangeNothing := by
  intro s s' hp hp' hr hr' hl hl' hmax hmax' hport hdraws hb
  have h0 : s'.byteAt 0 = s.byteAt 0 := hb 0 (layoutLength_pos _)
  obtain ⟨t, ht, hd, hcur, hres⟩ := decode_reaches_done hp hr hl hmax
  obtain ⟨t', ht', hd', hcur', hres'⟩ := decode_reaches_done hp' hr' (h0 ▸ hl') hmax'
  refine ⟨t, t', ht, ht', hd, hd', hcur, h0 ▸ hcur', fun g hg => ?_, ?_, ?_⟩ <;> rw [hres']
  · rw [hres, hport, hdraws]
    exact (sameLayout_bytes hl hl' hb).resultsOf_get hg
  · rfl
  · rw [← s'.bytes_length]
    rfl

end Sys2Proof.Machine
end

section
/-!
SUPPORT. Exceptions (60_exceptions.md): where the group that a ShortBufferError names stands (R146), START's two outcomes (R143),
and that no step raises LookupError (R145).
-/

namespace Sys2Proof

/-- A group never starts beyond the cursor (R127). -/
theorem Op.base_le (o : Op) (cur : Nat) : o.base cur ≤ cur := by
  cases o
  case status => exact Nat.zero_le cur
  all_goals exact Nat.le_refl cur

end Sys2Proof

namespace Sys2Proof.Machine

variable {s t : State}

/-! ### ShortBufferError -/

/-- Settles O40: raising is a write of the four registers and the results; a decode's fault is such a raise. -/
theorem faultEntry : Obligations.FaultEntry := by
  refine ⟨fun s e g c => ⟨rfl, rfl, rfl, rfl, nothingPresent_of_res_empty rfl⟩, fun s t hd h hf => ?_⟩
  obtain ⟨-, ht⟩ := step_fault hd h hf
  exact ⟨_, _, ht, (step_busy_payloadKept hd.1 h).1⟩

/-- A decode step that ends in FAULT found a byte of its group missing (R31, R144): had they all been there, the operation
would have retired and the sequencer moved on, where a fault puts it back to STATUS. -/
theorem len_lt_of_step_fault (hd : Decoding s) (h : step s = .next t) (hf : t.phase = .fault) :
    s.len < s.nextOp.base s.cur + s.nextOp.need := by
  obtain ⟨h0, rfl⟩ := step_fault hd h hf
  obtain ⟨hb, hr, hw⟩ := hd
  by_contra hl
  obtain ⟨u, hu⟩ := exec_answers (i := decodeAt (fun k => s.bytes.getD (s.nextOp.base s.cur + k) 0) s.nextOp)
    (by simp [decodeAt_op]) s
  have hstep := step_fits hb hr hw rfl (.inr (Nat.le_of_not_lt hl)) hu
  have hseq : s.nextOp.next = .status :=
    (State.retire_seq u _).symm.trans (congrArg State.seq (Host.Outcome.next.inj (hstep.symm.trans h)))
  cases hn : s.nextOp <;> rw [hn] at h0 hseq
  case port => exact h0 rfl
  all_goals cases hseq

/-- While a decode runs, the group of the next operation starts at its place in the layout, STATUS included (R55, R127). -/
theorem BusyInv.base_eq_groupStart (h : BusyInv s) : s.nextOp.base s.cur = groupStart s.flags s.nextOp.group := by
  by_cases hn : s.nextOp = .status
  · rw [hn]
    rfl
  · rw [h.cur_eq_groupStart hn, Op.base_groupStart]

/-- Settles O41: the fault is the failed check of the next operation, whose group is enabled and stands at its place. -/
theorem shortBufferRecordsGroupAndStart : Obligations.ShortBufferRecordsGroupAndStart := by
  refine ⟨rfl, fun s t hinv hd h hf => ?_⟩
  have hbusy := hinv.busy hd.1
  have hlen := len_lt_of_step_fault hd h hf
  obtain ⟨h0, rfl⟩ := step_fault hd h hf
  obtain ⟨hwidth, hpresent⟩ := Op.need_of_ne_zero h0
  have hstart := hbusy.base_eq_groupStart
  refine ⟨rfl, rfl, (hpresent s.flags).symm.trans s.nextOp_enabled, hstart, ?_, ?_⟩
  · exact Nat.le_trans (Op.base_le _ _) hbusy.cursorInside
  · rwa [hstart, hwidth] at hlen

/-! ### InputError -/

/-- Settles O42: the port's check where the host sets it, and START's two outcomes by `len`. -/
theorem startClearsAndChecks : Obligations.StartClearsAndChecks := by
  refine ⟨fun s p rs hp hr hport => ?_, fun s rs hp hr => ⟨_, step_start hp hr, ?_⟩⟩
  · rw [step_pending hp hr]
    obtain ⟨hlt, -⟩ | ⟨-, hs⟩ := serve_setPort p { s with requests := rs }
    · exact absurd hport (Nat.not_le.mpr hlt)
    · exact hs
  · refine ⟨State.startDecode_cur _, nothingPresent_of_res_empty (State.startDecode_res _), State.startDecode_requests _,
      fun a => ?_, State.startDecode_len _, State.startDecode_port _, fun hl => ?_, fun hl => ?_⟩
    · rw [State.byteAt, State.startDecode_payload]
      rfl
    · rw [State.startDecode_tooLong { s with requests := rs } hl]
      exact ⟨rfl, rfl, rfl, rfl⟩
    · rw [State.startDecode_fits { s with requests := rs } hl]
      exact ⟨rfl, rfl, rfl⟩

/-! ### LookupError -/

theorem FaultCode.code_eq_three {e : FaultCode} : e.code = 3 ↔ e = .lookupError := by
  cases e <;> decide

/-- START shows no fault or InputError (R21, R143). -/
theorem State.startDecode_fault_ne_lookupError (s : State) : s.startDecode.fault ≠ .lookupError := by
  by_cases hl : s.len ≤ Config.payloadMax
  · rw [State.startDecode_fits s hl]
    nofun
  · rw [State.startDecode_tooLong s (Nat.lt_of_not_le hl)]
    nofun

/-- A decode step that shows LookupError has not raised it: it was shown before (R145). -/
theorem runOp_lookupError (h : runOp s = .next t) (ht : t.fault = .lookupError) : s.fault = .lookupError := by
  obtain ⟨g, c, -, hs⟩ | ⟨i, u, -, hop, hexec, hs⟩ := runOp_cases s <;>
    obtain rfl := Host.Outcome.next.inj (hs.symm.trans h)
  · cases ht
  · rwa [State.retire_fault, (exec_frameButFlags (by simp [hop]) hexec).fault] at ht

/-- No action of the host raises LookupError (R145). -/
theorem serve_lookupError {r : HostRequest} (h : serve r s = .next t) (ht : t.fault = .lookupError) :
    s.fault = .lookupError := by
  cases r
  case start =>
    obtain rfl := Host.Outcome.next.inj h
    exact absurd ht s.startDecode_fault_ne_lookupError
  case reset =>
    obtain rfl := Host.Outcome.next.inj h
    cases ht
  case merge md =>
    rw [exec_merge_eq h] at ht
    exact ht
  case setPort p =>
    obtain ⟨-, hs⟩ | ⟨-, hs⟩ := serve_setPort p s <;> rw [hs] at h
    · obtain rfl := Host.Outcome.next.inj h
      exact ht
    · cases h
  case place | setLen | wait =>
    obtain rfl := Host.Outcome.next.inj h
    exact ht

/-- No step raises LookupError (R145). -/
theorem step_lookupError (h : step s = .next t) (ht : t.fault = .lookupError) : s.fault = .lookupError := by
  obtain ⟨-, rs, -, hs⟩ | ⟨-, rs, -, hs⟩ | ⟨-, -, -, hs⟩ | ⟨-, -, hs⟩ | ⟨-, r, rs, -, hs⟩ := step_cases s <;> rw [hs] at h
  · obtain rfl := Host.Outcome.next.inj h
    cases ht
  · exact runOp_lookupError (s := { s with requests := rs }) h ht
  · exact runOp_lookupError h ht
  · exact Host.Outcome.next.inj h ▸ ht
  · exact serve_lookupError (s := { s with requests := rs }) h ht

/-- Settles O43: the code is LookupError's alone, and a step that shows it found it shown. -/
theorem lookupErrorNeverRaised : Obligations.LookupErrorNeverRaised :=
  ⟨rfl, fun _ _ hs h ht => hs (FaultCode.code_eq_three.mpr (step_lookupError h (FaultCode.code_eq_three.mp ht)))⟩

end Sys2Proof.Machine
end

section
/-!
SUPPORT. Which operation runs next (45_sequencer_assembler.md R122): the search passes over disabled operations only
(30_encoding.md R59), and it finds an operation inside a group only where the sequencer stands in that group.
-/

namespace Sys2Proof.Machine

variable {s : State}

/-- The search for the next operation starts at its place and passes over disabled operations only (R59, R122). -/
theorem nextEnabled_first (f : Byte) {o : Op} (n : Nat) (hn : o.index + n = 13) :
    o.index ≤ (nextEnabled f o).index ∧
      ∀ q : Op, o.index ≤ q.index → q.index < (nextEnabled f o).index → q.enabled f = false := by
  induction n generalizing o with
  | zero =>
    obtain rfl : o = .port := Op.index_injective hn
    rw [nextEnabled_port]
    exact ⟨Nat.le_refl _, fun q hle hlt => absurd hlt (Nat.not_lt.mpr hle)⟩
  | succ n ih =>
    cases he : o.enabled f with
    | true =>
      rw [nextEnabled_here he]
      exact ⟨Nat.le_refl _, fun q hle hlt => absurd hlt (Nat.not_lt.mpr hle)⟩
    | false =>
      have ho : o ≠ .port := by rintro rfl; simp [Op.index] at hn
      have hi := Op.index_next ho
      obtain ⟨hle, hskip⟩ := ih (o := o.next) (by omega)
      rw [nextEnabled_skip he]
      refine ⟨by omega, fun q hq hlt => ?_⟩
      obtain heq | hgt := Nat.eq_or_lt_of_le hq
      · rwa [← Op.index_injective heq]
      · exact hskip q (hi ▸ hgt) hlt

theorem State.nextOp_first (s : State) : s.seq.index ≤ s.nextOp.index ∧
    ∀ o : Op, s.seq.index ≤ o.index → o.index < s.nextOp.index → o.enabled s.flags = false :=
  nextEnabled_first s.flags (13 - s.seq.index) (by cases s.seq <;> rfl)

/-- Settles O32: the search finds an enabled operation and passes over disabled ones only. -/
theorem nextOperationIsTheFirstEnabled : Obligations.NextOperationIsTheFirstEnabled :=
  fun s => ⟨s.nextOp_enabled, s.nextOp_first⟩

/-- An operation whose predecessor the same flag enables is next only when the sequencer stands at it. -/
theorem State.seq_eq_nextOp {p : Op} (hp : p ≠ .port) (hn : s.nextOp = p.next)
    (he : p.enabled s.flags = p.next.enabled s.flags) : s.seq = p.next := by
  obtain ⟨hle, hskip⟩ := s.nextOp_first
  have hi := Op.index_next hp
  rw [hn] at hle hskip
  refine Op.index_injective (Nat.le_antisymm hle (Nat.le_of_not_lt fun hlt => ?_))
  have hoff := hskip p (by omega) (by omega)
  rw [he, ← hn, s.nextOp_enabled] at hoff
  cases hoff

end Sys2Proof.Machine
end

section
/-!
SUPPORT. An operation that runs in a decode, said once for all fourteen from STATUS to PORT: the flags it leaves
(10_state.md R12), how far the cursor moves (R11), which registers are then present (R16), and that the decode goes on
as `BusyInv` says.
-/

namespace Sys2Proof

/-- The operation before LON, QUAL or LONLAT checks the GPS group's nine bytes and leaves the cursor at its start
(R100). -/
theorem Op.gps_of_next {o : Op} (h : o.next = .lon ∨ o.next = .qual ∨ o.next = .lonlat) :
    o.need = 9 ∧ o.advance = 0 ∧ ∀ f, o.enabled f = f.getLsbD 4 := by
  cases o
  case lat | lon | qual => exact ⟨rfl, rfl, fun f => Op.enabled_eq_present f _⟩
  all_goals simp [Op.next] at h

theorem Op.eq_rssi_of_next {o : Op} (h : o.next = .snr) : o = .rssi := by
  cases o <;> first | rfl | cases h

end Sys2Proof

namespace Sys2Proof.Machine

variable {s t : State} {i : Instr}

/-- In a decode that meets the invariant, an operation has found its bytes, and its meaning answers `t`. -/
structure Runs (s : State) (i : Instr) (t : State) : Prop where
  busyInv : BusyInv s
  fetch : s.fetch = .ok i
  exec : exec i s = .next t

/-- A fetch answers with an instruction of the next operation when the group's bytes are there, and with the group and
its start when they are not (R31, R146). -/
theorem State.fetch_eq (s : State) :
    (∃ i, s.fetch = .ok i ∧ i.op = some s.nextOp ∧
      (s.nextOp.need = 0 ∨ s.nextOp.base s.cur + s.nextOp.need ≤ s.len)) ∨
    (s.fetch = .error (.shortBuffer s.nextOp.group (s.nextOp.base s.cur)) ∧ s.nextOp.need ≠ 0) := by
  by_cases hf : s.nextOp.need = 0 ∨ s.nextOp.base s.cur + s.nextOp.need ≤ s.len
  · exact .inl ⟨_, State.fetch_ok hf, decodeAt_op _ _, hf⟩
  · obtain ⟨h0, hl⟩ := not_or.mp hf
    exact .inr ⟨State.fetch_short h0 (Nat.lt_of_not_le hl), h0⟩

theorem BusyInv.base_eq_cur (h : BusyInv s) : s.nextOp.base s.cur = s.cur := by
  by_cases hn : s.nextOp = .status
  · obtain ⟨hcur, -⟩ := h.atStatus ((State.nextOp_eq_status s).mp hn)
    rw [hn, hcur]
    rfl
  · exact Op.base_of_ne_status hn _

namespace Runs

variable (h : Runs s i t)
include h

theorem op_eq : i.op = some s.nextOp := op_of_decode h.fetch

theorem frame : FrameButFlags s t := exec_frameButFlags (by simp [h.op_eq]) h.exec

theorem bytes_there : s.nextOp.need = 0 ∨ s.cur + s.nextOp.need ≤ s.len := by
  obtain ⟨-, -, -, hf⟩ | ⟨herr, -⟩ := s.fetch_eq
  · rwa [h.busyInv.base_eq_cur] at hf
  · cases h.fetch.symm.trans herr

/-- STATUS latches byte 0; the others find it latched (R12). -/
theorem flags_eq : t.flags = s.byteAt 0 := by
  by_cases hn : s.nextOp = .status
  · have hexec := h.exec
    rw [State.fetch_status hn h.fetch] at hexec
    exact Host.Outcome.next.inj hexec ▸ rfl
  · rw [exec_flags h.op_eq hn h.exec]
    exact (h.busyInv.latched (mt (State.nextOp_eq_status s).mpr hn)).1

theorem len_pos : 1 ≤ s.len := by
  by_cases hn : s.nextOp = .status
  · have hneed := h.bytes_there
    rw [hn] at hneed
    exact Nat.le_trans (Nat.le_add_left 1 _) (hneed.resolve_left nofun)
  · exact (h.busyInv.latched (mt (State.nextOp_eq_status s).mpr hn)).2

/-- The next operation is enabled by the flags it leaves, too. -/
theorem enabled : s.nextOp.enabled t.flags = true := by
  by_cases hn : s.nextOp = .status
  · rw [hn]
    exact (Op.enabled_bit t.flags).1
  · rw [exec_flags h.op_eq hn h.exec]
    exact s.nextOp_enabled

/-- Every operation, STATUS included, moves the cursor by its advance (R11). -/
theorem cur_eq : (t.retire s.nextOp).cur = s.cur + s.nextOp.advance := by
  by_cases hn : s.nextOp = .status
  · obtain ⟨hcur, -⟩ := h.busyInv.atStatus ((State.nextOp_eq_status s).mp hn)
    have hexec := h.exec
    rw [State.fetch_status hn h.fetch] at hexec
    rw [hn, hcur]
    exact Host.Outcome.next.inj hexec ▸ rfl
  · exact exec_retire_cur h.op_eq hn h.exec

/-- The bytes an operation advances over are there: its own check covers them, or that of the group it ends (R31,
R100). -/
theorem cur_le : s.cur + s.nextOp.advance ≤ s.len := by
  have hbytes := h.bytes_there
  by_cases hn : s.nextOp = .lonlat
  · have hseq : s.seq = .lonlat := State.seq_eq_nextOp (p := .qual) nofun hn rfl
    obtain ⟨hgps, -⟩ := h.busyInv.groupBegun
    obtain ⟨-, hle⟩ := hgps (.inr (.inr hseq))
    rwa [hn]
  · have hadv : s.nextOp.advance ≤ s.nextOp.need := by
      cases ho : s.nextOp
      case lonlat => exact absurd ho hn
      all_goals decide
    have hcur := h.busyInv.cursorInside
    omega

/-- Up to the operation that runs, exactly the registers of the enabled operations are present; it was STATUS, and
nothing was, or the operations passed over have none (R13, R16). -/
theorem pres_before (g : Reg) :
    s.res.pres g = (g.writer.enabled t.flags && decide (g.writer.index < s.nextOp.index)) := by
  by_cases hn : s.nextOp = .status
  · obtain ⟨-, hres⟩ := h.busyInv.atStatus ((State.nextOp_eq_status s).mp hn)
    have hfirst : ¬ g.writer.index < Op.status.index := Nat.not_lt_zero _
    rw [nothingPresent_of_res_empty hres g, hn, decide_eq_false hfirst, Bool.and_false]
  · obtain ⟨hle, hskip⟩ := s.nextOp_first
    rw [h.busyInv.present, exec_flags h.op_eq hn h.exec]
    by_cases hlt : g.writer.index < s.seq.index
    · rw [decide_eq_true hlt, decide_eq_true (Nat.lt_of_lt_of_le hlt hle)]
    · rw [decide_eq_false hlt, Bool.and_false]
      by_cases hgap : g.writer.index < s.nextOp.index
      · rw [hskip _ (Nat.le_of_not_lt hlt) hgap, Bool.false_and]
      · rw [decide_eq_false hgap, Bool.and_false]

/-- Once the operation has run, its registers are present as well (R16). -/
theorem pres (g : Reg) :
    t.res.pres g = (g.writer.enabled t.flags && decide (g.writer.index < s.nextOp.index + 1)) := by
  rw [exec_pres h.op_eq h.exec, h.pres_before]
  by_cases hw : g.writer = s.nextOp
  · rw [hw, h.enabled]
    simp
  · have hi : g.writer.index < s.nextOp.index + 1 ↔ g.writer.index < s.nextOp.index :=
      ⟨fun hlt => (Op.index_lt_succ hlt).resolve_right hw, Nat.lt_succ_of_lt⟩
    simp only [hw, hi, decide_false, Bool.or_false]

/-- The flag registers show `F`, from STATUS on (R12). -/
theorem writeFlags_eq : t.res.writeFlags t.flags = t.res := by
  by_cases hn : s.nextOp = .status
  · have hexec := h.exec
    rw [State.fetch_status hn h.fetch] at hexec
    exact Host.Outcome.next.inj hexec ▸ rfl
  · rw [exec_flags h.op_eq hn h.exec]
    exact exec_writeFlags h.op_eq hn h.exec (h.busyInv.flagRegisters (mt (State.nextOp_eq_status s).mpr hn))

/-- The operation that runs stands where the flags it leaves put its group (R55). -/
theorem cur_eq_groupStart : s.cur = groupStart t.flags s.nextOp.group := by
  by_cases hn : s.nextOp = .status
  · obtain ⟨hcur, -⟩ := h.busyInv.atStatus ((State.nextOp_eq_status s).mp hn)
    rw [hcur, hn]
    rfl
  · rw [exec_flags h.op_eq hn h.exec]
    exact h.busyInv.cur_eq_groupStart hn

/-- An operation that is not its group's last leaves the cursor at the group's start, with the group's bytes there
(R31). -/
theorem inside_group (h0 : s.nextOp.need ≠ 0) (ha : s.nextOp.advance = 0) :
    (t.retire s.nextOp).cur + s.nextOp.need ≤ s.len := by
  rw [h.cur_eq, ha, Nat.add_zero]
  exact h.bytes_there.resolve_left h0

/-- A decode that has not come to its end is, after the operation, at the next place in the fixed order (R122). -/
theorem busyInv_retire (hp : s.nextOp ≠ .port) : BusyInv (t.retire s.nextOp) := by
  have hseq : (t.retire s.nextOp).seq = s.nextOp.next := State.retire_seq t _
  have hnext : s.nextOp.next ≠ .status := by cases ho : s.nextOp <;> first | exact absurd ho hp | exact nofun
  have hflags := h.flags_eq
  have hlen := h.frame.len
  refine
    { noFault := by rw [State.retire_fault, h.frame.fault, h.busyInv.noFault]
      fits := by rw [State.retire_len, hlen]; exact h.busyInv.fits
      cursorInside := by rw [h.cur_eq, State.retire_len, hlen]; exact h.cur_le
      atStatus := fun hs => absurd (hseq.symm.trans hs) hnext
      latched := fun _ => ?_
      cursorPlace := fun _ => ?_
      groupBegun := ⟨fun hgps => ?_, fun hsnr => ?_⟩
      present := fun g => by rw [State.retire_res, State.retire_flags, hseq, Op.index_next hp, h.pres]
      flagRegisters := fun _ => by rw [State.retire_res, State.retire_flags, h.writeFlags_eq] }
  · rw [State.retire_flags, State.retire_byteAt, State.retire_len, h.frame.bytes, hlen]
    exact ⟨hflags, h.len_pos⟩
  · rw [h.cur_eq, State.retire_flags, hseq, groupStart_next _ hp, h.enabled, ← h.cur_eq_groupStart, Bool.toNat_true,
      Nat.mul_one]
  · obtain ⟨hneed, hadv, hbit⟩ := Op.gps_of_next (hseq ▸ hgps)
    have hin := h.inside_group (hneed ▸ nofun) hadv
    rw [State.retire_flags, State.retire_len, hlen, ← hbit, ← hneed]
    exact ⟨h.enabled, hin⟩
  · have ho := Op.eq_rssi_of_next (hseq.symm.trans hsnr)
    obtain ⟨-, -, -, -, -, -, -, -, -, hbit, -⟩ := Op.enabled_bit t.flags
    have hin := h.inside_group (ho ▸ nofun) (ho ▸ rfl)
    rw [State.retire_flags, State.retire_len, hlen, ← hbit]
    rw [ho] at hin ⊢
    exact ⟨ho ▸ h.enabled, hin⟩

end Runs

end Sys2Proof.Machine
end

section
/-!
SUPPORT. The invariant (10_state.md section 11, 60_exceptions.md section 3) is kept by every step: by an operation that
runs, by a failed bounds check, and by each of the host's actions.
-/

namespace Sys2Proof.Machine

variable {s t : State} {i : Instr}

/-! ### The registers' ranges -/

/-- The registers `length` and `port` keep their values or are copied from the inputs (R135, R136). -/
theorem exec_length_port (hop : i.op ≠ none) (hexec : exec i s = .next t) :
    (t.res.length = s.res.length ∨ t.res.length = some s.len) ∧ (t.res.port = s.res.port ∨ t.res.port = some s.port) := by
  cases i
  case merge => exact absurd rfl hop
  case len =>
    obtain rfl := Host.Outcome.next.inj hexec
    exact ⟨.inr rfl, .inl rfl⟩
  case port =>
    obtain rfl := Host.Outcome.next.inj hexec
    exact ⟨.inl rfl, .inr rfl⟩
  all_goals
    obtain rfl := Host.Outcome.next.inj hexec
    exact ⟨.inl rfl, .inl rfl⟩

theorem Runs.ranges_retire (h : Runs s i t) (hr : Ranges s) : Ranges (t.retire s.nextOp) := by
  have hpayload := exec_payload h.exec
  have hcur : (t.retire s.nextOp).cur < 2 ^ Config.lenW :=
    h.cur_eq ▸ Nat.lt_of_le_of_lt h.cur_le hr.len
  obtain ⟨hlength, hport⟩ := exec_length_port (by simp [h.op_eq]) h.exec
  refine
    { payloadCanonical := by rw [State.retire_payload, hpayload]; exact hr.payloadCanonical
      payloadInCapacity := by rw [State.retire_payload, hpayload]; exact hr.payloadInCapacity
      len := by rw [State.retire_len, h.frame.len]; exact hr.len
      port := by rw [State.retire_port, h.frame.port]; exact hr.port
      requests := by rw [State.retire_requests, h.frame.requests]; exact hr.requests
      faultCur := by rw [State.retire_faultCur, h.frame.faultCur]; exact hr.faultCur
      curOut := ?_
      cur := hcur
      resLength := fun n hn => ?_
      resPort := fun p hp => ?_ }
  · by_cases ho : s.nextOp = .port
    · rw [ho] at hcur ⊢
      exact hcur
    · rw [State.retire_curOut, if_neg ho, h.frame.curOut]
      exact hr.curOut
  · rw [State.retire_res] at hn
    obtain hl | hl := hlength <;> rw [hl] at hn
    · exact hr.resLength n hn
    · exact Option.some.inj hn ▸ hr.len
  · rw [State.retire_res] at hp
    obtain hl | hl := hport <;> rw [hl] at hp
    · exact hr.resPort p hp
    · exact Option.some.inj hp ▸ hr.port

/-- Raising a fault keeps the ranges: it records a cursor, and clears the result registers (R150). -/
theorem Ranges.raise (hr : Ranges s) (e : FaultCode) (g : Group) {c : Nat} (hc : c < 2 ^ Config.lenW) :
    Ranges (s.raise e g c) :=
  { hr with faultCur := hc, resLength := nofun, resPort := nofun }

/-! ### A step of a decode -/

theorem Inv.out_eq_none (h : Inv s) (hp : s.phase ≠ .done) : s.out = none := by
  by_contra hne
  exact hp (h.merged hne)

/-- A failed bounds check keeps the invariant: the group it names is announced and stands at its place (R146). -/
theorem Inv.raise_short (h : Inv s) (hb : s.phase = .busy) (h0 : s.nextOp.need ≠ 0) :
    Inv (s.raise .shortBuffer s.nextOp.group (s.nextOp.base s.cur)) where
  ranges := h.ranges.raise _ _ (Nat.lt_of_le_of_lt (Op.base_le _ _) h.ranges.cur)
  atRest := fun _ => rfl
  idle := nofun
  busy := nofun
  done := nofun
  fault := fun _ => by
    obtain ⟨-, hpresent⟩ := Op.need_of_ne_zero h0
    exact ⟨rfl, .inr ⟨rfl, (hpresent s.flags).symm.trans s.nextOp_enabled, (h.busy hb).base_eq_groupStart⟩⟩
  merged := fun hout => absurd (h.out_eq_none (hb ▸ nofun)) hout

/-- An operation that runs keeps the invariant; PORT ends the decode in DONE with every enabled operation's registers
(R122). -/
theorem Runs.inv_retire (h : Runs s i t) (hinv : Inv s) (hb : s.phase = .busy) : Inv (t.retire s.nextOp) := by
  have hphase := State.retire_phase t s.nextOp
  have hout : (t.retire s.nextOp).out = none := by
    rw [State.retire_out, h.frame.out]
    exact hinv.out_eq_none (hb ▸ nofun)
  by_cases hp : s.nextOp = .port
  · rw [if_pos hp] at hphase
    refine
      { ranges := h.ranges_retire hinv.ranges
        atRest := fun _ => by rw [State.retire_seq, hp]; rfl
        idle := fun hi => nomatch hphase.symm.trans hi
        busy := fun hb => nomatch hphase.symm.trans hb
        done := fun _ => ⟨?_, ?_, ?_, fun g => ?_⟩
        fault := fun hf => nomatch hphase.symm.trans hf
        merged := fun hne => absurd hout hne }
    · rw [State.retire_fault, h.frame.fault, h.busyInv.noFault]
    · have hcur := h.cur_eq
      have hstart := h.cur_eq_groupStart
      rw [State.retire_curOut, if_pos hp, State.retire_flags]
      rw [hp] at hcur hstart
      exact hcur.trans hstart
    · rw [State.retire_res, State.retire_flags, h.writeFlags_eq]
    · have hlast : g.writer.index < s.nextOp.index + 1 := by rw [hp]; cases g <;> decide
      rw [State.retire_res, State.retire_flags, h.pres, decide_eq_true hlast, Bool.and_true]
  · rw [if_neg hp, h.frame.phase, hb] at hphase
    exact
      { ranges := h.ranges_retire hinv.ranges
        atRest := fun hne => absurd hphase hne
        idle := fun hi => nomatch hphase.symm.trans hi
        busy := fun _ => h.busyInv_retire hp
        done := fun hd => nomatch hphase.symm.trans hd
        fault := fun hf => nomatch hphase.symm.trans hf
        merged := fun hne => absurd hout hne }

/-- One step of the sequencer keeps the invariant. -/
theorem Inv.runOp (hinv : Inv s) (hb : s.phase = .busy) (h : runOp s = .next t) : Inv t := by
  obtain ⟨g, c, hfetch, hs⟩ | ⟨i, u, hfetch, -, hexec, hs⟩ := runOp_cases s <;>
    obtain rfl := Host.Outcome.next.inj (hs.symm.trans h)
  · obtain ⟨i, hok, -⟩ | ⟨herr, h0⟩ := s.fetch_eq
    · cases hfetch.symm.trans hok
    · obtain ⟨rfl, rfl⟩ := Reject.shortBuffer.inj (Except.error.inj (hfetch.symm.trans herr))
      exact hinv.raise_short hb h0
  · exact Runs.inv_retire ⟨hinv.busy hb, hfetch, hexec⟩ hinv hb

/-! ### The host's actions -/

/-- Taking an action off the host's list keeps the invariant. -/
theorem Inv.takeRequest (h : Inv s) {r : HostRequest} {rs : List HostRequest} (hr : s.requests = r :: rs) :
    Inv { s with requests := rs } where
  ranges := { h.ranges with requests := fun q hq => h.ranges.requests q (hr ▸ List.mem_cons_of_mem r hq) }
  atRest := h.atRest
  idle := h.idle
  busy := fun hb => { h.busy hb with }
  done := h.done
  fault := h.fault
  merged := h.merged

/-- At rest the invariant speaks of the host's inputs by their ranges alone. -/
theorem Inv.withInputs (h : Inv s) (hp : s.phase ≠ .busy) {m : Memory} {n p : Nat}
    (hr : Ranges { s with payload := m, len := n, port := p }) : Inv { s with payload := m, len := n, port := p } where
  ranges := hr
  atRest := h.atRest
  idle := h.idle
  busy := fun hb => absurd hb hp
  done := h.done
  fault := h.fault
  merged := h.merged

/-- Bytes placed within the capacity keep the buffer canonical and within it (log 24). -/
theorem Ranges.placeBytes (h : Ranges s) (bs : List Byte) : Ranges (s.placeBytes bs) :=
  { h with
    payloadCanonical := Memory.wf_setBytes h.payloadCanonical _ _
    payloadInCapacity := fun c hc => by
      obtain hold | ⟨-, hlt⟩ := Memory.mem_setBytes hc
      · exact h.payloadInCapacity c hold
      · rw [Nat.zero_add, List.length_take] at hlt
        exact Nat.lt_of_lt_of_le hlt (Nat.min_le_left _ _) }

/-- START keeps the invariant: it shows nothing, and begins a decode or raises InputError (R21, R143). -/
theorem Inv.startDecode (h : Inv s) : Inv s.startDecode := by
  have hcleared : Ranges { s with
      phase := .busy, fault := .none, cur := 0, res := .empty, seq := .status, latOpen := false, lonOpen := false,
      out := none } :=
    { h.ranges with cur := Nat.two_pow_pos _, resLength := nofun, resPort := nofun }
  by_cases hl : s.len ≤ Config.payloadMax
  · rw [State.startDecode_fits s hl]
    exact
      { ranges := hcleared
        atRest := fun hp => absurd rfl hp
        idle := nofun
        busy := fun _ =>
          { noFault := rfl
            fits := hl
            cursorInside := Nat.zero_le _
            atStatus := fun _ => ⟨rfl, rfl⟩
            latched := fun hs => absurd rfl hs
            cursorPlace := fun hs => absurd rfl hs
            groupBegun := ⟨nofun, nofun⟩
            present := fun g => by
              rw [nothingPresent_of_res_empty rfl g]
              exact (Bool.and_false _).symm
            flagRegisters := fun hs => absurd rfl hs }
        done := nofun
        fault := nofun
        merged := fun hne => absurd rfl hne }
  · rw [State.startDecode_tooLong s (Nat.lt_of_not_le hl)]
    exact
      { ranges := { hcleared with faultCur := Nat.two_pow_pos _ }
        atRest := fun _ => rfl
        idle := nofun
        busy := nofun
        done := nofun
        fault := fun _ => ⟨rfl, .inl ⟨rfl, rfl, rfl⟩⟩
        merged := fun hne => absurd rfl hne }

/-- Reset leaves the state after reset but for the host's side, which is in range (R166, R168). -/
theorem Ranges.resetBlock_inv (h : Ranges s) : Inv s.resetBlock where
  ranges := { h with
    faultCur := Nat.two_pow_pos _, curOut := Nat.two_pow_pos _, cur := Nat.two_pow_pos _
    resLength := nofun, resPort := nofun }
  atRest := fun _ => rfl
  idle := fun _ => ⟨rfl, rfl⟩
  busy := nofun
  done := nofun
  fault := nofun
  merged := fun hne => absurd rfl hne

/-- MERGE keeps the invariant: it yields a mapping in DONE alone (R138, R140). -/
theorem Inv.merge (h : Inv s) {md : List (Key × MetaValue)} (ht : exec (.merge md) s = .next t) : Inv t := by
  obtain ⟨hp, hs⟩ | ⟨-, hs⟩ | ⟨-, hs⟩ := execMerge_cases md s <;> rw [exec, hs] at ht
  · obtain rfl := Host.Outcome.next.inj ht
    exact { h with ranges := { h.ranges with }, busy := fun hb => { h.busy hb with }, merged := fun _ => hp }
  · obtain rfl := Host.Outcome.next.inj ht
    exact { h with
      ranges := { h.ranges with }, busy := fun hb => { h.busy hb with }, merged := fun hne => absurd rfl hne }
  · cases ht

/-- Every action of the host, taken at rest, keeps the invariant. -/
theorem Inv.serve (h : Inv s) (hp : s.phase ≠ .busy) {r : HostRequest} (hwf : r.wf) (ht : serve r s = .next t) :
    Inv t := by
  cases r
  case merge md => exact h.merge ht
  case setPort p =>
    obtain ⟨hport, hs⟩ | ⟨-, hs⟩ := serve_setPort p s <;> rw [hs] at ht
    · obtain rfl := Host.Outcome.next.inj ht
      exact h.withInputs hp { h.ranges with port := hport }
    · cases ht
  case place bs =>
    obtain rfl := Host.Outcome.next.inj ht
    exact h.withInputs hp (h.ranges.placeBytes bs)
  case setLen n =>
    obtain rfl := Host.Outcome.next.inj ht
    exact h.withInputs hp { h.ranges with len := hwf }
  case start =>
    obtain rfl := Host.Outcome.next.inj ht
    exact h.startDecode
  case reset =>
    obtain rfl := Host.Outcome.next.inj ht
    exact h.ranges.resetBlock_inv
  case wait =>
    obtain rfl := Host.Outcome.next.inj ht
    exact h

/-- Settles O54: a step is a reset, one of the sequencer's, a wait, or an action of the host, and each keeps the
invariant. -/
theorem stepKeepsInvariant : Obligations.StepKeepsInvariant := by
  intro s t hinv h
  obtain ⟨-, rs, hr, hs⟩ | ⟨hb, rs, hr, hs⟩ | ⟨hb, -, -, hs⟩ | ⟨-, -, hs⟩ | ⟨hp, r, rs, hr, hs⟩ := step_cases s <;>
    rw [hs] at h
  · obtain rfl := Host.Outcome.next.inj h
    exact (hinv.takeRequest hr).ranges.resetBlock_inv
  · exact (hinv.takeRequest hr).runOp hb h
  · exact hinv.runOp hb h
  · exact Host.Outcome.next.inj h ▸ hinv
  · have hwf : r.wf := hinv.ranges.requests r (hr ▸ List.mem_cons_self)
    exact (hinv.takeRequest hr).serve hp hwf h

/-- Settles O52: an operation that runs advances over bytes that are there, and PORT retires at the end of
the layout. -/
theorem cursorOnlyMovesForward : Obligations.CursorOnlyMovesForward := by
  intro s t hinv hd h hf
  obtain ⟨hb, hr, hw⟩ := hd
  have hinvT := stepKeepsInvariant s t hinv h
  have hshown := step_curShown (curShown_of_not_done (hb ▸ nofun)) h
  rw [step_busy hb hr hw] at h
  obtain ⟨g, c, -, hs⟩ | ⟨i, u, hfetch, -, hexec, hs⟩ := runOp_cases s <;>
    obtain rfl := Host.Outcome.next.inj (hs.symm.trans h)
  · exact absurd rfl hf
  · have hruns : Runs s i u := ⟨hinv.busy hb, hfetch, hexec⟩
    have hlen : (u.retire s.nextOp).len = s.len := by rw [State.retire_len, hruns.frame.len]
    refine ⟨hruns.cur_eq, ?_, ?_, fun hdone => ?_⟩
    · rw [hruns.cur_eq, hlen]
      exact hruns.cur_le
    · rw [hlen]
      exact hruns.busyInv.fits
    · obtain ⟨-, hout, -⟩ := hinvT.done hdone
      rw [← hshown hdone]
      exact ⟨hout, rfl, hout ▸ layoutLength_le _⟩

end Sys2Proof.Machine
end

section
/-!
SUPPORT. One operand, encoded and decoded (30_encoding.md R51 to R54): each way is the other's inverse, and the
operand's bytes are those its operation's offset and size say (20_memory.md R35).
-/

namespace Sys2Proof

variable {i : Instr} {o : Op} {p : List Byte}

/-- The operand bytes of an operation, `b k` being the byte at index `k` of its group (R35). -/
def Op.operandBytes (b : Nat → Byte) (o : Op) : List Byte := (List.range o.size).map fun k => b (o.offset + k)

/-- The sign selector and the magnitude of a byte put together from them (R52). -/
theorem signBit_fields : ∀ (sg : Bool) (mag : BitVec 7),
    (BitVec.ofBool sg ++ mag : Byte).getLsbD 7 = sg ∧ (BitVec.ofBool sg ++ mag : Byte).extractLsb' 0 7 = mag := by decide

/-- Fields read from an instruction's own operand bytes are the instruction's (R51 to R54). -/
theorem decodeAt_of_operandBytes {b : Nat → Byte} (hop : i.op = some o) (hb : o.operandBytes b = encode i) :
    decodeAt b o = i := by
  cases i <;> simp only [Instr.op, Option.some.injEq, reduceCtorEq] at hop <;> subst hop
  case lonlat | hex | len | port => rfl
  case status n => exact congrArg Instr.status (List.singleton_inj.mp hb)
  case upcnt n => exact congrArg Instr.upcnt (List.singleton_inj.mp hb)
  case dncnt n => exact congrArg Instr.dncnt (List.singleton_inj.mp hb)
  case rssi n => exact congrArg Instr.rssi (List.singleton_inj.mp hb)
  case snr n => exact congrArg Instr.snr (List.singleton_inj.mp hb)
  case temp sg mag =>
    obtain ⟨hsg, hmag⟩ := signBit_fields sg mag
    rw [decodeAt, show b 0 = _ from List.singleton_inj.mp hb, hsg, hmag]
  case qual tier sat =>
    rw [decodeAt, show b 8 = _ from List.singleton_inj.mp hb, hiNibble_append, loNibble_append]
  case lat c | lon c =>
    injection hb with h0 hb
    injection hb with h1 hb
    injection hb with h2 hb
    injection hb with h3
    simp only [decodeAt]
    exact congrArg _ ((congr (congr (congr (congrArg coordOf h0) h1) h2) h3).trans (coordOf_bytes c))
  case batt v =>
    injection hb with h0 hb
    injection hb with h1
    rw [decodeAt, bigEndian_pair]
    exact congrArg Instr.batt ((congrArg₂ (· ++ ·) h0 h1).trans (append_bytes v))

/-- The fields read, encoded, are the operand bytes they were read from: no bit is dropped (R51 to R54). -/
theorem encode_decodeAt (b : Nat → Byte) (o : Op) : encode (decodeAt b o) = o.operandBytes b := by
  cases o
  case temp => exact congrArg ([·]) (append_signBit (b 0))
  case qual => exact congrArg ([·]) (append_nibbles (b 8))
  case lat => exact bytes_coordOf (b 0) (b 1) (b 2) (b 3)
  case lon => exact bytes_coordOf (b 4) (b 5) (b 6) (b 7)
  case batt =>
    obtain ⟨hhi, hlo⟩ := bytes_append (b 0) (b 1)
    rw [decodeAt, bigEndian_pair, encode, hhi, hlo]
    rfl
  all_goals rfl

/-- What the encoder writes has the operation's size, and the group's check covers it, instruction by instruction (R31,
R35). -/
theorem encodeLength (i : Instr) : Laws.EncodeLength.Statement i :=
  match i with
  | .status s => Laws.EncodeLength.status s
  | .temp sg mag => Laws.EncodeLength.temp sg mag
  | .lat c => Laws.EncodeLength.lat c
  | .lon c => Laws.EncodeLength.lon c
  | .qual tier sat => Laws.EncodeLength.qual tier sat
  | .lonlat => Laws.EncodeLength.lonlat
  | .upcnt n => Laws.EncodeLength.upcnt n
  | .dncnt n => Laws.EncodeLength.dncnt n
  | .batt v => Laws.EncodeLength.batt v
  | .rssi m => Laws.EncodeLength.rssi m
  | .snr n => Laws.EncodeLength.snr n
  | .hex => Laws.EncodeLength.hex
  | .len => Laws.EncodeLength.len
  | .port => Laws.EncodeLength.port
  | .merge md => Laws.EncodeLength.merge md

theorem length_encode (hop : i.op = some o) : (encode i).length = o.size ∧ o.offset + o.size ≤ o.need := by
  simpa only [Laws.EncodeLength.Statement, hop] using encodeLength i

/-- In a payload with the group's bytes there, the operand bytes are those from the operand's offset on (R31, R35). -/
theorem operandBytes_of_fits {start : Nat} (hf : o.need = 0 ∨ start + o.need ≤ p.length) :
    o.operandBytes (fun k => p.getD (start + k) 0) = (p.drop (start + o.offset)).take o.size := by
  obtain ⟨-, hle⟩ := length_encode (decodeAt_op (fun _ => 0) o)
  by_cases h0 : o.size = 0
  · rw [Op.operandBytes, h0]
    rfl
  have hlen : start + o.offset + o.size ≤ p.length := by omega
  refine List.ext_getElem ?_ fun k hk _ => ?_
  · rw [Op.operandBytes, List.length_map, List.length_range, List.length_take, List.length_drop]
    omega
  · have hk : k < o.size := by simpa [Op.operandBytes] using hk
    have hget : start + o.offset + k < p.length := by omega
    simp [Op.operandBytes, ← Nat.add_assoc, List.getElem?_eq_getElem hget]

/-- Settles O2: with its group there, an operation reads its fields from its own operand bytes. -/
theorem decodeInvertsEncode : Obligations.DecodeInvertsEncode := by
  intro i o cur p _ hop hf hbytes
  rw [decode_eq, if_pos hf, decodeAt_of_operandBytes hop ((operandBytes_of_fits hf).trans hbytes)]

/-- Every operand of a sequenced operation is well formed (R60). -/
theorem wf_of_op (hop : i.op = some o) : i.wf = true := by
  cases i <;> first | rfl | cases hop

/-- Settles O3: what is read is an operation's fields, taken from its operand bytes. -/
theorem encodeInvertsDecode : Obligations.EncodeInvertsDecode := by
  intro i o cur p h
  have hop := op_of_decode h
  refine ⟨hop, wf_of_op hop, ?_⟩
  rw [decode_eq] at h
  split at h
  next hf => rw [← Except.ok.inj h, encode_decodeAt, operandBytes_of_fits hf]
  next => cases h

end Sys2Proof
end

section
/-!
SUPPORT. Listings and whole payloads (30_encoding.md R50, R59, R62): a listing is determined by its operations and its
bytes, its bytes are those of the layout, and so a payload and its listing determine each other.
-/

namespace Sys2Proof

variable {i j : Instr} {o : Op} {os : List Op} {p : List Byte} {f : Byte} {l m : List Instr}

/-! ### Listings -/

/-- The decoder reads an instruction back from its own operand bytes, wherever the operand stands in its group. -/
theorem decodeAt_encode (hop : i.op = some o) : decodeAt (fun k => (encode i).getD (k - o.offset) 0) o = i := by
  obtain ⟨hlen, -⟩ := length_encode hop
  refine decodeAt_of_operandBytes hop (List.ext_getElem ?_ fun k _ hk => ?_)
  · simp [Op.operandBytes, hlen]
  · simp [Op.operandBytes, hk]

/-- No two instructions of one operation have the same operand bytes. -/
theorem encode_injective (hi : i.op = some o) (hj : j.op = some o) (h : encode i = encode j) : i = j := by
  rw [← decodeAt_encode hi, h, decodeAt_encode hj]

/-- A listing's length in bytes is that of its operations' operands, one after another (R50). -/
theorem length_encodePayload (hl : l.map Instr.op = os.map some) :
    (encodePayload l).length = (os.map Op.size).sum := by
  induction os generalizing l with
  | nil => rw [List.map_eq_nil_iff.mp hl]; rfl
  | cons o os ih =>
    obtain ⟨i, is, rfl, hi, his⟩ := List.map_eq_cons_iff.mp hl
    obtain ⟨hlen, -⟩ := length_encode hi
    rw [encodePayload, List.flatMap_cons, List.length_append, hlen, List.map_cons, List.sum_cons]
    exact congrArg (o.size + ·) (ih his)

/-- A listing is determined by its operations and its bytes: each operand ends where its operation's size says. -/
theorem encodePayload_injective (hl : l.map Instr.op = os.map some) (hm : m.map Instr.op = os.map some)
    (h : encodePayload l = encodePayload m) : l = m := by
  induction os generalizing l m with
  | nil => rw [List.map_eq_nil_iff.mp hl, List.map_eq_nil_iff.mp hm]
  | cons o os ih =>
    obtain ⟨i, is, rfl, hi, his⟩ := List.map_eq_cons_iff.mp hl
    obtain ⟨j, js, rfl, hj, hjs⟩ := List.map_eq_cons_iff.mp hm
    obtain ⟨hleni, -⟩ := length_encode hi
    obtain ⟨hlenj, -⟩ := length_encode hj
    obtain ⟨hhead, htail⟩ := List.append_inj h (hleni.trans hlenj.symm)
    rw [encode_injective hi hj hhead, ih his hjs htail]

/-- STATUS runs under every status byte (R51). -/
theorem order_filter_enabled (f : Byte) :
    Op.order.filter (Op.enabled f) = .status :: Op.order.tail.filter (Op.enabled f) :=
  List.filter_cons_of_pos (Op.enabled_bit f).1

/-- A well-formed listing is a STATUS and the operations its byte selects, in the fixed order (R58, R59). -/
theorem listingWf_iff : listingWf l = true ↔
    ∃ s rest, l = .status s :: rest ∧ l.map Instr.op = (Op.order.filter (Op.enabled s)).map some := by
  constructor
  · intro h
    match l, h with
    | .status s :: rest, h =>
      refine ⟨s, rest, rfl, ?_⟩
      rw [order_filter_enabled, List.map_cons, List.map_cons, beq_iff_eq.mp h]
      rfl
  · rintro ⟨s, rest, rfl, h⟩
    rw [order_filter_enabled] at h
    exact beq_iff_eq.mpr (List.cons.inj h).2

/-- The layout holds the operands of the selected operations and nothing else (R50, R56). -/
theorem sum_size_eq_layoutLength : ∀ f : Byte, ((Op.order.filter (Op.enabled f)).map Op.size).sum = layoutLength f := by
  decide

/-! ### Whole payloads -/

/-- Where, in the bytes of a listing, those of operation `o` begin; LONLAT's, of which there are none, behind its
group. -/
def Op.listingStart (f : Byte) : Op → Nat
  | .lonlat => groupStart f .upcnt
  | o => groupStart f o.group + o.offset * (o.enabled f).toNat

theorem Op.listingStart_status (f : Byte) : Op.listingStart f .status = 0 := by
  simp [Op.listingStart, Op.group, Op.offset, groupStart]

/-- An operation's bytes, if it is selected, are followed by those of the next (R50). -/
theorem Op.listingStart_next (f : Byte) {o : Op} (h : o ≠ .port) :
    o.next.listingStart f = o.listingStart f + o.size * (o.enabled f).toNat := by
  cases o
  case port => exact absurd rfl h
  all_goals
    simp only [Op.enabled_eq_present, Op.next, Op.listingStart, Op.group, Op.size, Op.offset, Group.present, groupStart,
      layoutLength, statusBit, Bool.toNat_true] <;> omega

/-- An operation that is selected has its operand at its place in the listing, whatever the cursor counts (R35, R55). -/
theorem Op.take_listingStart (he : o.enabled f = true) :
    (p.drop (o.base (groupStart f o.group) + o.offset)).take o.size = (p.drop (o.listingStart f)).take o.size := by
  rw [Op.base_groupStart]
  cases o
  case lonlat => rfl
  all_goals rw [Op.listingStart, he, Bool.toNat_true, Nat.mul_one]; nofun

/-- The bytes before an operation's, and the encoding of what is decoded from that operation on, are the layout (R50,
R55). -/
theorem take_append_encodePayload (n : Nat) (hn : o.index + n = 13)
    (h : decodeOps p f (groupStart f o.group) o.rest = .ok l) :
    p.take (o.listingStart f) ++ encodePayload l = p.take (layoutLength f) := by
  induction n generalizing o l with
  | zero =>
    obtain rfl : o = .port := Op.index_injective hn
    obtain ⟨i, is, hd, his, rfl⟩ := decodeOps_enabled (Op.enabled_eq_present f .port) h
    obtain ⟨-, -, henc⟩ := encodeInvertsDecode i .port _ p hd
    obtain rfl := Except.ok.inj his
    rw [encodePayload, List.flatMap_singleton, henc, Op.size, List.take_zero, List.append_nil]
    simp [Op.listingStart, Op.group, Op.offset, groupStart]
  | succ n ih =>
    have ho : o ≠ .port := by rintro rfl; simp [Op.index] at hn
    have hi := Op.index_next ho
    have next := fun {l} => ih (o := o.next) (l := l) (by omega)
    rw [groupStart_next _ ho, Op.listingStart_next _ ho] at next
    rw [Op.rest_eq o ho] at h
    cases he : o.enabled f with
    | false =>
      rw [he] at next
      rw [decodeOps_disabled he] at h
      exact next h
    | true =>
      rw [he, Bool.toNat_true, Nat.mul_one, Nat.mul_one] at next
      obtain ⟨i, is, hd, his, rfl⟩ := decodeOps_enabled he h
      obtain ⟨-, -, henc⟩ := encodeInvertsDecode i o _ p hd
      rw [← next his, List.take_add, ← Op.take_listingStart he, ← henc, List.append_assoc]
      rfl

/-- The bytes of a payload's listing are the payload's, up to the layout length (R50, R56). -/
theorem encodePayload_of_decodePayload (h : decodePayload p = .ok l) :
    encodePayload l = p.take (layoutLength (p.getD 0 0)) := by
  have hwhole := take_append_encodePayload (o := .status) 13 rfl h
  rwa [Op.listingStart_status, List.take_zero, List.nil_append] at hwhole

/-- What a payload decodes to is a well-formed listing, of the operations byte 0 selects (R59, R62). -/
theorem listingWf_of_decodePayload (h : decodePayload p = .ok l) : listingWf l = true := by
  have hops := decodeOps_map_op h
  obtain ⟨i, rest, hd, -, rfl⟩ := decodeOps_enabled (Op.enabled_bit _).1 h
  rw [decode_eq] at hd
  split at hd
  next => exact listingWf_iff.mpr ⟨_, rest, by rw [← Except.ok.inj hd]; rfl, hops⟩
  next => cases hd

/-- Settles O4: a payload's listing has the operations byte 0 selects and the layout's bytes; a well-formed listing has
the same, so it is that listing. -/
theorem listingsAndPayloadsAgree : Obligations.ListingsAndPayloadsAgree := by
  refine ⟨fun l trailing hwf => ?_, fun p l h => ⟨listingWf_of_decodePayload h, encodePayload_of_decodePayload h⟩⟩
  obtain ⟨s, rest, rfl, hops⟩ := listingWf_iff.mp hwf
  have hlen := (length_encodePayload hops).trans (sum_size_eq_layoutLength s)
  have h0 : (encodePayload (.status s :: rest) ++ trailing).getD 0 0 = s := rfl
  have hfits : layoutLength s ≤ (encodePayload (.status s :: rest) ++ trailing).length := by
    rw [List.length_append, hlen]
    exact Nat.le_add_right _ _
  obtain ⟨hiff, -⟩ := Machine.allChecksAreOneCheck (encodePayload (.status s :: rest) ++ trailing)
  obtain ⟨l, hl⟩ := hiff.mpr ⟨Nat.le_trans (layoutLength_pos s) hfits, h0 ▸ hfits⟩
  have henc := encodePayload_of_decodePayload hl
  rw [h0, List.take_left' hlen] at henc
  rw [hl, encodePayload_injective (decodeOps_map_op hl) hops henc]

end Sys2Proof
end

section
/-!
SUPPORT. DECSTR (00_scope.md R7): the check on a text is R7's own words, the stand-in rendering meets it, and no numeral
holds a comma, so `lonlat` splits at its comma in one way (42_coordinate.md R101).
-/

namespace Sys2Proof.Machine

variable {s : Str} {v q : Rat}

/-- No decimal numeral holds a comma: it is no digit, no point and no sign (R7). -/
theorem comma_notMem_of_unsignedNumeral (h : unsignedNumeral s = some v) : (0x2C : Char8) ∉ s := by
  intro hc
  have hrest := comma_mem_takeDigits hc
  unfold unsignedNumeral at h
  split at h
  · cases h
  · next heq => rw [heq] at hrest; cases hrest
  · next c rest _ heq =>
    rw [heq] at hrest
    split at h
    · next hpoint =>
      have hrest : (0x2C : Char8) ∈ rest := (List.mem_cons.mp hrest).resolve_left (hpoint ▸ by decide)
      have hdec := comma_mem_takeDigits hrest
      split at h
      · cases h
      · next heq' => rw [heq'] at hdec; cases hdec
      · cases h
    · cases h

theorem comma_notMem_of_numeralValue (h : numeralValue s = some v) : (0x2C : Char8) ∉ s := by
  cases s with
  | nil => cases h
  | cons c cs =>
    rw [numeralValue] at h
    split at h
    · next hsign =>
      obtain ⟨w, hw, -⟩ := Option.map_eq_some_iff.mp h
      rw [List.mem_cons, hsign, not_or]
      exact ⟨by decide, comma_notMem_of_unsignedNumeral hw⟩
    · exact comma_notMem_of_unsignedNumeral h

/-- The check passes exactly the texts that meet R7 (b) (log 3). -/
theorem decstrOk_iff (q : Rat) (txt : Str) :
    decstrOk q txt = true ↔ ∃ v, numeralValue txt = some v ∧ |v - q| ≤ 1 / 10000 := by
  unfold decstrOk
  cases numeralValue txt with
  | none => simp
  | some v =>
    simp only [decide_eq_true_eq, Option.some.injEq, exists_eq_left', abs_le', neg_sub]

/-- The ten-thousandths `fourDecimals` keeps of a number's magnitude. -/
def tenThousandths (q : Rat) : Nat := (|q| * 10000).floor.toNat

/-- They fall short of the magnitude by less than one (log 3). -/
theorem tenThousandths_bounds (q : Rat) :
    (tenThousandths q : Rat) ≤ |q| * 10000 ∧ |q| * 10000 < tenThousandths q + 1 := by
  have hfloor : tenThousandths q = ⌊|q| * 10000⌋₊ := rfl
  rw [hfloor]
  exact ⟨Nat.floor_le (by positivity), Nat.lt_floor_add_one _⟩

/-- An unsigned numeral is a numeral, and a sign in front of it negates it (R7): its first character is a digit. -/
theorem numeralValue_of_unsignedNumeral (h : unsignedNumeral s = some v) :
    numeralValue s = some v ∧ numeralValue (0x2D :: s) = some (-v) := by
  refine ⟨?_, by rw [numeralValue, if_pos rfl, h]; rfl⟩
  cases s with
  | nil => cases h
  | cons c cs =>
    have hc : c ≠ 0x2D := by
      rintro rfl
      cases h
    rw [numeralValue, if_neg hc, h]

/-- The digits of `fourDecimals` are an unsigned numeral; the sign, where there is one, stands before them (log 3). -/
theorem numeralValue_fourDecimals (q : Rat) : numeralValue (fourDecimals q) =
    some (if q < 0 then -((tenThousandths q : Rat) / 10000) else (tenThousandths q : Rat) / 10000) := by
  obtain ⟨hpos, hneg⟩ := numeralValue_of_unsignedNumeral (unsignedNumeral_fourDecimals (tenThousandths q))
  unfold fourDecimals
  simp only [List.append_assoc]
  split
  · exact hneg
  · exact hpos

/-- Cut off at four decimals, a number has moved by less than 0.0001 (R7). -/
theorem decstrOk_fourDecimals (q : Rat) : decstrOk q (fourDecimals q) = true := by
  refine (decstrOk_iff q _).mpr ⟨_, numeralValue_fourDecimals q, ?_⟩
  obtain ⟨hle, hlt⟩ := tenThousandths_bounds q
  rw [abs_le]
  split
  · next hq =>
    rw [abs_of_neg hq] at hle hlt
    constructor <;> linarith
  · next hq =>
    rw [abs_of_nonneg (not_lt.mp hq)] at hle hlt
    constructor <;> linarith

theorem decstrOk_decstr (q : Rat) : decstrOk q (decstr q) = true := by
  unfold decstr
  split
  · assumption
  · exact decstrOk_fourDecimals q

/-- DECSTR's contract (R7). -/
theorem decstr_contract (q : Rat) :
    ∃ v, numeralValue (decstr q) = some v ∧ |v - q| ≤ 1 / 10000 ∧ (0x2C : Char8) ∉ decstr q := by
  obtain ⟨v, hv, hq⟩ := (decstrOk_iff q _).mp (decstrOk_decstr q)
  exact ⟨v, hv, hq, comma_notMem_of_numeralValue hv⟩

/-- Settles O27: whichever text is kept meets the check, and the check is R7's words. -/
theorem decstrKeepsItsContract : Obligations.DecstrKeepsItsContract := ⟨decstr_contract, decstrOk_iff⟩

/-- Settles O28: neither numeral holds a comma, so the comma between them is the only one. -/
theorem lonlatSplitsAtItsComma : Obligations.LonlatSplitsAtItsComma := by
  intro n lo la
  obtain ⟨va, hva, hqa, hca⟩ := decstr_contract (longitudeValue lo)
  obtain ⟨vb, hvb, hqb, hcb⟩ := decstr_contract (latitudeValue la)
  have htext : lonlatResult n false false (some lo) (some la) =
      decstr (longitudeValue lo) ++ (0x2C : Char8) :: decstr (latitudeValue la) := List.append_assoc _ _ _
  refine ⟨_, _, va, vb, htext, hva, hqa, hvb, hqb, fun a' b' h => ?_⟩
  obtain ⟨ha, -, hb⟩ := (List.append_cons_inj_of_notMem hca hcb).mp (htext.symm.trans h)
  exact ⟨ha.symm, hb.symm⟩

end Sys2Proof.Machine
end

section
/-!
SUPPORT. The decoder, run on the payloads that 95_test_vectors.md writes out.
-/

namespace Sys2Proof

/-- Settles O1: the decoder, run on each payload of 95_test_vectors.md sections 1 to 3. -/
theorem vectorPayloadsDecode : Obligations.VectorPayloadsDecode := by
  unfold Obligations.VectorPayloadsDecode
  decide

end Sys2Proof
end

section
/-!
SUPPORT. The meanings that complete from every state: STATUS (40_status.md R70), the scalars (44_scalars.md R112 to
R116), LAT and LON on digits out of specification (42_coordinate.md R103), LONLAT on values absent or open (R101), MERGE
without a result (45_sequencer_assembler.md R138, R140); and that each register has its one writer (10_state.md R13,
R22).
-/

namespace Sys2Proof.Machine

/-- Settles O9: what the flag registers read as after STATUS, and the frame. -/
theorem statusCompletes : Obligations.StatusCompletes := by
  intro b s
  have hexec : exec (.status b) s = .next { s with flags := b, res := s.res.writeFlags b, cur := 1 } := rfl
  obtain ⟨h7, h6, h5, h4, h3, h2, h1, h0⟩ := s.res.get_writeFlags b
  exact ⟨_, hexec, rfl, rfl, h0, h1, h2, h3, h4, h5, h6, h7, exec_otherRegistersKept (o := .status) rfl hexec,
    exec_frameButFlags (i := .status b) nofun hexec, ⟨rfl, rfl, rfl⟩⟩

/-- A digit above 9 makes the digits invalid (R103). -/
theorem validDigits_eq_false {c : Coord} (h : ∃ d ∈ [c.d0, c.d1, c.d2, c.d3, c.d4, c.d5, c.d6], 9 < d.toNat) :
    validDigits c = false := by
  obtain ⟨d, hd, hgt⟩ := h
  refine Bool.eq_false_iff.mpr fun hvalid => ?_
  have hle := (validDigits_iff c).mp hvalid d.toNat (List.mem_map_of_mem (f := BitVec.toNat) hd)
  omega

/-- Settles O15: the meanings of LAT and LON on any digits, the hemispheres' names, and the frames. -/
theorem outOfSpecDigitsDoNotStop : Obligations.OutOfSpecDigitsDoNotStop := by
  intro c s hdigit
  have hopen : (!validDigits c) = true := by rw [validDigits_eq_false hdigit]; rfl
  obtain ⟨t, ht⟩ := exec_answers (i := .lat c) nofun s
  obtain ⟨u, hu⟩ := exec_answers (i := .lon c) nofun s
  have keptLat := exec_otherRegistersKept (o := .lat) rfl ht
  have keptLon := exec_otherRegistersKept (o := .lon) rfl hu
  have frameLat := exec_frame (o := .lat) rfl nofun ht
  have frameLon := exec_frame (o := .lon) rfl nofun hu
  obtain rfl := Host.Outcome.next.inj ht
  obtain rfl := Host.Outcome.next.inj hu
  rw [← latHemisphereText_latHemisphere, ← lonHemisphereText_lonHemisphere]
  exact ⟨⟨_, ht, rfl, rfl, rfl, rfl, keptLat, frameLat, hopen, rfl⟩,
    ⟨_, hu, rfl, rfl, rfl, rfl, keptLon, frameLon, hopen, rfl⟩⟩

/-- Settles O17: LONLAT's meaning, which writes its register in every case, and the frame. -/
theorem lonlatCompletes : Obligations.LonlatCompletes := by
  refine ⟨fun s => ?_, fun s lo la hlo hla hlon hlat => ⟨_, rfl, ?_⟩⟩
  · obtain ⟨t, ht⟩ := exec_answers (i := .lonlat) nofun s
    have kept := exec_otherRegistersKept (o := .lonlat) rfl ht
    have frame := exec_frame (o := .lonlat) rfl nofun ht
    obtain rfl := Host.Outcome.next.inj ht
    exact ⟨_, ht, rfl, rfl, kept, frame, rfl, rfl⟩
  · rw [hlo, hla, hlon, hlat]
    rfl

/-- UPCNT writes its operand and moves the cursor behind it, and nothing else (R112). -/
theorem exec_upcnt (n : Byte) (s : State) : exec (.upcnt n) s =
    .next { s with res := { s.res with uplinkCounter := some n }, cur := s.cur + 1 } := rfl

/-- DNCNT writes its operand and moves the cursor behind it, and nothing else (R113). -/
theorem exec_dncnt (n : Byte) (s : State) : exec (.dncnt n) s =
    .next { s with res := { s.res with downlinkCounter := some n }, cur := s.cur + 1 } := rfl

/-- BATT writes its operand and moves the cursor behind its two bytes, and nothing else (R114). -/
theorem exec_batt (v : BitVec 16) (s : State) : exec (.batt v) s =
    .next { s with res := { s.res with batteryLevel := some v }, cur := s.cur + 2 } := rfl

/-- Settles O18: the three next states, and their frames. -/
theorem countersAndBatteryComplete : Obligations.CountersAndBatteryComplete :=
  ⟨fun n s => ⟨_, exec_upcnt n s, rfl, rfl, exec_otherRegistersKept (o := .upcnt) rfl (exec_upcnt n s),
      exec_frame (o := .upcnt) rfl nofun (exec_upcnt n s), ⟨rfl, rfl, rfl⟩⟩,
    fun n s => ⟨_, exec_dncnt n s, rfl, rfl, exec_otherRegistersKept (o := .dncnt) rfl (exec_dncnt n s),
      exec_frame (o := .dncnt) rfl nofun (exec_dncnt n s), ⟨rfl, rfl, rfl⟩⟩,
    fun v s => ⟨_, exec_batt v s, rfl, rfl, exec_otherRegistersKept (o := .batt) rfl (exec_batt v s),
      exec_frame (o := .batt) rfl nofun (exec_batt v s), ⟨rfl, rfl, rfl⟩⟩⟩

/-- RSSI writes minus its operand in nine bits, and nothing else (R115). -/
theorem exec_rssi (m : Byte) (s : State) : exec (.rssi m) s =
    .next { s with res := { s.res with rssi := some (BitVec.ofInt 9 (rssiValue m)) } } := rfl

/-- SNR writes its operand, and nothing else (R116). -/
theorem exec_snr (n : Byte) (s : State) : exec (.snr n) s = .next { s with res := { s.res with snr := some n } } := rfl

/-- Settles O19: the two next states, what nine bits hold, and the frames. -/
theorem rssiAndSnrComplete : Obligations.RssiAndSnrComplete := by
  refine ⟨fun m s => ⟨_, exec_rssi m s, ?_, rfl, exec_otherRegistersKept (o := .rssi) rfl (exec_rssi m s),
      exec_frame (o := .rssi) rfl nofun (exec_rssi m s), ⟨rfl, rfl, rfl⟩⟩,
    fun n s => ⟨_, exec_snr n s, rfl, rfl, exec_otherRegistersKept (o := .snr) rfl (exec_snr n s),
      exec_frame (o := .snr) rfl nofun (exec_snr n s), ⟨rfl, rfl, rfl⟩⟩⟩
  rw [← toInt_rssiValue]
  rfl

/-- Settles O23: MERGE's cases in FAULT, IDLE and BUSY. -/
theorem mergeWithoutResult : Obligations.MergeWithoutResult := by
  refine fun md s => ⟨fun hp => exec_merge_of_fault hp md, fun hp => ?_⟩
  obtain ⟨hdone, -⟩ | ⟨hfault, -⟩ | ⟨-, hs⟩ := execMerge_cases md s
  · rw [hdone] at hp
    exact hp.elim nofun nofun
  · rw [hfault] at hp
    exact hp.elim nofun nofun
  · exact hs

/-- Settles O50: a sequenced operation writes its own registers alone, and MERGE writes none. -/
theorem oneWriterForEachRegister : Obligations.OneWriterForEachRegister := by
  intro i s t g h hop
  cases ho : i.op with
  | some o => exact exec_get_of_writer_ne ho (fun hw => hop (hw ▸ ho)) h
  | none =>
    obtain ⟨md, rfl⟩ := eq_merge_of_op_eq_none ho
    rw [exec_merge_eq h]

end Sys2Proof.Machine
end

section
/-!
SUPPORT. What a step answers: the meaning and the retirement of what is fetched (45_sequencer_assembler.md R122), and a
next state always but for the two stops of the host's actions (R138, 60_exceptions.md R143).
-/

namespace Sys2Proof.Machine

/-- What an operation's retirement adds, field by field (R122). -/
theorem State.retire_eq (t : State) (o : Op) : t.retire o =
    { t with
      seq := o.next
      cur := t.cur + (if o = .lonlat then 9 else if o = .snr then 2 else 0)
      phase := if o = .port then .done else t.phase
      curOut := if o = .port then t.cur else t.curOut } := by
  cases o <;> rfl

/-- Settles O31: a fetch that succeeds is followed by its meaning and its retirement. -/
theorem stepRunsDecodedInstruction : Obligations.StepRunsDecodedInstruction := by
  refine ⟨fun s i ⟨hb, hr, hw⟩ hdec => ?_, State.retire_eq⟩
  rw [step_busy hb hr hw]
  obtain ⟨g, c, hfetch, -⟩ | ⟨j, t, hfetch, -, hexec, hs⟩ := runOp_cases s
  · cases hfetch.symm.trans hdec
  · obtain rfl := Except.ok.inj (hfetch.symm.trans hdec)
    exact ⟨t, hexec, hs⟩

theorem runOp_answers (s : State) : ∃ t, runOp s = .next t := by
  obtain ⟨g, c, -, hs⟩ | ⟨i, t, -, -, -, hs⟩ := runOp_cases s
  · exact ⟨_, hs⟩
  · exact ⟨_, hs⟩

/-- Settles O44: a reset, a wait and the sequencer answer a next state, and so does every action of the host but two. -/
theorem stepAlwaysAnswers : Obligations.StepAlwaysAnswers := by
  intro s
  obtain ⟨-, rs, -, hs⟩ | ⟨-, rs, -, hs⟩ | ⟨-, -, -, hs⟩ | ⟨-, -, hs⟩ | ⟨hp, r, rs, hr, hs⟩ := step_cases s <;> rw [hs]
  · exact .inl ⟨_, rfl⟩
  · exact .inl (runOp_answers _)
  · exact .inl (runOp_answers _)
  · exact .inl ⟨_, rfl⟩
  · obtain hnext | ⟨p, rfl, hwide, hs⟩ | ⟨md, rfl, hphase, hs⟩ := serve_answers r { s with requests := rs }
    · exact .inl hnext
    · exact .inr (.inr ⟨hp, ⟨p, rs, hr, hwide⟩, hs⟩)
    · exact .inr (.inl ⟨hphase.resolve_right hp, ⟨md, rs, hr⟩, hs⟩)

end Sys2Proof.Machine
end

section
/-!
SUPPORT. Reset and the host's actions (70_reset_and_hazards.md): reset is taken in every state (R166, R168), the three
preparations at rest (R170), and while a decode runs everything else waits (R174, R176).
-/

namespace Sys2Proof.Machine

variable {s : State}

/-- A pending reset is taken in every state, BUSY included (R166, R168). -/
theorem step_reset {rs : List HostRequest} (hr : s.requests = .reset :: rs) :
    step s = .next (State.resetBlock { s with requests := rs }) := by
  by_cases hb : s.phase = .busy
  · simp only [step, stepMachine, hb, hr]
  · exact step_pending hb hr

/-- A wait of the host is dropped, and the decode goes on (R176). -/
theorem step_wait {rs : List HostRequest} (hb : s.phase = .busy) (hr : s.requests = .wait :: rs) :
    step s = runOp { s with requests := rs } := by
  simp only [step, stepMachine, hb, hr]

/-- Settles O45: the state after the reset that every state takes. -/
theorem resetAtAnyTime : Obligations.ResetAtAnyTime :=
  fun _ _ hr => ⟨_, step_reset hr, rfl, rfl, nothingPresent_of_res_empty rfl, fun _ => rfl, rfl, rfl, rfl⟩

/-- The byte at an index after the host has placed bytes in a canonical buffer (R170; log 24). -/
theorem State.byteAt_placeBytes (hw : s.payload.wf = true) (bs : List Byte) (i : Nat) :
    (s.placeBytes bs).byteAt i = if i < bs.length ∧ i < Config.payloadMax then bs.getD i 0 else s.byteAt i := by
  have hplaced : 0 ≤ i ∧ i < 0 + (bs.take Config.payloadMax).length ↔ i < bs.length ∧ i < Config.payloadMax := by
    rw [List.length_take]
    omega
  rw [State.byteAt, State.placeBytes_payload, Memory.get_setBytes hw]
  simp only [hplaced]
  split
  next hi =>
    obtain ⟨-, hmax⟩ := hi
    rw [List.getD_eq_getElem?_getD, Nat.sub_zero, List.getElem?_take_of_lt hmax, List.getD_eq_getElem?_getD]
  next => rfl

/-- Settles O47: the three actions, taken at rest. -/
theorem hostPlacesTheBytes : Obligations.HostPlacesTheBytes := by
  refine ⟨fun s bs rs hp hr hw => ?_, fun s n rs hp hr => step_pending hp hr, fun s p rs hp hr hport => ?_⟩
  · have hbyte := State.byteAt_placeBytes (s := { s with requests := rs }) hw bs
    refine ⟨_, step_pending hp hr, fun i hlen hmax => ?_, fun i hout => ?_, rfl⟩
    · exact (hbyte i).trans (if_pos ⟨hlen, hmax⟩)
    · exact (hbyte i).trans (if_neg (by omega))
  · rw [step_pending hp hr]
    obtain ⟨-, hs⟩ | ⟨hwide, -⟩ := serve_setPort p { s with requests := rs }
    · exact hs
    · exact absurd hport (Nat.not_lt.mpr hwide)

/-- Settles O48: what is pending is carried along by a step of the sequencer, and a wait makes it that step. -/
theorem hostWaitsWhileBusy : Obligations.HostWaitsWhileBusy := by
  refine ⟨fun s t rs hb hr hw h => ?_, fun s rs hb hr hw => ?_⟩
  · have hrun := (step_busy_nil (s := { s with requests := [] }) hb rfl).symm.trans h
    have hcarried := (carried_requests rs).runOp (s := { s with requests := [] }) hrun
    exact (step_busy (s := { s with requests := rs }) hb hr hw).trans hcarried
  · calc step { s with requests := .wait :: rs }
      _ = runOp { s with requests := rs } := step_wait (s := { s with requests := .wait :: rs }) hb rfl
      _ = step { s with requests := rs } := (step_busy (s := { s with requests := rs }) hb hr hw).symm

end Sys2Proof.Machine
end
